-- ==== Sys2Proof/Word.lean ====
section
/-! DEFINITION. The word types of JDSP-CORE: 32-bit register and command words, and the 64-bit operand and result
registers that hold a sample-format value (spec/00_scope.md R8, R9; spec/10_state.md R30, R35). -/

namespace Sys2Proof

/-- A 32-bit interface register or command word (R30, R100). -/
abbrev Word := BitVec 32

/-- A 64-bit operand or result register, and every sample-format value held in unit state: the value's encoding,
zero-extended to 64 bits (R8, R35; log 8). -/
abbrev Sample := BitVec 64

end Sys2Proof
end

