-- ==== Sys2Proof/Syntax.lean ====
section
/-! DEFINITION. The 44 commands of JDSP-CORE (spec/30_encoding.md R109), one constructor per row of
spec/opcode_table.json, with their fields as unsigned integers or named codes (R101 to R105), and the error codes of
spec/60_exceptions.md R330. -/

namespace Sys2Proof

/-- A `CH` field of role `ch/ALL` (R102, R104): 0xFF selects every prepared channel. -/
inductive ChanSel where
  | one (c : Nat)
  | all
deriving DecidableEq, Repr

/-- `fotype` (R105). -/
inductive FoType where
  | lowpass | highpass | allpass | lowshelf | highshelf
deriving DecidableEq, Repr

/-- `bqtype` (R105, R221). -/
inductive BqType where
  | lowpass | highpass | bandpass | allpass | notch | peak | lowshelf | highshelf
deriving DecidableEq, Repr, Inhabited

/-- `alg` (R105, R161). -/
inductive PsAlg where
  | none | exp | linear
deriving DecidableEq, Repr

/-- `variant` (R105, R260). -/
inductive EfVariant where
  | peak | rms
deriving DecidableEq, Repr

/-- `tmode` (R105, R262). -/
inductive TimeMode where
  | raw | perceptual
deriving DecidableEq, Repr

/-- The commands (R109). `channels`, `sections`, `order`, `ch`, `sec` and `stage` are the integers of the `CH` and
`SEC` fields; `seeded` is `SUB` of role `seed`. -/
inductive Instr where
  | nop
  | errclr
  | foPrepare (channels sections : Nat)
  | foReset (sel : ChanSel)
  | foSetcoef (sel : ChanSel) (sec : Nat)
  | foProcess (ch : Nat)
  | foDesign (type : FoType)
  | foReadcoef (ch sec : Nat)
  | foReadstate (ch sec : Nat)
  | bqPrepare (channels sections : Nat)
  | bqReset (sel : ChanSel)
  | bqSettype (sel : ChanSel) (sec : Nat) (type : BqType)
  | bqSetfreq (sel : ChanSel) (sec : Nat)
  | bqSetq (sel : ChanSel) (sec : Nat)
  | bqSetgain (sel : ChanSel) (sec : Nat)
  | bqSetcoef (sel : ChanSel) (sec : Nat)
  | bqProcess (ch : Nat)
  | bqReadcoef (ch sec : Nat)
  | bqReadstate (ch sec : Nat)
  | bqReadparam (ch sec : Nat)
  | psPrepare (channels order : Nat) (alg : PsAlg)
  | psReset (sel : ChanSel) (seeded : Bool)
  | psSettime (sel : ChanSel)
  | psSettarget (sel : ChanSel)
  | psNext (ch : Nat)
  | psRead (ch : Nat)
  | psReadstage (ch stage : Nat)
  | efPrepare (channels : Nat) (variant : EfVariant)
  | efReset (sel : ChanSel) (seeded : Bool)
  | efSetattack (sel : ChanSel) (mode : TimeMode)
  | efSetrelease (sel : ChanSel) (mode : TimeMode)
  | efProcess (ch : Nat)
  | efRead (ch : Nat)
  | gcSetthresh
  | gcSetratio
  | gcSetknee
  | gcCompute
  | gcRead
  | gsPrepare (channels : Nat)
  | gsReset (sel : ChanSel) (seeded : Bool)
  | gsSetattack (sel : ChanSel)
  | gsSetrelease (sel : ChanSel)
  | gsProcess (ch : Nat)
  | gsRead (ch : Nat)
deriving DecidableEq, Repr

/-- The error codes a command can raise (R330). `NONE` is never raised: it is the 0 of `ERRCODE`. -/
inductive ErrCode where
  | illegalOpcode | reservedField | badSubcode | notPrepared | badCount | channelRange | sectionRange
  | badSampleRate | badFrequency | badQ | badGain
deriving DecidableEq, Repr

end Sys2Proof
end

