-- ==== Sys2Proof/WellFormed.lean ====
section
/-! DEFINITION. Which terms of `Instr` a command word can carry: every integer field fits its 8 bits
(spec/30_encoding.md R100), and 0xFF in a `ch/ALL` field is the broadcast, not a channel (R102). -/

namespace Sys2Proof

/-- An integer field fits the 8 bits of `CH` or `SEC` (R100, R101). -/
def fitsByte (n : Nat) : Bool := decide (n < 256)

/-- A `ch/ALL` field: a channel index is not 0xFF (R102, R104). -/
def ChanSel.fits : ChanSel → Bool
  | .one c => decide (c < 255)
  | .all => true

/-- The command has an encoding (R100 to R105). -/
def Instr.WellFormed : Instr → Bool
  | .nop => true
  | .errclr => true
  | .foPrepare n m => fitsByte n && fitsByte m
  | .foReset sel => sel.fits
  | .foSetcoef sel s => sel.fits && fitsByte s
  | .foProcess c => fitsByte c
  | .foDesign _ => true
  | .foReadcoef c s => fitsByte c && fitsByte s
  | .foReadstate c s => fitsByte c && fitsByte s
  | .bqPrepare n m => fitsByte n && fitsByte m
  | .bqReset sel => sel.fits
  | .bqSettype sel s _ => sel.fits && fitsByte s
  | .bqSetfreq sel s => sel.fits && fitsByte s
  | .bqSetq sel s => sel.fits && fitsByte s
  | .bqSetgain sel s => sel.fits && fitsByte s
  | .bqSetcoef sel s => sel.fits && fitsByte s
  | .bqProcess c => fitsByte c
  | .bqReadcoef c s => fitsByte c && fitsByte s
  | .bqReadstate c s => fitsByte c && fitsByte s
  | .bqReadparam c s => fitsByte c && fitsByte s
  | .psPrepare n m _ => fitsByte n && fitsByte m
  | .psReset sel _ => sel.fits
  | .psSettime sel => sel.fits
  | .psSettarget sel => sel.fits
  | .psNext c => fitsByte c
  | .psRead c => fitsByte c
  | .psReadstage c k => fitsByte c && fitsByte k
  | .efPrepare n _ => fitsByte n
  | .efReset sel _ => sel.fits
  | .efSetattack sel _ => sel.fits
  | .efSetrelease sel _ => sel.fits
  | .efProcess c => fitsByte c
  | .efRead c => fitsByte c
  | .gcSetthresh => true
  | .gcSetratio => true
  | .gcSetknee => true
  | .gcCompute => true
  | .gcRead => true
  | .gsPrepare n => fitsByte n
  | .gsReset sel _ => sel.fits
  | .gsSetattack sel => sel.fits
  | .gsSetrelease sel => sel.fits
  | .gsProcess c => fitsByte c
  | .gsRead c => fitsByte c

end Sys2Proof
end

