-- ==== Sys2Proof/Decode.lean ====
section
/-! DEFINITION. The decoder of spec/30_encoding.md R112, total on every 32-bit word, and the encoder, both written
from the format of R100, the field roles of R102 to R106 and the opcode map of R109. -/

namespace Sys2Proof

/-- Bits `lo + width - 1 : lo` of a word as an unsigned integer (R9). -/
def fieldAt (w : Word) (lo width : Nat) : Nat := w.toNat / 2 ^ lo % 2 ^ width

/-- `OPC`, bits 7:0 (R100). -/
def opcField (w : Word) : Nat := fieldAt w 0 8
/-- `CH`, bits 15:8 (R100). -/
def chField (w : Word) : Nat := fieldAt w 8 8
/-- `SEC`, bits 23:16 (R100). -/
def secField (w : Word) : Nat := fieldAt w 16 8
/-- `SUB`, bits 27:24 (R100). -/
def subField (w : Word) : Nat := fieldAt w 24 4
/-- `RSV`, bits 31:28 (R100). -/
def rsvField (w : Word) : Nat := fieldAt w 28 4

/-- `CH` of role `ch/ALL`: 0xFF is ALL (R102, R104). -/
def selOf (ch : Nat) : ChanSel := if ch = 0xFF then .all else .one ch

/-- The codes of `fotype` (R105). -/
def foTypeOf : Nat → Option FoType
  | 0 => some .lowpass
  | 1 => some .highpass
  | 2 => some .allpass
  | 3 => some .lowshelf
  | 4 => some .highshelf
  | _ => none

/-- The codes of `bqtype` (R105, R221). -/
def bqTypeOf : Nat → Option BqType
  | 0 => some .lowpass
  | 1 => some .highpass
  | 2 => some .bandpass
  | 3 => some .allpass
  | 4 => some .notch
  | 5 => some .peak
  | 6 => some .lowshelf
  | 7 => some .highshelf
  | _ => none

/-- The codes of `alg` (R105). -/
def psAlgOf : Nat → Option PsAlg
  | 0 => some .none
  | 1 => some .exp
  | 2 => some .linear
  | _ => none

/-- The codes of `variant` (R105). -/
def efVariantOf : Nat → Option EfVariant
  | 0 => some .peak
  | 1 => some .rms
  | _ => none

/-- The codes of `seed` (R105). -/
def seedOf : Nat → Option Bool
  | 0 => some false
  | 1 => some true
  | _ => none

/-- The codes of `tmode` (R105). -/
def timeModeOf : Nat → Option TimeMode
  | 0 => some .raw
  | 1 => some .perceptual
  | _ => none

/-- One row of the opcode map (R109): which fields have role `zero`, and the command that the fields `CH`, `SEC`,
`SUB` give (`none`: `SUB` is outside its role's set). -/
structure Row where
  chZero : Bool
  secZero : Bool
  subZero : Bool
  build : Nat → Nat → Nat → Option Instr

/-- The opcode map (R109); `none` for every unassigned opcode (R110). -/
def rowOf : Nat → Option Row
  | 0x00 => some ⟨true, true, true, fun _ _ _ => some .nop⟩
  | 0x01 => some ⟨true, true, true, fun _ _ _ => some .errclr⟩
  | 0x10 => some ⟨false, false, true, fun ch sec _ => some (.foPrepare ch sec)⟩
  | 0x11 => some ⟨false, true, true, fun ch _ _ => some (.foReset (selOf ch))⟩
  | 0x12 => some ⟨false, false, true, fun ch sec _ => some (.foSetcoef (selOf ch) sec)⟩
  | 0x13 => some ⟨false, true, true, fun ch _ _ => some (.foProcess ch)⟩
  | 0x14 => some ⟨true, true, false, fun _ _ sub => (foTypeOf sub).map .foDesign⟩
  | 0x15 => some ⟨false, false, true, fun ch sec _ => some (.foReadcoef ch sec)⟩
  | 0x16 => some ⟨false, false, true, fun ch sec _ => some (.foReadstate ch sec)⟩
  | 0x20 => some ⟨false, false, true, fun ch sec _ => some (.bqPrepare ch sec)⟩
  | 0x21 => some ⟨false, true, true, fun ch _ _ => some (.bqReset (selOf ch))⟩
  | 0x22 => some ⟨false, false, false, fun ch sec sub => (bqTypeOf sub).map (.bqSettype (selOf ch) sec)⟩
  | 0x23 => some ⟨false, false, true, fun ch sec _ => some (.bqSetfreq (selOf ch) sec)⟩
  | 0x24 => some ⟨false, false, true, fun ch sec _ => some (.bqSetq (selOf ch) sec)⟩
  | 0x25 => some ⟨false, false, true, fun ch sec _ => some (.bqSetgain (selOf ch) sec)⟩
  | 0x26 => some ⟨false, false, true, fun ch sec _ => some (.bqSetcoef (selOf ch) sec)⟩
  | 0x27 => some ⟨false, true, true, fun ch _ _ => some (.bqProcess ch)⟩
  | 0x28 => some ⟨false, false, true, fun ch sec _ => some (.bqReadcoef ch sec)⟩
  | 0x29 => some ⟨false, false, true, fun ch sec _ => some (.bqReadstate ch sec)⟩
  | 0x2A => some ⟨false, false, true, fun ch sec _ => some (.bqReadparam ch sec)⟩
  | 0x30 => some ⟨false, false, false, fun ch sec sub => (psAlgOf sub).map (.psPrepare ch sec)⟩
  | 0x31 => some ⟨false, true, false, fun ch _ sub => (seedOf sub).map (.psReset (selOf ch))⟩
  | 0x32 => some ⟨false, true, true, fun ch _ _ => some (.psSettime (selOf ch))⟩
  | 0x33 => some ⟨false, true, true, fun ch _ _ => some (.psSettarget (selOf ch))⟩
  | 0x34 => some ⟨false, true, true, fun ch _ _ => some (.psNext ch)⟩
  | 0x35 => some ⟨false, true, true, fun ch _ _ => some (.psRead ch)⟩
  | 0x36 => some ⟨false, false, true, fun ch sec _ => some (.psReadstage ch sec)⟩
  | 0x40 => some ⟨false, true, false, fun ch _ sub => (efVariantOf sub).map (.efPrepare ch)⟩
  | 0x41 => some ⟨false, true, false, fun ch _ sub => (seedOf sub).map (.efReset (selOf ch))⟩
  | 0x42 => some ⟨false, true, false, fun ch _ sub => (timeModeOf sub).map (.efSetattack (selOf ch))⟩
  | 0x43 => some ⟨false, true, false, fun ch _ sub => (timeModeOf sub).map (.efSetrelease (selOf ch))⟩
  | 0x44 => some ⟨false, true, true, fun ch _ _ => some (.efProcess ch)⟩
  | 0x45 => some ⟨false, true, true, fun ch _ _ => some (.efRead ch)⟩
  | 0x50 => some ⟨true, true, true, fun _ _ _ => some .gcSetthresh⟩
  | 0x51 => some ⟨true, true, true, fun _ _ _ => some .gcSetratio⟩
  | 0x52 => some ⟨true, true, true, fun _ _ _ => some .gcSetknee⟩
  | 0x53 => some ⟨true, true, true, fun _ _ _ => some .gcCompute⟩
  | 0x54 => some ⟨true, true, true, fun _ _ _ => some .gcRead⟩
  | 0x60 => some ⟨false, true, true, fun ch _ _ => some (.gsPrepare ch)⟩
  | 0x61 => some ⟨false, true, false, fun ch _ sub => (seedOf sub).map (.gsReset (selOf ch))⟩
  | 0x62 => some ⟨false, true, true, fun ch _ _ => some (.gsSetattack (selOf ch))⟩
  | 0x63 => some ⟨false, true, true, fun ch _ _ => some (.gsSetrelease (selOf ch))⟩
  | 0x64 => some ⟨false, true, true, fun ch _ _ => some (.gsProcess ch)⟩
  | 0x65 => some ⟨false, true, true, fun ch _ _ => some (.gsRead ch)⟩
  | _ => none

/-- A field of role `zero` is nonzero, or `RSV` is (R106). -/
def Row.reservedSet (r : Row) (w : Word) : Bool :=
  decide (rsvField w ≠ 0) || (r.chZero && decide (chField w ≠ 0)) || (r.secZero && decide (secField w ≠ 0))
    || (r.subZero && decide (subField w ≠ 0))

/-- R112: ILLEGAL_OPCODE, then RESERVED_FIELD, then BAD_SUBCODE, else the command. -/
def decode (w : Word) : Except ErrCode Instr :=
  match rowOf (opcField w) with
  | none => .error .illegalOpcode
  | some r =>
    if r.reservedSet w then .error .reservedField
    else
      match r.build (chField w) (secField w) (subField w) with
      | none => .error .badSubcode
      | some i => .ok i

/-- The instruction the decoder reads from the bits `w` of an instruction that the table gives `nbits` bits; the
bits above them are 0. A command is one 32-bit word (R100), which the host writes to `CMD` whole (R39). -/
def decodeTableWord (nbits w : Nat) : Option Instr :=
  match decode (BitVec.ofNat 32 (w % 2 ^ nbits)) with
  | .ok i => some i
  | .error _ => none

/-! ### The encoder -/

/-- R100: the word of the fields, with `RSV` = 0. -/
def packWord (opc ch sec sub : Nat) : Word :=
  BitVec.ofNat 32 (sub * 2 ^ 24 + sec * 2 ^ 16 + ch * 2 ^ 8 + opc)

/-- `CH` of a `ch/ALL` field (R104). -/
def selCode : ChanSel → Nat
  | .one c => c
  | .all => 0xFF

/-- R105. -/
def foTypeCode : FoType → Nat
  | .lowpass => 0
  | .highpass => 1
  | .allpass => 2
  | .lowshelf => 3
  | .highshelf => 4

/-- R105, R221. -/
def bqTypeCode : BqType → Nat
  | .lowpass => 0
  | .highpass => 1
  | .bandpass => 2
  | .allpass => 3
  | .notch => 4
  | .peak => 5
  | .lowshelf => 6
  | .highshelf => 7

/-- R105. -/
def psAlgCode : PsAlg → Nat
  | .none => 0
  | .exp => 1
  | .linear => 2

/-- R105. -/
def efVariantCode : EfVariant → Nat
  | .peak => 0
  | .rms => 1

/-- R105. -/
def seedCode : Bool → Nat
  | false => 0
  | true => 1

/-- R105. -/
def timeModeCode : TimeMode → Nat
  | .raw => 0
  | .perceptual => 1

/-- `OPC` of a command (R109). -/
def opcodeOf : Instr → Nat
  | .nop => 0x00
  | .errclr => 0x01
  | .foPrepare _ _ => 0x10
  | .foReset _ => 0x11
  | .foSetcoef _ _ => 0x12
  | .foProcess _ => 0x13
  | .foDesign _ => 0x14
  | .foReadcoef _ _ => 0x15
  | .foReadstate _ _ => 0x16
  | .bqPrepare _ _ => 0x20
  | .bqReset _ => 0x21
  | .bqSettype _ _ _ => 0x22
  | .bqSetfreq _ _ => 0x23
  | .bqSetq _ _ => 0x24
  | .bqSetgain _ _ => 0x25
  | .bqSetcoef _ _ => 0x26
  | .bqProcess _ => 0x27
  | .bqReadcoef _ _ => 0x28
  | .bqReadstate _ _ => 0x29
  | .bqReadparam _ _ => 0x2A
  | .psPrepare _ _ _ => 0x30
  | .psReset _ _ => 0x31
  | .psSettime _ => 0x32
  | .psSettarget _ => 0x33
  | .psNext _ => 0x34
  | .psRead _ => 0x35
  | .psReadstage _ _ => 0x36
  | .efPrepare _ _ => 0x40
  | .efReset _ _ => 0x41
  | .efSetattack _ _ => 0x42
  | .efSetrelease _ _ => 0x43
  | .efProcess _ => 0x44
  | .efRead _ => 0x45
  | .gcSetthresh => 0x50
  | .gcSetratio => 0x51
  | .gcSetknee => 0x52
  | .gcCompute => 0x53
  | .gcRead => 0x54
  | .gsPrepare _ => 0x60
  | .gsReset _ _ => 0x61
  | .gsSetattack _ => 0x62
  | .gsSetrelease _ => 0x63
  | .gsProcess _ => 0x64
  | .gsRead _ => 0x65

/-- `CH` of a command (R102, R109). -/
def chOf : Instr → Nat
  | .nop | .errclr | .foDesign _ | .gcSetthresh | .gcSetratio | .gcSetknee | .gcCompute | .gcRead => 0
  | .foPrepare n _ | .bqPrepare n _ | .psPrepare n _ _ | .efPrepare n _ | .gsPrepare n => n
  | .foProcess c | .bqProcess c | .psNext c | .psRead c | .efProcess c | .efRead c | .gsProcess c | .gsRead c => c
  | .foReadcoef c _ | .foReadstate c _ | .bqReadcoef c _ | .bqReadstate c _ | .bqReadparam c _ | .psReadstage c _ => c
  | .foReset l | .bqReset l | .psSettime l | .psSettarget l | .gsSetattack l | .gsSetrelease l => selCode l
  | .psReset l _ | .efReset l _ | .gsReset l _ => selCode l
  | .efSetattack l _ | .efSetrelease l _ => selCode l
  | .foSetcoef l _ | .bqSetfreq l _ | .bqSetq l _ | .bqSetgain l _ | .bqSetcoef l _ => selCode l
  | .bqSettype l _ _ => selCode l

/-- `SEC` of a command (R103, R109). -/
def secOf : Instr → Nat
  | .foPrepare _ m | .bqPrepare _ m | .psPrepare _ m _ => m
  | .foSetcoef _ s | .bqSetfreq _ s | .bqSetq _ s | .bqSetgain _ s | .bqSetcoef _ s => s
  | .foReadcoef _ s | .foReadstate _ s | .bqReadcoef _ s | .bqReadstate _ s | .bqReadparam _ s => s
  | .bqSettype _ s _ => s
  | .psReadstage _ k => k
  | .nop | .errclr | .foReset _ | .foProcess _ | .foDesign _ | .bqReset _ | .bqProcess _ | .psReset _ _ | .psSettime _
  | .psSettarget _ | .psNext _ | .psRead _ | .efPrepare _ _ | .efReset _ _ | .efSetattack _ _ | .efSetrelease _ _
  | .efProcess _ | .efRead _ | .gcSetthresh | .gcSetratio | .gcSetknee | .gcCompute | .gcRead | .gsPrepare _
  | .gsReset _ _ | .gsSetattack _ | .gsSetrelease _ | .gsProcess _ | .gsRead _ => 0

/-- `SUB` of a command (R105, R109). -/
def subOf : Instr → Nat
  | .foDesign t => foTypeCode t
  | .bqSettype _ _ t => bqTypeCode t
  | .psPrepare _ _ a => psAlgCode a
  | .efPrepare _ v => efVariantCode v
  | .psReset _ b | .efReset _ b | .gsReset _ b => seedCode b
  | .efSetattack _ m | .efSetrelease _ m => timeModeCode m
  | .nop | .errclr | .foPrepare _ _ | .foReset _ | .foSetcoef _ _ | .foProcess _ | .foReadcoef _ _ | .foReadstate _ _
  | .bqPrepare _ _ | .bqReset _ | .bqSetfreq _ _ | .bqSetq _ _ | .bqSetgain _ _ | .bqSetcoef _ _ | .bqProcess _
  | .bqReadcoef _ _ | .bqReadstate _ _ | .bqReadparam _ _ | .psSettime _ | .psSettarget _ | .psNext _ | .psRead _
  | .psReadstage _ _ | .efProcess _ | .efRead _ | .gcSetthresh | .gcSetratio | .gcSetknee | .gcCompute | .gcRead
  | .gsPrepare _ | .gsSetattack _ | .gsSetrelease _ | .gsProcess _ | .gsRead _ => 0

/-- The command word of a well-formed command (R100, R109). -/
def encode (i : Instr) : Word := packWord (opcodeOf i) (chOf i) (secOf i) (subOf i)

end Sys2Proof
end

