-- ==== Sys2Proof/Config.lean ====
section
/-! DEFINITION. The implementation parameters of JDSP-CORE (spec/00_scope.md R7, R8, R13; spec/20_memory.md R84)
and the values the spec leaves open, as constants without a body. -/

namespace Sys2Proof

/-- `FMT`, the sample format (R7, R8). -/
inductive Format where
  | binary32
  | binary64
deriving DecidableEq, Repr, Inhabited

/-- The parameters that are numbers (R7, R84). They are fixed for an instance; the machine's state carries them
(field `params`, log 1), so that a statement over all states is a statement over all parameters. -/
structure Params where
  /-- `FMT` (R7). -/
  fmt : Format
  /-- `MAX_CHANNELS`, 1..255 (R7). -/
  maxChannels : Nat
  /-- `MAX_SECTIONS`, 1..255 (R7). -/
  maxSections : Nat
  /-- `PERCEPTUAL_SCALE`, a positive finite sample (R7, R262). -/
  perceptualScale : Sample
  /-- `BASE`, the window's bus address, a multiple of 256 (R84). -/
  base : Nat
deriving DecidableEq, Repr

/-- `CORE_ID`, the constant of the `ID` register (R7, R32). -/
def Config.coreId : Word := 0x4A445350

/-- `PS_MAX_ORDER` (R7). -/
def Config.psMaxOrder : Nat := 8

/-- `LINEAR_MAX_SAMPLES` = 2^32 - 1 (R7). -/
def Config.linearMaxSamples : Nat := 4294967295

/-- DESIGN CHOICE (log 1): the parameters of `State.reset`, the ones the spec's vectors and defaults use
(spec/95_test_vectors.md section 0); every other choice is `State.resetWith`. -/
def Config.defaultParams : Params where
  fmt := .binary64
  maxChannels := 4
  maxSections := 4
  perceptualScale := 0x3FF0000000000000
  base := 0

/-- The bits of a NaN result that the spec leaves to a draw (R7, R12; log 2). The argument names the draw: the
command's own number and the place of the operation in it, so that two draws never share an argument. No body:
nothing is known of it. -/
opaque Config.nanDraw : List Nat → BitVec 64

/-- The six function parameters of R7 and R13, each a function of its operands alone, for either format. -/
structure Config.Transcendentals where
  fexp : Format → Sample → Sample
  fsin : Format → Sample → Sample
  fcos : Format → Sample → Sample
  ftan : Format → Sample → Sample
  flog10 : Format → Sample → Sample
  fpow : Format → Sample → Sample → Sample

/-- The functions this machine has (R13, log 3): some functions that satisfy `laws`. Machine/Transcendental.lean
gives R13's named properties as `laws`, and shows that some functions satisfy them (the argument in brackets). No
body: nothing but `laws` can be proved of them. -/
opaque Config.transcendentals (laws : Config.Transcendentals → Prop)
    [Inhabited {T : Config.Transcendentals // laws T}] : {T : Config.Transcendentals // laws T}

end Sys2Proof
end

