-- ==== Sys2Proof/Machine/Float.lean ====
section
/-! DEFINITION. IEEE 754 arithmetic of JDSP-CORE in either sample format, computed exactly on integers and rounded
once to nearest, ties to even (spec/00_scope.md R8, R11, R12, R14).

A finite value is a whole number of the format's smallest subnormal (its `ulps`), so that every operation is one exact
integer or rational operation followed by `roundMag`. Only the low `W` bits of a sample are read (R35). The operations
are irreducible, so that no elaboration evaluates them by accident; the kernel evaluates them as ever. -/

namespace Sys2Proof

/-! ### The formats (IEEE 754 binary32 and binary64; R7, R8) -/

/-- Width of the fraction field. -/
def Format.fracBits : Format → Nat
  | .binary32 => 23
  | .binary64 => 52

/-- Width of the exponent field. -/
def Format.expBits : Format → Nat
  | .binary32 => 8
  | .binary64 => 11

/-- Exponent bias. -/
def Format.bias : Format → Nat
  | .binary32 => 127
  | .binary64 => 1023

/-- `W - 1`, the place of the sign bit (R8). -/
def Format.signPos : Format → Nat
  | .binary32 => 31
  | .binary64 => 63

/-- The value 1 is `2 ^ unitExp` smallest subnormals. -/
def Format.unitExp (f : Format) : Nat := f.bias + f.fracBits - 1

/-- The encoding of infinity, without its sign: an all-ones exponent and a zero fraction. -/
def Format.infMag (f : Format) : Nat := (2 ^ f.expBits - 1) * 2 ^ f.fracBits

namespace Machine

/-! ### Encodings -/

/-- The bits below the sign bit. -/
def magOf (f : Format) (x : Sample) : Nat := x.toNat % 2 ^ f.signPos

/-- The sign bit. -/
def signOf (f : Format) (x : Sample) : Bool := x.toNat.testBit f.signPos

/-- The sample with this sign bit and these bits below it, zero-extended to 64 bits. -/
@[irreducible] def mkSample (f : Format) (sign : Bool) (mag : Nat) : Sample :=
  BitVec.ofNat 64 ((if sign then 2 ^ f.signPos else 0) + mag)

/-- `F(w)` (R35): the value whose encoding is `w[W-1:0]`. -/
@[irreducible] def canon (f : Format) (w : Sample) : Sample := mkSample f (signOf f w) (magOf f w)

/-- NaN: an all-ones exponent and a nonzero fraction. -/
def isNaN (f : Format) (x : Sample) : Bool := decide (f.infMag < magOf f x)

/-- Plus or minus infinity. -/
def isInf (f : Format) (x : Sample) : Bool := decide (magOf f x = f.infMag)

/-- Neither NaN nor infinite. -/
def isFinite (f : Format) (x : Sample) : Bool := decide (magOf f x < f.infMag)

/-- Plus or minus zero. -/
def isZero (f : Format) (x : Sample) : Bool := decide (magOf f x = 0)

/-- A finite value's magnitude as a count of smallest subnormals: the fraction when the exponent field is 0, else
the fraction with its leading 1, shifted by the exponent field less 1. -/
def ulps (f : Format) (x : Sample) : Nat :=
  let e := magOf f x / 2 ^ f.fracBits
  let fr := magOf f x % 2 ^ f.fracBits
  if e = 0 then fr else (2 ^ f.fracBits + fr) * 2 ^ (e - 1)

/-- `ulps` with the value's sign. -/
def signedUlps (f : Format) (x : Sample) : Int :=
  if signOf f x then -(ulps f x : Int) else (ulps f x : Int)

/-- Plus or minus zero. -/
@[irreducible] def zeroOf (f : Format) (sign : Bool) : Sample := mkSample f sign 0

/-- Plus or minus infinity. -/
@[irreducible] def infOf (f : Format) (sign : Bool) : Sample := mkSample f sign f.infMag

/-! ### Where a NaN is drawn (R12; log 2) -/

/-- The place an operation is evaluated at: the format, and the key of the NaN payload it would draw. -/
structure Fp where
  fmt : Format
  key : List Nat
deriving DecidableEq, Repr

/-- The `k`-th operation or sub-expression of a place. Distinct operations of a command get distinct keys. -/
def Fp.site (e : Fp) (k : Nat) : Fp := { e with key := k :: e.key }

/-- R12: a quiet NaN whose payload (and sign) is a draw. The quiet bit is the fraction's highest. -/
@[irreducible] def quietNaN (e : Fp) : Sample :=
  let d := Config.nanDraw e.key
  mkSample e.fmt (d.getLsbD e.fmt.signPos)
    (e.fmt.infMag + 2 ^ (e.fmt.fracBits - 1) + d.toNat % 2 ^ (e.fmt.fracBits - 1))

/-! ### Rounding (R11) -/

/-- `num / den` to the nearest integer, ties to even. -/
@[irreducible] def rneDiv (num den : Nat) : Nat :=
  let q := num / den
  let r := num % den
  if den < 2 * r ∨ (2 * r = den ∧ q % 2 = 1) then q + 1 else q

/-- The encoding (without sign) nearest to `num / den` smallest subnormals, ties to even: the significand is
rounded at the fraction's width, and a value past the largest finite one becomes infinity. The exponent field and the
significand share one number, so a carry out of the significand raises the exponent by itself. -/
@[irreducible] def roundMag (f : Format) (num den : Nat) : Nat :=
  let k := (num / den).log2 - f.fracBits
  min (k * 2 ^ f.fracBits + rneDiv num (den * 2 ^ k)) f.infMag

/-! ### Arithmetic (R11, R12) -/

/-- Unary minus: flips the sign bit, exactly, even of a NaN (R11). -/
@[irreducible] def fneg (f : Format) (x : Sample) : Sample := mkSample f (!signOf f x) (magOf f x)

/-- Absolute value: clears the sign bit, even of a NaN (R11, R264). -/
@[irreducible] def fabs (f : Format) (x : Sample) : Sample := mkSample f false (magOf f x)

/-- Addition. An exact zero sum is +0 unless both operands are negative (log 10). -/
@[irreducible] def fadd (e : Fp) (a b : Sample) : Sample :=
  let f := e.fmt
  if isNaN f a || isNaN f b then quietNaN e
  else if isInf f a then
    if isInf f b && (signOf f a != signOf f b) then quietNaN e else infOf f (signOf f a)
  else if isInf f b then infOf f (signOf f b)
  else
    let z := signedUlps f a + signedUlps f b
    if z = 0 then zeroOf f (signOf f a && signOf f b)
    else mkSample f (decide (z < 0)) (roundMag f z.natAbs 1)

/-- Subtraction: addition of the negated operand. -/
@[irreducible] def fsub (e : Fp) (a b : Sample) : Sample :=
  fadd e a (fneg e.fmt b)

/-- Multiplication. -/
@[irreducible] def fmul (e : Fp) (a b : Sample) : Sample :=
  let f := e.fmt
  let s := signOf f a != signOf f b
  if isNaN f a || isNaN f b then quietNaN e
  else if isInf f a || isInf f b then
    if isZero f a || isZero f b then quietNaN e else infOf f s
  else mkSample f s (roundMag f (ulps f a * ulps f b) (2 ^ f.unitExp))

/-- Division. A finite nonzero value by zero is an infinity (log 10). -/
@[irreducible] def fdiv (e : Fp) (a b : Sample) : Sample :=
  let f := e.fmt
  let s := signOf f a != signOf f b
  if isNaN f a || isNaN f b then quietNaN e
  else if isInf f a then
    if isInf f b then quietNaN e else infOf f s
  else if isInf f b then zeroOf f s
  else if isZero f b then
    if isZero f a then quietNaN e else infOf f s
  else mkSample f s (roundMag f (ulps f a * 2 ^ f.unitExp) (ulps f b))

/-- The largest `r' ≥ r` with `r' * r' ≤ n` that differs from `r` in its `k` low bits. -/
def isqrtGo (n : Nat) : Nat → Nat → Nat
  | 0, r => r
  | k + 1, r => if (r + 2 ^ k) * (r + 2 ^ k) ≤ n then isqrtGo n k (r + 2 ^ k) else isqrtGo n k r

/-- The integer square root, rounded down. -/
@[irreducible] def isqrt (n : Nat) : Nat := isqrtGo n (n.log2 / 2 + 1) 0

/-- `fsqrt`, correctly rounded (R11): an inexact root lies strictly between two integers, and its half bit stands
for that. -/
@[irreducible] def fsqrt (e : Fp) (x : Sample) : Sample :=
  let f := e.fmt
  if isNaN f x then quietNaN e
  else if isZero f x then zeroOf f (signOf f x)
  else if signOf f x then quietNaN e
  else if isInf f x then infOf f false
  else
    let n := ulps f x * 2 ^ f.unitExp
    let r := isqrt n
    mkSample f false (roundMag f (2 * r + (if r * r = n then 0 else 1)) 2)

/-! ### Comparisons (R11): quiet, false on a NaN, and +0 equals -0 -/

/-- The order of the values that are not NaN. -/
def orderKey (f : Format) (x : Sample) : Int :=
  if signOf f x then -(magOf f x : Int) else (magOf f x : Int)

/-- `a < b`. -/
@[irreducible] def flt (f : Format) (a b : Sample) : Bool :=
  !isNaN f a && !isNaN f b && decide (orderKey f a < orderKey f b)

/-- `a ≤ b`. -/
@[irreducible] def fle (f : Format) (a b : Sample) : Bool :=
  !isNaN f a && !isNaN f b && decide (orderKey f a ≤ orderKey f b)

/-- `a == b`. -/
@[irreducible] def feq (f : Format) (a b : Sample) : Bool :=
  !isNaN f a && !isNaN f b && decide (orderKey f a = orderKey f b)

/-! ### Integers and constants -/

/-- `toFloat(n)`: an integer rounded to nearest, ties to even; a literal is that number exactly (R11). -/
@[irreducible] def ofInteger (f : Format) (n : Nat) : Sample := mkSample f false (roundMag f (n * 2 ^ f.unitExp) 1)

/-- The literal `n / d` (R11). -/
@[irreducible] def ofRatio (f : Format) (n d : Nat) : Sample := mkSample f false (roundMag f (n * 2 ^ f.unitExp) d)

/-- `roundInt(x)` of a non-negative value: the nearest integer, ties to even; `none` is +∞ (R11, R160; log 11 says what
a NaN, which no run brings here, gives). -/
@[irreducible] def roundInt (f : Format) (x : Sample) : Option Nat :=
  if isFinite f x then some (rneDiv (ulps f x) (2 ^ f.unitExp)) else none

/-- `PI`, the value nearest to π (R14). -/
def piOf : Format → Sample
  | .binary32 => 0x40490FDB
  | .binary64 => 0x400921FB54442D18

/-- `TWO_PI = 2 ⊗ PI`, exact (R14). -/
def twoPi (e : Fp) : Sample := fmul e (ofInteger e.fmt 2) (piOf e.fmt)

/-- `QDEF = fsqrt(0.5)` by its encodings (R42). -/
def qDef : Format → Sample
  | .binary32 => 0x3F3504F3
  | .binary64 => 0x3FE6A09E667F3BCD

/-! ### Reading back what `mkSample` made -/

theorem infMag_lt (f : Format) : f.infMag < 2 ^ f.signPos := by cases f <;> decide

theorem mkSample_toNat (f : Format) (s : Bool) (m : Nat) (h : m < 2 ^ f.signPos) :
    (mkSample f s m).toNat = (if s then 2 ^ f.signPos else 0) + m := by
  cases f <;> cases s <;> simp [mkSample, Format.signPos] at * <;> omega

@[simp] theorem magOf_mkSample (f : Format) (s : Bool) (m : Nat) (h : m < 2 ^ f.signPos) :
    magOf f (mkSample f s m) = m := by
  rw [magOf, mkSample_toNat f s m h]
  cases s
  · simpa using Nat.mod_eq_of_lt h
  · simpa using Nat.mod_eq_of_lt h

@[simp] theorem signOf_mkSample (f : Format) (s : Bool) (m : Nat) (h : m < 2 ^ f.signPos) :
    signOf f (mkSample f s m) = s := by
  rw [signOf, mkSample_toNat f s m h]
  cases s
  · simpa using Nat.testBit_lt_two_pow h
  · simpa using Nat.testBit_two_pow_add_eq m f.signPos ▸ (by simp [Nat.testBit_lt_two_pow h])

end Machine

end Sys2Proof
end

