-- ==== Sys2Proof/Machine/State.lean ====
section
/-! DEFINITION. The state of JDSP-CORE: the interface registers (spec/10_state.md R30 to R40), the unit state (R41 to
R46), the host accesses still to come and the values read (spec/70_reset_and_hazards.md R377), as plain data; the
reasons a step can stop; the state after hardware reset (R360). -/

namespace Sys2Proof.Machine

/-! ### Registers -/

/-- Five 64-bit registers: `OP0`..`OP4` or `RES0`..`RES4` (R30). -/
structure Bank where
  w0 : Sample
  w1 : Sample
  w2 : Sample
  w3 : Sample
  w4 : Sample
deriving DecidableEq, Repr, Inhabited

/-! ### Unit state. An element exists for a channel below `nch`, a section below `nsec`, a stage below `order` (R47):
the lists have exactly those lengths (log 7). -/

/-- One first-order section (R41): coefficients, prior input, prior output. -/
structure FoSection where
  b0 : Sample
  b1 : Sample
  a1 : Sample
  xp : Sample
  yp : Sample
deriving DecidableEq, Repr, Inhabited

/-- FO (R41). `sections[c][s]`. -/
structure FoUnit where
  prepared : Bool
  nch : Nat
  nsec : Nat
  sections : List (List FoSection)
deriving DecidableEq, Repr

/-- One biquad section (R42): parameters, coefficients, two prior inputs, two prior outputs. -/
structure BqSection where
  type : BqType
  freq : Sample
  q : Sample
  gdb : Sample
  b0 : Sample
  b1 : Sample
  b2 : Sample
  a1 : Sample
  a2 : Sample
  x1 : Sample
  x2 : Sample
  y1 : Sample
  y2 : Sample
deriving DecidableEq, Repr, Inhabited

/-- BQ (R42). `sections[c][s]`. -/
structure BqUnit where
  prepared : Bool
  nch : Nat
  nsec : Nat
  sections : List (List BqSection)
deriving DecidableEq, Repr

/-- One smoother channel (R43). -/
structure PsChannel where
  current : Sample
  target : Sample
  stage : List Sample
  coef : Sample
  dur : Nat
  remaining : Nat
  inc : Sample
deriving DecidableEq, Repr, Inhabited

/-- PS (R43). -/
structure PsUnit where
  prepared : Bool
  nch : Nat
  alg : PsAlg
  order : Nat
  fs : Sample
  chans : List PsChannel
deriving DecidableEq, Repr

/-- One envelope follower channel (R44). -/
structure EfChannel where
  env : Sample
  att : Sample
  rel : Sample
deriving DecidableEq, Repr, Inhabited

/-- EF (R44). -/
structure EfUnit where
  prepared : Bool
  nch : Nat
  variant : EfVariant
  fs : Sample
  chans : List EfChannel
deriving DecidableEq, Repr

/-- GC (R45). -/
structure GcUnit where
  thr : Sample
  ratio : Sample
  knee : Sample
deriving DecidableEq, Repr

/-- One gain smoother channel (R46). -/
structure GsChannel where
  g : Sample
  att : Sample
  rel : Sample
deriving DecidableEq, Repr, Inhabited

/-- GS (R46). -/
structure GsUnit where
  prepared : Bool
  nch : Nat
  fs : Sample
  chans : List GsChannel
deriving DecidableEq, Repr

/-! ### The port -/

/-- What reaches the core from outside, one after the other (R87, R88, R360): a host's read or write of some width in
bytes at a bus address, or the platform's reset (log 6). -/
inductive HostEvent where
  | read (addr bytes : Nat)
  | write (addr bytes : Nat) (value : Word)
  | reset
deriving DecidableEq, Repr

/-! ### The machine -/

/-- The whole state. `params` never changes; `port` is the rest of the host's program (R31, R377; log 4), `readLog`
what the host has read (R377; log 5); `draws` is the model's own counter of NaN draws (R12; log 2). -/
structure State where
  params : Params
  /-- `STATUS.ERR` (R34). -/
  err : Bool
  /-- `CTRL.ERRIE` (R36). -/
  errie : Bool
  /-- `ERRCODE` (R38). -/
  errcode : Word
  /-- `ERRCMD` (R38). -/
  errcmd : Word
  /-- `CMD` (R39). -/
  cmd : Word
  /-- `CMDCNT` (R40). -/
  cmdcnt : Word
  /-- `OP0`..`OP4` (R30, R35). -/
  op : Bank
  /-- `RES0`..`RES4` (R30, R35). -/
  res : Bank
  fo : FoUnit
  bq : BqUnit
  ps : PsUnit
  ef : EfUnit
  gc : GcUnit
  gs : GsUnit
  port : List HostEvent
  readLog : List Word
  draws : Nat
deriving DecidableEq, Repr

/-- Why a step stops with a fault. -/
inductive Fault where
  /-- Raised by a host access that is not 32 bits wide or not aligned (R83): the core answers with a bus error, the
  state does not change, and the run is not modelled further. Safe: the spec itself ends the run. -/
  | busError
  /-- Raised by a host access to an address outside the 256-byte window (R84): it does not reach the core, and the
  spec fixes nothing there (log 9). Safe: nothing is claimed of such a run. -/
  | outsideWindow
deriving DecidableEq, Repr

/-- Why a step is refused. -/
inductive Refusal where
  /-- Raised only by an arm of `exec` that has no meaning yet (none is left). Safe. -/
  | notModelled (mnemonic : String)
deriving DecidableEq, Repr

/-- The three outcomes of a step of this machine. -/
abbrev Result := Host.Outcome State Fault Refusal

/-- All five registers 0 (R360). -/
def Bank.zero : Bank := ⟨0, 0, 0, 0, 0⟩

/-- R360: the state after hardware reset of an instance with parameters `p`: every register 0, every unit unprepared
with no element in existence (R47), the gain computer at threshold +0, ratio 1, knee +0, no error, interrupt masked;
nothing waits at the port and nothing has been read. -/
def State.resetWith (p : Params) : State where
  params := p
  err := false
  errie := false
  errcode := 0
  errcmd := 0
  cmd := 0
  cmdcnt := 0
  op := Bank.zero
  res := Bank.zero
  fo := { prepared := false, nch := 0, nsec := 0, sections := [] }
  bq := { prepared := false, nch := 0, nsec := 0, sections := [] }
  ps := { prepared := false, nch := 0, alg := .none, order := 0, fs := zeroOf p.fmt false, chans := [] }
  ef := { prepared := false, nch := 0, variant := .peak, fs := zeroOf p.fmt false, chans := [] }
  gc := { thr := zeroOf p.fmt false, ratio := ofInteger p.fmt 1, knee := zeroOf p.fmt false }
  gs := { prepared := false, nch := 0, fs := zeroOf p.fmt false, chans := [] }
  port := []
  readLog := []
  draws := 0

/-- R360 for the parameters of log 1. -/
def State.reset : State := State.resetWith Config.defaultParams

end Sys2Proof.Machine
end

