-- ==== Sys2Proof/Machine/Flags.lean ====
section
/-! DEFINITION. The status and configuration words (spec/10_state.md R33, R34, R36) and the interrupt output
(spec/60_exceptions.md R336). The core has no condition codes (R49). -/

namespace Sys2Proof.Machine

/-- R336: `IRQ = STATUS.ERR AND CTRL.ERRIE`, a level. -/
def irq (s : State) : Bool := s.err && s.errie

/-- A one-bit field at bit `k` of a register (R9). -/
def bitAt (b : Bool) (k : Nat) : Nat := if b then 2 ^ k else 0

/-- The `STATUS` word (R34). -/
def statusWord (s : State) : Word :=
  BitVec.ofNat 32 (bitAt s.err 0 + bitAt s.fo.prepared 1 + bitAt s.bq.prepared 2 + bitAt s.ps.prepared 3
    + bitAt s.ef.prepared 4 + bitAt s.gs.prepared 5 + bitAt (irq s) 6)

/-- `FMT64` (R33). -/
def isBinary64 : Format → Bool
  | .binary32 => false
  | .binary64 => true

/-- The `CONFIG` word (R33). -/
def configWord (p : Params) : Word :=
  BitVec.ofNat 32 (p.maxChannels + p.maxSections * 2 ^ 8 + bitAt (isBinary64 p.fmt) 16 + Config.psMaxOrder * 2 ^ 17)

/-- The `CTRL` word (R36). -/
def ctrlWord (s : State) : Word := BitVec.ofNat 32 (bitAt s.errie 0)

end Sys2Proof.Machine
end

