-- ==== Sys2Proof/Machine/Operands.lean ====
section
/-! DEFINITION. Operand and result registers (spec/10_state.md R30, R35; spec/30_encoding.md R101; spec/40_common.md
R138), and the context an arithmetic command evaluates in. -/

namespace Sys2Proof.Machine

/-- Register `k` of five. -/
def Bank.get (b : Bank) : Fin 5 → Sample
  | 0 => b.w0
  | 1 => b.w1
  | 2 => b.w2
  | 3 => b.w3
  | 4 => b.w4

/-- Register `k` of five becomes `v`. -/
def Bank.set (b : Bank) (v : Sample) : Fin 5 → Bank
  | 0 => { b with w0 := v }
  | 1 => { b with w1 := v }
  | 2 => { b with w2 := v }
  | 3 => { b with w3 := v }
  | 4 => { b with w4 := v }

/-- The `_LO` half, bits 31:0 (R82). -/
def loHalf (x : Sample) : Word := x.extractLsb' 0 32

/-- The `_HI` half, bits 63:32 (R82). -/
def hiHalf (x : Sample) : Word := x.extractLsb' 32 32

/-- A 64-bit register from its halves (R82). -/
def joinHalves (hi lo : Word) : Sample := hi ++ lo

/-- `F(OP[k])` (R10, R35): the operand register read as a sample. -/
def State.operand (s : State) (k : Fin 5) : Sample := canon s.params.fmt (s.op.get k)

/-- R105, R361: the value of a RESET: a seeded reset reads `OP0`, an unseeded one takes +0. -/
def seedValue (seeded : Bool) (s : State) : Sample :=
  if seeded then s.operand 0 else zeroOf s.params.fmt false

/-- `RES[k] <- v` for a sample `v` (R35): `enc(v)` is its zero-extended encoding. -/
def State.setRes (s : State) (k : Fin 5) (v : Sample) : State := { s with res := s.res.set v k }

/-- `RES[k] <- n` for an integer (R35): `zext_64(n)`. -/
def State.setResInt (s : State) (k : Fin 5) (n : Nat) : State := s.setRes k (BitVec.ofNat 64 n)

/-- Where the command that is running evaluates its arithmetic: in the format of the instance, drawing NaN payloads
under the command's own number (R12; log 2). -/
def State.fp (s : State) : Fp := { fmt := s.params.fmt, key := [s.draws] }

/-- The next command draws under another number (R12; log 2). -/
def State.drawn (s : State) : State := { s with draws := s.draws + 1 }

end Sys2Proof.Machine
end

