-- ==== Sys2Proof/Machine/Ops.lean ====
section
/-! DEFINITION. The operations every command shares: the register bus (spec/20_memory.md R80 to R87), raising an
error and returning from one (spec/60_exceptions.md R330, R332, R335), the checks (spec/40_common.md R131 to R133;
R333), broadcast (spec/30_encoding.md R104), and hardware reset (R360). -/

namespace Sys2Proof.Machine

/-! ### The register bus -/

/-- R83, R84: the window offset an access reaches. Only 32-bit accesses at multiples of 4 are admitted. -/
def busOffset (p : Params) (addr bytes : Nat) : Except Fault Nat :=
  if addr < p.base ∨ p.base + 256 ≤ addr then .error .outsideWindow
  else if bytes ≠ 4 ∨ (addr - p.base) % 4 ≠ 0 then .error .busError
  else .ok (addr - p.base)

/-- R30, R87: the 32-bit value of the register at an offset; 0 for a reserved offset (R80). -/
def readReg (s : State) : Nat → Word
  | 0x00 => Config.coreId
  | 0x04 => configWord s.params
  | 0x08 => statusWord s
  | 0x0C => ctrlWord s
  | 0x10 => s.errcode
  | 0x14 => s.errcmd
  | 0x18 => s.cmd
  | 0x1C => s.cmdcnt
  | 0x20 => loHalf s.op.w0
  | 0x24 => hiHalf s.op.w0
  | 0x28 => loHalf s.op.w1
  | 0x2C => hiHalf s.op.w1
  | 0x30 => loHalf s.op.w2
  | 0x34 => hiHalf s.op.w2
  | 0x38 => loHalf s.op.w3
  | 0x3C => hiHalf s.op.w3
  | 0x40 => loHalf s.op.w4
  | 0x44 => hiHalf s.op.w4
  | 0x60 => loHalf s.res.w0
  | 0x64 => hiHalf s.res.w0
  | 0x68 => loHalf s.res.w1
  | 0x6C => hiHalf s.res.w1
  | 0x70 => loHalf s.res.w2
  | 0x74 => hiHalf s.res.w2
  | 0x78 => loHalf s.res.w3
  | 0x7C => hiHalf s.res.w3
  | 0x80 => loHalf s.res.w4
  | 0x84 => hiHalf s.res.w4
  | _ => 0

/-- R82: byte lane `o + i` of the register at offset `o` carries its bits `8i+7 : 8i` (little-endian). -/
def byteLane (s : State) (a : Nat) : BitVec 8 := (readReg s (a - a % 4)).extractLsb' (8 * (a % 4)) 8

/-- R87: `OP[k][31:0] <- v`. -/
def State.setOpLo (s : State) (k : Fin 5) (v : Word) : State :=
  { s with op := s.op.set (joinHalves (hiHalf (s.op.get k)) v) k }

/-- R87: `OP[k][63:32] <- v`. -/
def State.setOpHi (s : State) (k : Fin 5) (v : Word) : State :=
  { s with op := s.op.set (joinHalves v (loHalf (s.op.get k))) k }

/-- R81, R87: what a write to a register other than `CMD` stores; nothing at a read-only or reserved offset. -/
def writeReg (s : State) (v : Word) : Nat → State
  | 0x0C => { s with errie := v.getLsbD 0 }
  | 0x20 => s.setOpLo 0 v
  | 0x24 => s.setOpHi 0 v
  | 0x28 => s.setOpLo 1 v
  | 0x2C => s.setOpHi 1 v
  | 0x30 => s.setOpLo 2 v
  | 0x34 => s.setOpHi 2 v
  | 0x38 => s.setOpLo 3 v
  | 0x3C => s.setOpHi 3 v
  | 0x40 => s.setOpLo 4 v
  | 0x44 => s.setOpHi 4 v
  | _ => s

/-- The offset of `CMD` (R30). -/
def cmdOffset : Nat := 0x18

/-- R39, R40, R87: a write to `CMD` stores the word and counts it, before the command executes. -/
def acceptCommand (w : Word) (s : State) : State := { s with cmd := w, cmdcnt := s.cmdcnt + 1 }

/-- R360: the platform's hardware reset. What the host still has to do, what it has read and the model's draw counter
are not the core's (log 5, log 6). -/
def hardReset (s : State) : State :=
  { State.resetWith s.params with port := s.port, readLog := s.readLog, draws := s.draws }

/-! ### Errors -/

/-- The codes of R330. -/
def errNumber : ErrCode → Word
  | .illegalOpcode => 0x01
  | .reservedField => 0x02
  | .badSubcode => 0x03
  | .notPrepared => 0x04
  | .badCount => 0x05
  | .channelRange => 0x06
  | .sectionRange => 0x07
  | .badSampleRate => 0x08
  | .badFrequency => 0x09
  | .badQ => 0x0A
  | .badGain => 0x0B

/-- R332, `ErrorProc(e, w)`: the first error is recorded; a later one leaves the record (R335). Nothing else changes.
This is the core's exception entry: no vector, no saved context, no mode. -/
def errorProc (e : ErrCode) (w : Word) (s : State) : State :=
  if s.err then s else { s with err := true, errcode := errNumber e, errcmd := w }

/-- R136, R335: the return from an error. -/
def errClear (s : State) : State := { s with err := false, errcode := 0, errcmd := 0 }

/-- R130: a command that fails a check runs the error procedure for its word, which `CMD` holds (R39; log 12), and
changes nothing else; one that passes has its effect. -/
def conclude (s : State) : Except ErrCode State → Result
  | .ok t => .next t
  | .error e => .next (errorProc e s.cmd s)

/-! ### Checks -/

/-- R131: the prepared gate. -/
def needPrepared (prepared : Bool) : Except ErrCode Unit :=
  if prepared then .ok () else .error .notPrepared

/-- R132, `CheckCount`. -/
def checkCount (n max : Nat) : Except ErrCode Unit :=
  if n < 1 ∨ max < n then .error .badCount else .ok ()

/-- R132, `Channels` for role `ch`. -/
def checkChannel (nch c : Nat) : Except ErrCode Unit :=
  if c < nch then .ok () else .error .channelRange

/-- R132, `Channels` for role `ch/ALL`. -/
def channels (nch : Nat) : ChanSel → Except ErrCode (List Nat)
  | .all => .ok (List.range nch)
  | .one c => if c < nch then .ok [c] else .error .channelRange

/-- R132, `CheckSection`; R170 with the order in place of the section count. -/
def checkSection (nsec k : Nat) : Except ErrCode Unit :=
  if nsec ≤ k then .error .sectionRange else .ok ()

/-- Above zero and below +∞. -/
def positiveFinite (f : Format) (x : Sample) : Bool := flt f (zeroOf f false) x && flt f x (infOf f false)

/-- R133, `CheckFs`. -/
def checkFs (f : Format) (x : Sample) : Except ErrCode Unit :=
  if positiveFinite f x then .ok () else .error .badSampleRate

/-- R195, R234: a normalized frequency is in (0, 0.5]. -/
def validFreq (f : Format) (x : Sample) : Bool := flt f (zeroOf f false) x && fle f x (ofRatio f 1 2)

/-- R195, R234. -/
def checkFreq (f : Format) (x : Sample) : Except ErrCode Unit :=
  if validFreq f x then .ok () else .error .badFrequency

/-- R235. -/
def checkQ (f : Format) (x : Sample) : Except ErrCode Unit :=
  if positiveFinite f x then .ok () else .error .badQ

/-- R195: a shelf's linear gain is positive and finite. -/
def checkLinearGain (f : Format) (x : Sample) : Except ErrCode Unit :=
  if positiveFinite f x then .ok () else .error .badGain

/-- R236: a gain in dB is above -∞ and below +∞. -/
def validGainDb (f : Format) (x : Sample) : Bool := flt f (infOf f true) x && flt f x (infOf f false)

/-- R236. -/
def checkGainDb (f : Format) (x : Sample) : Except ErrCode Unit :=
  if validGainDb f x then .ok () else .error .badGain

/-! ### Channels and sections -/

/-- R104: the effect on each channel of the set, in its order; the effect is told the channel it acts on. -/
def onChannels {α : Type} (cs : List Nat) (eff : Nat → α → α) (l : List α) : List α :=
  cs.foldl (fun l c => l.modify c (eff c)) l

/-- The effect on one section of each channel of the set. -/
def onSections {α : Type} (cs : List Nat) (sec : Nat) (eff : Nat → α → α) (l : List (List α)) : List (List α) :=
  onChannels cs (fun c chain => chain.modify sec (eff c)) l

/-- Element `[c][s]`, if it exists (R47). -/
def elemAt {α : Type} (l : List (List α)) (c s : Nat) : Option α := (l[c]?).bind (·[s]?)

end Sys2Proof.Machine
end

