-- ==== Sys2Proof/Machine/Transcendental.lean ====
section
/-! DEFINITION. The function parameters `fexp`, `fsin`, `fcos`, `ftan`, `flog10`, `fpow` and the named properties a
model may assume of them (spec/00_scope.md R7, R13; log 3). -/

namespace Sys2Proof.Machine

/-- R13, `fexp`: 1 at the zeros, +0 at minus infinity, within [+0, 1] for `x ≤ 0`, NaN for NaN, and monotone. -/
def ExpLaws (T : Config.Transcendentals) : Prop :=
  (∀ f x, isZero f x = true → T.fexp f x = ofInteger f 1) ∧
  (∀ f, T.fexp f (infOf f true) = zeroOf f false) ∧
  (∀ f x, fle f x (zeroOf f false) = true →
    fle f (zeroOf f false) (T.fexp f x) = true ∧ fle f (T.fexp f x) (ofInteger f 1) = true) ∧
  (∀ f x, isNaN f x = true → isNaN f (T.fexp f x) = true) ∧
  (∀ f x y, fle f x y = true → fle f (T.fexp f x) (T.fexp f y) = true)

/-- R13, `fsin` and `fcos`: within [-1, 1] for finite `x`; NaN for NaN or an infinity. -/
def CircularLaws (g : Format → Sample → Sample) : Prop :=
  (∀ f x, isFinite f x = true →
    fle f (fneg f (ofInteger f 1)) (g f x) = true ∧ fle f (g f x) (ofInteger f 1) = true) ∧
  (∀ f x, isFinite f x = false → isNaN f (g f x) = true)

/-- R13, `ftan`: NaN for NaN or an infinity. -/
def TanLaws (g : Format → Sample → Sample) : Prop :=
  ∀ f x, isFinite f x = false → isNaN f (g f x) = true

/-- R13, `flog10`: minus infinity at +0, +0 at 1, +∞ at +∞, NaN for NaN, and monotone (log 3 on negative
operands, which the core never passes). -/
def LogLaws (T : Config.Transcendentals) : Prop :=
  (∀ f, T.flog10 f (zeroOf f false) = infOf f true) ∧
  (∀ f, T.flog10 f (ofInteger f 1) = zeroOf f false) ∧
  (∀ f, T.flog10 f (infOf f false) = infOf f false) ∧
  (∀ f x, isNaN f x = true → isNaN f (T.flog10 f x) = true) ∧
  (∀ f x y, fle f x y = true → fle f (T.flog10 f x) (T.flog10 f y) = true)

/-- R13, `fpow`: `fpow(10, ±0) = 1`, and above +0 (or +∞) for finite `y`. -/
def PowLaws (T : Config.Transcendentals) : Prop :=
  (∀ f y, isZero f y = true → T.fpow f (ofInteger f 10) y = ofInteger f 1) ∧
  (∀ f y, isFinite f y = true → flt f (zeroOf f false) (T.fpow f (ofInteger f 10) y) = true)

/-- The named properties of R13, together. -/
def NamedProperties (T : Config.Transcendentals) : Prop :=
  ExpLaws T ∧ CircularLaws T.fsin ∧ CircularLaws T.fcos ∧ TanLaws T.ftan ∧ LogLaws T ∧ PowLaws T

/-- Step functions that satisfy R13's properties: they only show that some functions do. -/
def stepFunctions : Config.Transcendentals where
  fexp f x := if isNaN f x then x else if orderKey f x < 0 then zeroOf f false else ofInteger f 1
  fsin f x := if isFinite f x then zeroOf f false else mkSample f false (f.infMag + 1)
  fcos f x := if isFinite f x then zeroOf f false else mkSample f false (f.infMag + 1)
  ftan f x := if isFinite f x then zeroOf f false else mkSample f false (f.infMag + 1)
  flog10 f x :=
    if isNaN f x then x
    else if orderKey f x < orderKey f (ofInteger f 1) then infOf f true
    else if orderKey f x < (f.infMag : Int) then zeroOf f false
    else infOf f false
  fpow f _ _ := ofInteger f 1

theorem isNaN_mkSample (f : Format) (s : Bool) (m : Nat) (h : m < 2 ^ f.signPos) :
    isNaN f (mkSample f s m) = decide (f.infMag < m) := by rw [isNaN, magOf_mkSample f s m h]

theorem orderKey_mkSample (f : Format) (s : Bool) (m : Nat) (h : m < 2 ^ f.signPos) :
    orderKey f (mkSample f s m) = if s then -(m : Int) else (m : Int) := by
  rw [orderKey, signOf_mkSample f s m h, magOf_mkSample f s m h]

/-- The encoding of 1: an exponent field equal to the bias and a zero fraction. -/
theorem ofInteger_one (f : Format) : ofInteger f 1 = mkSample f false (f.bias * 2 ^ f.fracBits) := by
  cases f <;> decide +kernel

theorem orderKey_le_infMag (f : Format) (x : Sample) (h : isNaN f x = false) :
    orderKey f x ≤ (f.infMag : Int) ∧ -(f.infMag : Int) ≤ orderKey f x := by
  simp only [isNaN, decide_eq_false_iff_not, not_lt, orderKey] at *
  split <;> omega

theorem orderKey_of_isZero (f : Format) (x : Sample) (h : isZero f x = true) :
    orderKey f x = 0 ∧ isNaN f x = false := by
  simp only [isZero, isNaN, orderKey, decide_eq_true_eq, decide_eq_false_iff_not] at *
  simp [h]

theorem stepFunctions_laws : NamedProperties stepFunctions := by
  have h1 : ∀ f : Format, f.bias * 2 ^ f.fracBits < 2 ^ f.signPos := by intro f; cases f <;> decide
  have hi := infMag_lt
  have h0 : ∀ f : Format, 0 < 2 ^ f.signPos := by intro f; cases f <;> decide
  have hb : ∀ f : Format, f.bias * 2 ^ f.fracBits < f.infMag := by intro f; cases f <;> decide
  have hp : ∀ f : Format, 0 < f.bias * 2 ^ f.fracBits := by intro f; cases f <;> decide
  have hn : ∀ f : Format, f.infMag + 1 < 2 ^ f.signPos := by intro f; cases f <;> decide
  have kOne : ∀ f, orderKey f (ofInteger f 1) = ((f.bias * 2 ^ f.fracBits : Nat) : Int) := fun f => by
    rw [ofInteger_one, orderKey_mkSample f _ _ (h1 f)]; rfl
  have nOne : ∀ f, isNaN f (ofInteger f 1) = false := fun f => by
    rw [ofInteger_one, isNaN_mkSample f _ _ (h1 f)]; simpa using (hb f).le
  have kZ : ∀ f, orderKey f (zeroOf f false) = 0 := fun f => by
    rw [zeroOf, orderKey_mkSample f _ _ (h0 f)]; rfl
  have nZ : ∀ f b, isNaN f (zeroOf f b) = false := fun f b => by
    rw [zeroOf, isNaN_mkSample f _ _ (h0 f)]; simp
  have kI : ∀ f b, orderKey f (infOf f b) = if b then -(f.infMag : Int) else (f.infMag : Int) := fun f b => by
    rw [infOf, orderKey_mkSample f _ _ (hi f)]
  have nI : ∀ f b, isNaN f (infOf f b) = false := fun f b => by
    rw [infOf, isNaN_mkSample f _ _ (hi f)]; simp
  have nN : ∀ f, isNaN f (mkSample f false (f.infMag + 1)) = true := fun f => by
    rw [isNaN_mkSample f _ _ (hn f)]; simp
  have neg1 : ∀ f, fle f (fneg f (ofInteger f 1)) (zeroOf f false) = true ∧
      fle f (zeroOf f false) (ofInteger f 1) = true := by
    intro f; cases f <;> decide +kernel
  have hr := orderKey_le_infMag
  refine ⟨⟨?_, ?_, ?_, ?_, ?_⟩, ⟨?_, ?_⟩, ⟨?_, ?_⟩, ?_, ⟨?_, ?_, ?_, ?_, ?_⟩, ?_, ?_⟩
  · intro f x h
    obtain ⟨hk, hx⟩ := orderKey_of_isZero f x h
    simp [stepFunctions, hk, hx]
  · intro f
    have := hp f; have := hb f
    simp only [stepFunctions, nI, kI]
    rw [if_neg (by simp), if_pos (by simp; omega)]
  · intro f x h
    simp only [fle, Bool.and_eq_true, Bool.not_eq_true', decide_eq_true_eq] at h ⊢
    have := hp f
    simp only [stepFunctions, h.1.1]
    split
    · simp_all
    · split <;> simp [nZ, nOne, kZ, kOne]
  · intro f x h; simp [stepFunctions, h]
  · intro f x y h
    simp only [fle, Bool.and_eq_true, Bool.not_eq_true', decide_eq_true_eq] at h ⊢
    simp only [stepFunctions, h.1.1, h.1.2]
    have := hp f
    by_cases a : orderKey f x < 0 <;> by_cases b : orderKey f y < 0 <;> simp [a, b, nZ, nOne, kZ, kOne]
    omega
  · intro f x h; simpa [stepFunctions, h] using neg1 f
  · intro f x h; simp [stepFunctions, h, nN]
  · intro f x h; simpa [stepFunctions, h] using neg1 f
  · intro f x h; simp [stepFunctions, h, nN]
  · intro f x h; simp [stepFunctions, h, nN]
  · intro f; have := hp f
    simp only [stepFunctions, nZ, kZ, kOne]
    rw [if_neg (by simp), if_pos (by omega)]
  · intro f; have := hb f; have := hp f
    simp only [stepFunctions, nOne, kOne]
    rw [if_neg (by simp), if_neg (by omega), if_pos (by omega)]
  · intro f; have := hb f
    simp only [stepFunctions, nI, kI, kOne]
    rw [if_neg (by simp), if_neg (by rw [if_neg (by simp)]; omega), if_neg (by simp)]
  · intro f x h; simp [stepFunctions, h]
  · intro f x y h
    simp only [fle, Bool.and_eq_true, Bool.not_eq_true', decide_eq_true_eq] at h ⊢
    have hx := hr f x h.1.1
    have hy := hr f y h.1.2
    have := hb f
    simp only [stepFunctions, h.1.1, h.1.2]
    by_cases a : orderKey f x < orderKey f (ofInteger f 1) <;>
      by_cases b : orderKey f y < orderKey f (ofInteger f 1) <;>
      by_cases c : orderKey f x < (f.infMag : Int) <;>
      by_cases d : orderKey f y < (f.infMag : Int) <;>
      simp [a, b, c, d, nI, kI, nZ, kZ] <;> omega
  · intro f y _; rfl
  · intro f y _
    have := hp f
    simp only [flt, stepFunctions, nZ, nOne, kZ, kOne, Bool.not_false, Bool.true_and, decide_eq_true_eq]
    omega

/-- The function parameters of this machine (R7, R13): any functions with R13's named properties. -/
def machineFunctions : Config.Transcendentals :=
  (@Config.transcendentals NamedProperties ⟨⟨stepFunctions, stepFunctions_laws⟩⟩).val

theorem machineFunctions_laws : NamedProperties machineFunctions :=
  (@Config.transcendentals NamedProperties ⟨⟨stepFunctions, stepFunctions_laws⟩⟩).property

/-- A function's result as a sample: a NaN result is a quiet NaN drawn at the place of the call (R7, R12, R13;
log 3), any other result keeps its value. -/
@[irreducible] def settle (e : Fp) (r : Sample) : Sample := if isNaN e.fmt r then quietNaN e else canon e.fmt r

/-- `fexp(x)` (R13). -/
@[irreducible] def fexp (e : Fp) (x : Sample) : Sample := settle e (machineFunctions.fexp e.fmt x)
/-- `fsin(x)` (R13). -/
@[irreducible] def fsin (e : Fp) (x : Sample) : Sample := settle e (machineFunctions.fsin e.fmt x)
/-- `fcos(x)` (R13). -/
@[irreducible] def fcos (e : Fp) (x : Sample) : Sample := settle e (machineFunctions.fcos e.fmt x)
/-- `ftan(x)` (R13). -/
@[irreducible] def ftan (e : Fp) (x : Sample) : Sample := settle e (machineFunctions.ftan e.fmt x)
/-- `flog10(x)` (R13). -/
@[irreducible] def flog10 (e : Fp) (x : Sample) : Sample := settle e (machineFunctions.flog10 e.fmt x)
/-- `fpow(x, y)` (R13). -/
@[irreducible] def fpow (e : Fp) (x y : Sample) : Sample := settle e (machineFunctions.fpow e.fmt x y)

end Sys2Proof.Machine
end

