-- ==== Sys2Proof/Machine/Helpers.lean ====
section
/-! DEFINITION. The shared helpers of spec/40_common.md: `TimeCoeff` (R134) and `OnePole` (R137). -/

namespace Sys2Proof.Machine

/-- R134: a time in milliseconds and a sample rate give a one-pole coefficient; a time that is not positive is
instantaneous. -/
def timeCoeff (e : Fp) (ms fs : Sample) : Sample :=
  if flt e.fmt (zeroOf e.fmt false) ms then
    let n := fmul (e.site 1) (fdiv (e.site 0) ms (ofInteger e.fmt 1000)) fs
    fexp (e.site 3) (fneg e.fmt (fdiv (e.site 2) (ofInteger e.fmt 1) n))
  else zeroOf e.fmt false

/-- R137: `in ⊕ (c ⊗ (s ⊖ in))`. -/
def onePole (e : Fp) (s inp c : Sample) : Sample :=
  fadd (e.site 2) inp (fmul (e.site 1) c (fsub (e.site 0) s inp))

end Sys2Proof.Machine
end

