-- ==== Sys2Proof/Machine/Biquad.lean ====
section
/-! DEFINITION. The biquad filter core BQ (spec/43_biquad.md). -/

namespace Sys2Proof.Machine

/-! ### Section and cascade (R220) -/

/-- The output of one section, before its delay state moves. -/
def bqOutput (e : Fp) (σ : BqSection) (x : Sample) : Sample :=
  fsub (e.site 8)
    (fsub (e.site 6)
      (fadd (e.site 4)
        (fadd (e.site 2) (fmul (e.site 0) σ.b0 x) (fmul (e.site 1) σ.b1 σ.x1))
        (fmul (e.site 3) σ.b2 σ.x2))
      (fmul (e.site 5) σ.a1 σ.y1))
    (fmul (e.site 7) σ.a2 σ.y2)

/-- `BQSection`: the output, and the section with its delay state moved on. -/
def bqSection (e : Fp) (σ : BqSection) (x : Sample) : Sample × BqSection :=
  (bqOutput e σ x, { σ with x2 := σ.x1, x1 := x, y2 := σ.y1, y1 := bqOutput e σ x })

/-- `BQChain` from section `k` on. -/
def bqChain (e : Fp) : Nat → List BqSection → Sample → Sample × List BqSection
  | _, [], x => (x, [])
  | k, σ :: rest, x =>
    let p := bqSection (e.site k) σ x
    let r := bqChain e (k + 1) rest p.1
    (r.1, p.2 :: r.2)

/-! ### Design (R222 to R230) -/

/-- A raw design: numerator and denominator before division by `d0` (R222). -/
structure BqRaw where
  n0 : Sample
  n1 : Sample
  n2 : Sample
  d0 : Sample
  d1 : Sample
  d2 : Sample
deriving DecidableEq, Repr

/-- `−(2 ⊗ cw)` of R223 to R228. -/
def bqNegTwoCos (e : Fp) (cw : Sample) : Sample := fneg e.fmt (fmul (e.site 0) (ofInteger e.fmt 2) cw)

/-- R223. -/
def bqLowpass (e : Fp) (cw α : Sample) : BqRaw :=
  let one := ofInteger e.fmt 1
  let two := ofInteger e.fmt 2
  let t := fsub (e.site 0) one cw
  { n0 := fdiv (e.site 1) t two
    n1 := t
    n2 := fdiv (e.site 2) t two
    d0 := fadd (e.site 3) one α
    d1 := bqNegTwoCos (e.site 4) cw
    d2 := fsub (e.site 5) one α }

/-- R224. -/
def bqHighpass (e : Fp) (cw α : Sample) : BqRaw :=
  let one := ofInteger e.fmt 1
  let two := ofInteger e.fmt 2
  let t := fadd (e.site 0) one cw
  { n0 := fdiv (e.site 1) t two
    n1 := fneg e.fmt t
    n2 := fdiv (e.site 2) t two
    d0 := fadd (e.site 3) one α
    d1 := bqNegTwoCos (e.site 4) cw
    d2 := fsub (e.site 5) one α }

/-- R225. -/
def bqBandpass (e : Fp) (cw α : Sample) : BqRaw :=
  let one := ofInteger e.fmt 1
  { n0 := α
    n1 := zeroOf e.fmt false
    n2 := fneg e.fmt α
    d0 := fadd (e.site 3) one α
    d1 := bqNegTwoCos (e.site 4) cw
    d2 := fsub (e.site 5) one α }

/-- R226. -/
def bqAllpass (e : Fp) (cw α : Sample) : BqRaw :=
  let one := ofInteger e.fmt 1
  { n0 := fsub (e.site 0) one α
    n1 := bqNegTwoCos (e.site 1) cw
    n2 := fadd (e.site 2) one α
    d0 := fadd (e.site 3) one α
    d1 := bqNegTwoCos (e.site 4) cw
    d2 := fsub (e.site 5) one α }

/-- R227. -/
def bqNotch (e : Fp) (cw α : Sample) : BqRaw :=
  let one := ofInteger e.fmt 1
  { n0 := one
    n1 := bqNegTwoCos (e.site 1) cw
    n2 := one
    d0 := fadd (e.site 3) one α
    d1 := bqNegTwoCos (e.site 4) cw
    d2 := fsub (e.site 5) one α }

/-- R228. -/
def bqPeak (e : Fp) (cw α a : Sample) : BqRaw :=
  let one := ofInteger e.fmt 1
  { n0 := fadd (e.site 1) one (fmul (e.site 0) α a)
    n1 := bqNegTwoCos (e.site 2) cw
    n2 := fsub (e.site 4) one (fmul (e.site 3) α a)
    d0 := fadd (e.site 6) one (fdiv (e.site 5) α a)
    d1 := bqNegTwoCos (e.site 7) cw
    d2 := fsub (e.site 9) one (fdiv (e.site 8) α a) }

/-- The shared values of the shelf designs (R229, R230): `k`, `Ap`, `Am`. -/
structure BqShelf where
  k : Sample
  ap : Sample
  am : Sample
deriving DecidableEq, Repr

/-- R229, R230, first line. -/
def bqShelfTerms (e : Fp) (α a : Sample) : BqShelf :=
  let one := ofInteger e.fmt 1
  { k := fmul (e.site 2) (fmul (e.site 1) (ofInteger e.fmt 2) (fsqrt (e.site 0) a)) α
    ap := fadd (e.site 3) a one
    am := fsub (e.site 4) a one }

/-- R229. -/
def bqLowshelf (e : Fp) (cw α a : Sample) : BqRaw :=
  let h := bqShelfTerms (e.site 0) α a
  let two := ofInteger e.fmt 2
  { n0 := fmul (e.site 4) a
      (fadd (e.site 3) (fsub (e.site 2) h.ap (fmul (e.site 1) h.am cw)) h.k)
    n1 := fmul (e.site 8) (fmul (e.site 7) two a)
      (fsub (e.site 6) h.am (fmul (e.site 5) h.ap cw))
    n2 := fmul (e.site 12) a
      (fsub (e.site 11) (fsub (e.site 10) h.ap (fmul (e.site 9) h.am cw)) h.k)
    d0 := fadd (e.site 15) (fadd (e.site 14) h.ap (fmul (e.site 13) h.am cw)) h.k
    d1 := fneg e.fmt (fmul (e.site 18) two (fadd (e.site 17) h.am (fmul (e.site 16) h.ap cw)))
    d2 := fsub (e.site 21) (fadd (e.site 20) h.ap (fmul (e.site 19) h.am cw)) h.k }

/-- R230. -/
def bqHighshelf (e : Fp) (cw α a : Sample) : BqRaw :=
  let h := bqShelfTerms (e.site 0) α a
  let two := ofInteger e.fmt 2
  { n0 := fmul (e.site 4) a
      (fadd (e.site 3) (fadd (e.site 2) h.ap (fmul (e.site 1) h.am cw)) h.k)
    n1 := fmul (e.site 8) (fneg e.fmt (fmul (e.site 7) two a))
      (fadd (e.site 6) h.am (fmul (e.site 5) h.ap cw))
    n2 := fmul (e.site 12) a
      (fsub (e.site 11) (fadd (e.site 10) h.ap (fmul (e.site 9) h.am cw)) h.k)
    d0 := fadd (e.site 15) (fsub (e.site 14) h.ap (fmul (e.site 13) h.am cw)) h.k
    d1 := fmul (e.site 18) two (fsub (e.site 17) h.am (fmul (e.site 16) h.ap cw))
    d2 := fsub (e.site 21) (fsub (e.site 20) h.ap (fmul (e.site 19) h.am cw)) h.k }

/-- R221: the raw design of a type. -/
def bqRawOf (e : Fp) (cw α a : Sample) : BqType → BqRaw
  | .lowpass => bqLowpass e cw α
  | .highpass => bqHighpass e cw α
  | .bandpass => bqBandpass e cw α
  | .allpass => bqAllpass e cw α
  | .notch => bqNotch e cw α
  | .peak => bqPeak e cw α a
  | .lowshelf => bqLowshelf e cw α a
  | .highshelf => bqHighshelf e cw α a

/-- R222, `BQRecompute`: the coefficients become the design of the section's parameters; the delay state stays. -/
def bqRecompute (e : Fp) (σ : BqSection) : BqSection :=
  let ω := fmul (e.site 0) (twoPi (e.site 99)) σ.freq
  let cw := fcos (e.site 1) ω
  let sw := fsin (e.site 2) ω
  let α := fdiv (e.site 4) sw (fmul (e.site 3) (ofInteger e.fmt 2) σ.q)
  let a := fpow (e.site 6) (ofInteger e.fmt 10) (fdiv (e.site 5) σ.gdb (ofInteger e.fmt 40))
  let r := bqRawOf (e.site 7) cw α a σ.type
  { σ with
    b0 := fdiv (e.site 8) r.n0 r.d0
    b1 := fdiv (e.site 9) r.n1 r.d0
    b2 := fdiv (e.site 10) r.n2 r.d0
    a1 := fdiv (e.site 11) r.d1 r.d0
    a2 := fdiv (e.site 12) r.d2 r.d0 }

/-! ### Commands -/

/-- The section BQ_PREPARE leaves (R42): default parameters, identity coefficients. -/
def bqFresh (f : Format) : BqSection :=
  let z := zeroOf f false
  { type := .lowpass, freq := ofRatio f 1 4, q := qDef f, gdb := z,
    b0 := ofInteger f 1, b1 := z, b2 := z, a1 := z, a2 := z, x1 := z, x2 := z, y1 := z, y2 := z }

/-- R231. -/
def execBqPrepare (n m : Nat) (s : State) : Result :=
  conclude s do
    checkCount n s.params.maxChannels
    checkCount m s.params.maxSections
    return { s with bq :=
      { prepared := true, nch := n, nsec := m,
        sections := List.replicate n (List.replicate m (bqFresh s.params.fmt)) } }

/-- R232: the delay state of every section of a chain becomes +0. -/
def bqClear (f : Format) (chain : List BqSection) : List BqSection :=
  let z := zeroOf f false
  chain.map fun σ => { σ with x1 := z, x2 := z, y1 := z, y2 := z }

/-- R232. -/
def execBqReset (sel : ChanSel) (s : State) : Result :=
  conclude s do
    needPrepared s.bq.prepared
    let cs ← channels s.bq.nch sel
    return { s with bq := { s.bq with
      sections := onChannels cs (fun _ => bqClear s.params.fmt) s.bq.sections } }

/-- A parameter setter's effect (R233 to R236): the parameter changes and the section is recomputed, in each channel
of the set; each channel evaluates at a place of its own. -/
def bqSetParam (cs : List Nat) (sec : Nat) (upd : BqSection → BqSection) (s : State) : State :=
  { s with bq := { s.bq with
      sections := onSections cs sec (fun c σ => bqRecompute (s.fp.site c) (upd σ)) s.bq.sections } }.drawn

/-- R233. -/
def execBqSettype (sel : ChanSel) (sec : Nat) (type : BqType) (s : State) : Result :=
  conclude s do
    needPrepared s.bq.prepared
    let cs ← channels s.bq.nch sel
    checkSection s.bq.nsec sec
    return bqSetParam cs sec (fun σ => { σ with type := type }) s

/-- R234. -/
def execBqSetfreq (sel : ChanSel) (sec : Nat) (s : State) : Result :=
  conclude s do
    needPrepared s.bq.prepared
    let cs ← channels s.bq.nch sel
    checkSection s.bq.nsec sec
    checkFreq s.params.fmt (s.operand 0)
    return bqSetParam cs sec (fun σ => { σ with freq := s.operand 0 }) s

/-- R235. -/
def execBqSetq (sel : ChanSel) (sec : Nat) (s : State) : Result :=
  conclude s do
    needPrepared s.bq.prepared
    let cs ← channels s.bq.nch sel
    checkSection s.bq.nsec sec
    checkQ s.params.fmt (s.operand 0)
    return bqSetParam cs sec (fun σ => { σ with q := s.operand 0 }) s

/-- R236. -/
def execBqSetgain (sel : ChanSel) (sec : Nat) (s : State) : Result :=
  conclude s do
    needPrepared s.bq.prepared
    let cs ← channels s.bq.nch sel
    checkSection s.bq.nsec sec
    checkGainDb s.params.fmt (s.operand 0)
    return bqSetParam cs sec (fun σ => { σ with gdb := s.operand 0 }) s

/-- R237. -/
def execBqSetcoef (sel : ChanSel) (sec : Nat) (s : State) : Result :=
  conclude s do
    needPrepared s.bq.prepared
    let cs ← channels s.bq.nch sel
    checkSection s.bq.nsec sec
    return { s with bq := { s.bq with
      sections := onSections cs sec
        (fun _ σ => { σ with b0 := s.operand 0, b1 := s.operand 1, b2 := s.operand 2,
                             a1 := s.operand 3, a2 := s.operand 4 }) s.bq.sections } }

/-- R238. -/
def execBqProcess (c : Nat) (s : State) : Result :=
  conclude s do
    needPrepared s.bq.prepared
    checkChannel s.bq.nch c
    let r := bqChain s.fp 0 (s.bq.sections.getD c []) (s.operand 0)
    return ({ s with bq := { s.bq with sections := s.bq.sections.set c r.2 } }.setRes 0 r.1).drawn

/-- R239. -/
def execBqReadcoef (c sec : Nat) (s : State) : Result :=
  conclude s do
    needPrepared s.bq.prepared
    checkChannel s.bq.nch c
    checkSection s.bq.nsec sec
    let σ := (elemAt s.bq.sections c sec).getD default
    return ((((s.setRes 0 σ.b0).setRes 1 σ.b1).setRes 2 σ.b2).setRes 3 σ.a1).setRes 4 σ.a2

/-- R240. -/
def execBqReadstate (c sec : Nat) (s : State) : Result :=
  conclude s do
    needPrepared s.bq.prepared
    checkChannel s.bq.nch c
    checkSection s.bq.nsec sec
    let σ := (elemAt s.bq.sections c sec).getD default
    return (((s.setRes 0 σ.x1).setRes 1 σ.x2).setRes 2 σ.y1).setRes 3 σ.y2

/-- R241: the integer code of a type (R105, R221). -/
def bqTypeNumber : BqType → Nat
  | .lowpass => 0
  | .highpass => 1
  | .bandpass => 2
  | .allpass => 3
  | .notch => 4
  | .peak => 5
  | .lowshelf => 6
  | .highshelf => 7

/-- R241. -/
def execBqReadparam (c sec : Nat) (s : State) : Result :=
  conclude s do
    needPrepared s.bq.prepared
    checkChannel s.bq.nch c
    checkSection s.bq.nsec sec
    let σ := (elemAt s.bq.sections c sec).getD default
    return (((s.setResInt 0 (bqTypeNumber σ.type)).setRes 1 σ.freq).setRes 2 σ.q).setRes 3 σ.gdb

end Sys2Proof.Machine
end

