-- ==== Sys2Proof/Machine/EnvelopeFollower.lean ====
section
/-! DEFINITION. The envelope follower EF (spec/44_envelope_follower.md). -/

namespace Sys2Proof.Machine

/-- The channel EF_PREPARE leaves (R44). -/
def efFresh (f : Format) : EfChannel :=
  { env := zeroOf f false, att := zeroOf f false, rel := zeroOf f false }

/-- R260. -/
def execEfPrepare (n : Nat) (variant : EfVariant) (s : State) : Result :=
  conclude s do
    checkCount n s.params.maxChannels
    checkFs s.params.fmt (s.operand 0)
    return { s with ef :=
      { prepared := true, nch := n, variant := variant, fs := s.operand 0,
        chans := List.replicate n (efFresh s.params.fmt) } }

/-- R261: the envelope of a seed level. -/
def efSeed (e : Fp) (v : Sample) : EfVariant → Sample
  | .peak => v
  | .rms => fmul e v v

/-- R261. -/
def execEfReset (sel : ChanSel) (seeded : Bool) (s : State) : Result :=
  conclude s do
    needPrepared s.ef.prepared
    let cs ← channels s.ef.nch sel
    return { s with ef := { s.ef with
      chans := onChannels cs
        (fun c ch => { ch with env := efSeed (s.fp.site c) (seedValue seeded s) s.ef.variant }) s.ef.chans } }.drawn

/-- R262: the time a mode stands for. -/
def efTime (e : Fp) (scale t : Sample) : TimeMode → Sample
  | .raw => t
  | .perceptual => fmul e t scale

/-- R262. -/
def execEfSetattack (sel : ChanSel) (mode : TimeMode) (s : State) : Result :=
  conclude s do
    needPrepared s.ef.prepared
    let cs ← channels s.ef.nch sel
    let t := efTime (s.fp.site 256) s.params.perceptualScale (s.operand 0) mode
    return { s with ef := { s.ef with
      chans := onChannels cs (fun c ch => { ch with att := timeCoeff (s.fp.site c) t s.ef.fs }) s.ef.chans } }.drawn

/-- R263. -/
def execEfSetrelease (sel : ChanSel) (mode : TimeMode) (s : State) : Result :=
  conclude s do
    needPrepared s.ef.prepared
    let cs ← channels s.ef.nch sel
    let t := efTime (s.fp.site 256) s.params.perceptualScale (s.operand 0) mode
    return { s with ef := { s.ef with
      chans := onChannels cs (fun c ch => { ch with rel := timeCoeff (s.fp.site c) t s.ef.fs }) s.ef.chans } }.drawn

/-- R264: what the follower compares with its envelope, the rectified input or its square. -/
def efInput (e : Fp) (x : Sample) : EfVariant → Sample
  | .peak => fabs e.fmt x
  | .rms => fmul (e.site 0) x x

/-- R264, `EFLevel`. -/
def efLevel (e : Fp) (env : Sample) : EfVariant → Sample
  | .peak => env
  | .rms => fsqrt (e.site 2) env

/-- R264: the new envelope; a rising input takes the attack coefficient. -/
def efTrack (e : Fp) (variant : EfVariant) (x : Sample) (ch : EfChannel) : EfChannel :=
  let inp := efInput e x variant
  { ch with env := onePole (e.site 1) ch.env inp (if flt e.fmt ch.env inp then ch.att else ch.rel) }

/-- R264. -/
def execEfProcess (c : Nat) (s : State) : Result :=
  conclude s do
    needPrepared s.ef.prepared
    checkChannel s.ef.nch c
    let ch := efTrack s.fp s.ef.variant (s.operand 0) (s.ef.chans.getD c default)
    return ({ s with ef := { s.ef with chans := s.ef.chans.set c ch } }.setRes 0
      (efLevel s.fp ch.env s.ef.variant)).drawn

/-- R265. -/
def execEfRead (c : Nat) (s : State) : Result :=
  conclude s do
    needPrepared s.ef.prepared
    checkChannel s.ef.nch c
    let ch := s.ef.chans.getD c default
    return ((((s.setRes 0 ch.env).setRes 1 ch.att).setRes 2 ch.rel).setRes 3
      (efLevel s.fp ch.env s.ef.variant)).drawn

end Sys2Proof.Machine
end

