-- ==== Sys2Proof/Machine/FirstOrder.lean ====
section
/-! DEFINITION. The first-order filter core FO (spec/42_first_order.md). -/

namespace Sys2Proof.Machine

/-! ### Section and cascade (R190) -/

/-- The output of one section, before its delay state moves. -/
def foOutput (e : Fp) (σ : FoSection) (x : Sample) : Sample :=
  fsub (e.site 4)
    (fadd (e.site 2) (fmul (e.site 0) σ.b0 x) (fmul (e.site 1) σ.b1 σ.xp))
    (fmul (e.site 3) σ.a1 σ.yp)

/-- `FOSection`: the output, and the section with the new prior input and output. -/
def foSection (e : Fp) (σ : FoSection) (x : Sample) : Sample × FoSection :=
  (foOutput e σ x, { σ with xp := x, yp := foOutput e σ x })

/-- `FOChain` from section `k` on: each section consumes the output of the one before. -/
def foChain (e : Fp) : Nat → List FoSection → Sample → Sample × List FoSection
  | _, [], x => (x, [])
  | k, σ :: rest, x =>
    let p := foSection (e.site k) σ x
    let r := foChain e (k + 1) rest p.1
    (r.1, p.2 :: r.2)

/-! ### Design (R195 to R200) -/

/-- The results of a first-order design. -/
structure FoDesign where
  b0 : Sample
  b1 : Sample
  a1 : Sample
deriving DecidableEq, Repr

/-- R196. -/
def foLowpass (e : Fp) (f : Sample) : FoDesign :=
  let fm := e.fmt
  let θ := fmul (e.site 0) (twoPi (e.site 9)) f
  let γ := fdiv (e.site 4) (fcos (e.site 1) θ) (fadd (e.site 3) (ofInteger fm 1) (fsin (e.site 2) θ))
  let b0 := fdiv (e.site 6) (fsub (e.site 5) (ofInteger fm 1) γ) (ofInteger fm 2)
  { b0 := b0, b1 := b0, a1 := fneg fm γ }

/-- `x = e^(-2π f)` of R197 and R198. -/
def foDecay (e : Fp) (f : Sample) : Sample :=
  fexp (e.site 1) (fneg e.fmt (fmul (e.site 0) (twoPi (e.site 9)) f))

/-- R197, with `a1 = x` as the source writes it (90_conflicts.md C1). -/
def foHighpass (e : Fp) (f : Sample) : FoDesign :=
  let x := foDecay e f
  let b0 := fdiv (e.site 3) (fadd (e.site 2) (ofInteger e.fmt 1) x) (ofInteger e.fmt 2)
  { b0 := b0, b1 := fneg e.fmt b0, a1 := x }

/-- R198. -/
def foAllpass (e : Fp) (f : Sample) : FoDesign :=
  let x := foDecay e f
  { b0 := x, b1 := ofInteger e.fmt 1, a1 := x }

/-- R199. -/
def foLowshelf (e : Fp) (f g : Sample) : FoDesign :=
  let ωc := fmul (e.site 0) (twoPi (e.site 19)) f
  let t := ftan (e.site 2) (fdiv (e.site 1) ωc (ofInteger e.fmt 2))
  let s := fsqrt (e.site 3) g
  let d := fadd (e.site 4) t s
  { b0 := fdiv (e.site 7) (fadd (e.site 6) (fmul (e.site 5) g t) s) d
    b1 := fdiv (e.site 10) (fsub (e.site 9) (fmul (e.site 8) g t) s) d
    a1 := fdiv (e.site 12) (fsub (e.site 11) t s) d }

/-- R200: the low shelf with `b1` negated, as the source writes it (90_conflicts.md C2). -/
def foHighshelf (e : Fp) (f g : Sample) : FoDesign :=
  let r := foLowshelf e f g
  { b0 := r.b0, b1 := fneg e.fmt r.b1, a1 := r.a1 }

/-- R195: the types that read a gain. -/
def isShelf : FoType → Bool
  | .lowshelf => true
  | .highshelf => true
  | .lowpass => false
  | .highpass => false
  | .allpass => false

/-- R195: the design of a type. -/
def foDesignOf (e : Fp) (f g : Sample) : FoType → FoDesign
  | .lowpass => foLowpass e f
  | .highpass => foHighpass e f
  | .allpass => foAllpass e f
  | .lowshelf => foLowshelf e f g
  | .highshelf => foHighshelf e f g

/-! ### Commands -/

/-- The identity section FO_PREPARE leaves (R41). -/
def foFresh (f : Format) : FoSection :=
  { b0 := ofInteger f 1, b1 := zeroOf f false, a1 := zeroOf f false, xp := zeroOf f false, yp := zeroOf f false }

/-- R191. -/
def execFoPrepare (n m : Nat) (s : State) : Result :=
  conclude s do
    checkCount n s.params.maxChannels
    checkCount m s.params.maxSections
    return { s with fo :=
      { prepared := true, nch := n, nsec := m,
        sections := List.replicate n (List.replicate m (foFresh s.params.fmt)) } }

/-- R192: the delay state of every section of a chain becomes +0. -/
def foClear (f : Format) (chain : List FoSection) : List FoSection :=
  chain.map fun σ => { σ with xp := zeroOf f false, yp := zeroOf f false }

/-- R192. -/
def execFoReset (sel : ChanSel) (s : State) : Result :=
  conclude s do
    needPrepared s.fo.prepared
    let cs ← channels s.fo.nch sel
    return { s with fo := { s.fo with
      sections := onChannels cs (fun _ => foClear s.params.fmt) s.fo.sections } }

/-- R193. -/
def execFoSetcoef (sel : ChanSel) (sec : Nat) (s : State) : Result :=
  conclude s do
    needPrepared s.fo.prepared
    let cs ← channels s.fo.nch sel
    checkSection s.fo.nsec sec
    return { s with fo := { s.fo with
      sections := onSections cs sec
        (fun _ σ => { σ with b0 := s.operand 0, b1 := s.operand 1, a1 := s.operand 2 }) s.fo.sections } }

/-- R194. -/
def execFoProcess (c : Nat) (s : State) : Result :=
  conclude s do
    needPrepared s.fo.prepared
    checkChannel s.fo.nch c
    let r := foChain s.fp 0 (s.fo.sections.getD c []) (s.operand 0)
    return ({ s with fo := { s.fo with sections := s.fo.sections.set c r.2 } }.setRes 0 r.1).drawn

/-- R195. -/
def execFoDesign (type : FoType) (s : State) : Result :=
  conclude s do
    checkFreq s.params.fmt (s.operand 0)
    if isShelf type then checkLinearGain s.params.fmt (s.operand 1)
    let r := foDesignOf s.fp (s.operand 0) (s.operand 1) type
    return (((s.setRes 0 r.b0).setRes 1 r.b1).setRes 2 r.a1).drawn

/-- R201. -/
def execFoReadcoef (c sec : Nat) (s : State) : Result :=
  conclude s do
    needPrepared s.fo.prepared
    checkChannel s.fo.nch c
    checkSection s.fo.nsec sec
    let σ := (elemAt s.fo.sections c sec).getD default
    return ((s.setRes 0 σ.b0).setRes 1 σ.b1).setRes 2 σ.a1

/-- R202. -/
def execFoReadstate (c sec : Nat) (s : State) : Result :=
  conclude s do
    needPrepared s.fo.prepared
    checkChannel s.fo.nch c
    checkSection s.fo.nsec sec
    let σ := (elemAt s.fo.sections c sec).getD default
    return (s.setRes 0 σ.xp).setRes 1 σ.yp

end Sys2Proof.Machine
end

