-- ==== Sys2Proof/Machine/GainComputer.lean ====
section
/-! DEFINITION. The gain computer GC (spec/45_gain_computer.md). -/

namespace Sys2Proof.Machine

/-- R291: the threshold is taken as given. -/
def execGcSetthresh (s : State) : Result :=
  .next { s with gc := { s.gc with thr := s.operand 0 } }

/-- R292: a ratio that is not at least 1 becomes 1. -/
def clampRatio (f : Format) (v : Sample) : Sample :=
  if fle f (ofInteger f 1) v then v else ofInteger f 1

/-- R292. -/
def execGcSetratio (s : State) : Result :=
  .next { s with gc := { s.gc with ratio := clampRatio s.params.fmt (s.operand 0) } }

/-- R293: a width that is not positive becomes +0. -/
def clampKnee (f : Format) (v : Sample) : Sample :=
  if flt f (zeroOf f false) v then v else zeroOf f false

/-- R293. -/
def execGcSetknee (s : State) : Result :=
  .next { s with gc := { s.gc with knee := clampKnee s.params.fmt (s.operand 0) } }

/-- R294: the level in dB, `20 ⊗ flog10(|level|)`. -/
def levelDb (e : Fp) (level : Sample) : Sample :=
  fmul (e.site 1) (ofInteger e.fmt 20) (flog10 (e.site 0) (fabs e.fmt level))

/-- R294: the gain change at a level in dB, by the three regions of the transfer law. -/
def gainChange (e : Fp) (p : GcUnit) (ldb : Sample) : Sample :=
  let f := e.fmt
  let one := ofInteger f 1
  let two := ofInteger f 2
  let lower := fsub (e.site 1) p.thr (fdiv (e.site 0) p.knee two)
  let upper := fadd (e.site 3) p.thr (fdiv (e.site 2) p.knee two)
  if flt f ldb lower then zeroOf f false
  else if flt f upper ldb || feq f p.knee (zeroOf f false) then
    fmul (e.site 7) (fsub (e.site 4) p.thr ldb) (fsub (e.site 6) one (fdiv (e.site 5) one p.ratio))
  else
    let d := fsub (e.site 8) ldb lower
    fdiv (e.site 14)
      (fmul (e.site 12) (fsub (e.site 10) (fdiv (e.site 9) one p.ratio) one) (fmul (e.site 11) d d))
      (fmul (e.site 13) two p.knee)

/-- R295. -/
def execGcCompute (s : State) : Result :=
  let ldb := levelDb (s.fp.site 0) (s.operand 0)
  .next (((s.setRes 0 (gainChange (s.fp.site 1) s.gc ldb)).setRes 1 ldb).drawn)

/-- R296. -/
def execGcRead (s : State) : Result :=
  .next (((s.setRes 0 s.gc.thr).setRes 1 s.gc.ratio).setRes 2 s.gc.knee)

end Sys2Proof.Machine
end

