-- ==== Sys2Proof/Machine/GainSmoother.lean ====
section
/-! DEFINITION. The gain smoother GS (spec/46_gain_smoother.md). -/

namespace Sys2Proof.Machine

/-- The channel GS_PREPARE leaves (R46). -/
def gsFresh (f : Format) : GsChannel :=
  { g := zeroOf f false, att := zeroOf f false, rel := zeroOf f false }

/-- R310. -/
def execGsPrepare (n : Nat) (s : State) : Result :=
  conclude s do
    checkCount n s.params.maxChannels
    checkFs s.params.fmt (s.operand 0)
    return { s with gs :=
      { prepared := true, nch := n, fs := s.operand 0, chans := List.replicate n (gsFresh s.params.fmt) } }

/-- R311. -/
def execGsReset (sel : ChanSel) (seeded : Bool) (s : State) : Result :=
  conclude s do
    needPrepared s.gs.prepared
    let cs ← channels s.gs.nch sel
    return { s with gs := { s.gs with
      chans := onChannels cs (fun _ ch => { ch with g := seedValue seeded s }) s.gs.chans } }

/-- R312. -/
def execGsSetattack (sel : ChanSel) (s : State) : Result :=
  conclude s do
    needPrepared s.gs.prepared
    let cs ← channels s.gs.nch sel
    return { s with gs := { s.gs with
      chans := onChannels cs
        (fun c ch => { ch with att := timeCoeff (s.fp.site c) (s.operand 0) s.gs.fs }) s.gs.chans } }.drawn

/-- R313. -/
def execGsSetrelease (sel : ChanSel) (s : State) : Result :=
  conclude s do
    needPrepared s.gs.prepared
    let cs ← channels s.gs.nch sel
    return { s with gs := { s.gs with
      chans := onChannels cs
        (fun c ch => { ch with rel := timeCoeff (s.fp.site c) (s.operand 0) s.gs.fs }) s.gs.chans } }.drawn

/-- R314: the new smoothed gain; more reduction takes the attack coefficient. -/
def gsTrack (e : Fp) (inp : Sample) (ch : GsChannel) : GsChannel :=
  { ch with g := onePole e ch.g inp (if flt e.fmt inp ch.g then ch.att else ch.rel) }

/-- R314. -/
def execGsProcess (c : Nat) (s : State) : Result :=
  conclude s do
    needPrepared s.gs.prepared
    checkChannel s.gs.nch c
    let ch := gsTrack s.fp (s.operand 0) (s.gs.chans.getD c default)
    return ({ s with gs := { s.gs with chans := s.gs.chans.set c ch } }.setRes 0 ch.g).drawn

/-- R315. -/
def execGsRead (c : Nat) (s : State) : Result :=
  conclude s do
    needPrepared s.gs.prepared
    checkChannel s.gs.nch c
    let ch := s.gs.chans.getD c default
    return ((s.setRes 0 ch.g).setRes 1 ch.att).setRes 2 ch.rel

end Sys2Proof.Machine
end

