-- ==== Sys2Proof/Machine/ParameterSmoother.lean ====
section
/-! DEFINITION. The parameter smoother PS (spec/41_parameter_smoother.md). -/

namespace Sys2Proof.Machine

/-! ### Helpers (R160) -/

/-- R160, `Duration`: whole samples, saturated at `LINEAR_MAX_SAMPLES`; 0 for a time that is not positive. -/
def duration (e : Fp) (ms fs : Sample) : Nat :=
  if flt e.fmt (zeroOf e.fmt false) ms then
    match roundInt e.fmt (fmul (e.site 1) (fdiv (e.site 0) ms (ofInteger e.fmt 1000)) fs) with
    | some r => min r Config.linearMaxSamples
    | none => Config.linearMaxSamples
  else 0

/-- R160, `StartRamp`. -/
def startRamp (e : Fp) (p : PsChannel) : PsChannel :=
  if !feq e.fmt p.current p.target && decide (0 < p.dur) then
    { p with
      remaining := p.dur
      inc := fdiv (e.site 1) (fsub (e.site 0) p.target p.current) (ofInteger e.fmt p.dur) }
  else { p with remaining := 0, inc := zeroOf e.fmt false }

/-! ### Steps (R166 to R168) -/

/-- R166. -/
def stepLinear (e : Fp) (p : PsChannel) : PsChannel :=
  if 2 ≤ p.remaining then { p with current := fadd (e.site 0) p.current p.inc, remaining := p.remaining - 1 }
  else { p with current := p.target, remaining := 0 }

/-- R167: the stages from `k` on, each fed the new value of the one before; the last new value comes out. -/
def expStages (e : Fp) (coef : Sample) : Nat → List Sample → Sample → List Sample × Sample
  | _, [], inp => ([], inp)
  | k, st :: rest, inp =>
    let v := onePole (e.site k) st inp coef
    let r := expStages e coef (k + 1) rest v
    (v :: r.1, r.2)

/-- R167. -/
def stepExp (e : Fp) (p : PsChannel) : PsChannel :=
  let r := expStages e p.coef 0 p.stage p.target
  { p with stage := r.1, current := r.2 }

/-- R168. -/
def stepNone (p : PsChannel) : PsChannel := { p with current := p.target }

/-- R165: one step of the algorithm in use. -/
def psStep (e : Fp) : PsAlg → PsChannel → PsChannel
  | .none, p => stepNone p
  | .exp, p => stepExp e p
  | .linear, p => stepLinear e p

/-! ### Commands -/

/-- The channel PS_PREPARE leaves (R43). -/
def psFresh (f : Format) (order : Nat) : PsChannel :=
  let z := zeroOf f false
  { current := z, target := z, stage := List.replicate order z, coef := z, dur := 0, remaining := 0, inc := z }

/-- R103, R161: the order fits the algorithm. -/
def checkOrder (alg : PsAlg) (m : Nat) : Except ErrCode Unit :=
  match alg with
  | .exp => if m < 1 ∨ Config.psMaxOrder < m then .error .badCount else .ok ()
  | .none => if m ≠ 0 then .error .badCount else .ok ()
  | .linear => if m ≠ 0 then .error .badCount else .ok ()

/-- R161. -/
def execPsPrepare (n m : Nat) (alg : PsAlg) (s : State) : Result :=
  conclude s do
    checkCount n s.params.maxChannels
    checkOrder alg m
    checkFs s.params.fmt (s.operand 0)
    return { s with ps :=
      { prepared := true, nch := n, alg := alg, order := m, fs := s.operand 0,
        chans := List.replicate n (psFresh s.params.fmt m) } }

/-- R162. -/
def psSeed (f : Format) (v : Sample) (p : PsChannel) : PsChannel :=
  { p with current := v, target := v, stage := p.stage.map fun _ => v, remaining := 0, inc := zeroOf f false }

/-- R162. -/
def execPsReset (sel : ChanSel) (seeded : Bool) (s : State) : Result :=
  conclude s do
    needPrepared s.ps.prepared
    let cs ← channels s.ps.nch sel
    return { s with ps := { s.ps with
      chans := onChannels cs (fun _ => psSeed s.params.fmt (seedValue seeded s)) s.ps.chans } }

/-- R163: both derived values are stored, and a LINEAR smoother restarts its ramp. -/
def psApplyTime (e : Fp) (alg : PsAlg) (fs t : Sample) (p : PsChannel) : PsChannel :=
  let p' := { p with coef := timeCoeff (e.site 0) t fs, dur := duration (e.site 1) t fs }
  if alg = .linear then startRamp (e.site 2) p' else p'

/-- R163. -/
def execPsSettime (sel : ChanSel) (s : State) : Result :=
  conclude s do
    needPrepared s.ps.prepared
    let cs ← channels s.ps.nch sel
    return { s with ps := { s.ps with
      chans := onChannels cs (fun c => psApplyTime (s.fp.site c) s.ps.alg s.ps.fs (s.operand 0)) s.ps.chans } }.drawn

/-- R164: a LINEAR smoother restarts its ramp when the target is a different value (a NaN always is). -/
def psApplyTarget (e : Fp) (alg : PsAlg) (v : Sample) (p : PsChannel) : PsChannel :=
  if alg = .linear then
    if feq e.fmt v p.target then p else startRamp e { p with target := v }
  else { p with target := v }

/-- R164. -/
def execPsSettarget (sel : ChanSel) (s : State) : Result :=
  conclude s do
    needPrepared s.ps.prepared
    let cs ← channels s.ps.nch sel
    return { s with ps := { s.ps with
      chans := onChannels cs (fun c => psApplyTarget (s.fp.site c) s.ps.alg (s.operand 0)) s.ps.chans } }.drawn

/-- R165. -/
def execPsNext (c : Nat) (s : State) : Result :=
  conclude s do
    needPrepared s.ps.prepared
    checkChannel s.ps.nch c
    let p := psStep s.fp s.ps.alg (s.ps.chans.getD c default)
    return ({ s with ps := { s.ps with chans := s.ps.chans.set c p } }.setRes 0 p.current).drawn

/-- R169. -/
def execPsRead (c : Nat) (s : State) : Result :=
  conclude s do
    needPrepared s.ps.prepared
    checkChannel s.ps.nch c
    let p := s.ps.chans.getD c default
    return ((((s.setRes 0 p.current).setRes 1 p.target).setRes 2 p.coef).setResInt 3 p.remaining).setRes 4 p.inc

/-- R170. -/
def execPsReadstage (c k : Nat) (s : State) : Result :=
  conclude s do
    needPrepared s.ps.prepared
    checkChannel s.ps.nch c
    checkSection s.ps.order k
    return s.setRes 0 ((s.ps.chans.getD c default).stage.getD k (zeroOf s.params.fmt false))

end Sys2Proof.Machine
end

