-- ==== Sys2Proof/Machine/System.lean ====
section
/-! DEFINITION. The system commands NOP and ERRCLR (spec/40_common.md R135, R136). -/

namespace Sys2Proof.Machine

/-- R135: nothing. -/
def execNop (s : State) : Result := .next s

/-- R136: the error record is cleared, and with it the interrupt (R336). -/
def execErrclr (s : State) : Result := .next (errClear s)

end Sys2Proof.Machine
end

