-- ==== Sys2Proof/Machine/Dispatch.lean ====
section
/-! DEFINITION. One arm per command: the meaning of each (spec/30_encoding.md R109). -/

namespace Sys2Proof.Machine

def exec (i : Instr) (s : State) : Host.Outcome State Fault Refusal :=
  match i with
  | .nop => Sys2Proof.Machine.execNop s
  | .errclr => Sys2Proof.Machine.execErrclr s
  | .foPrepare channels sections => Sys2Proof.Machine.execFoPrepare channels sections s
  | .foReset sel => Sys2Proof.Machine.execFoReset sel s
  | .foSetcoef sel sec => Sys2Proof.Machine.execFoSetcoef sel sec s
  | .foProcess ch => Sys2Proof.Machine.execFoProcess ch s
  | .foDesign t => Sys2Proof.Machine.execFoDesign t s
  | .foReadcoef ch sec => Sys2Proof.Machine.execFoReadcoef ch sec s
  | .foReadstate ch sec => Sys2Proof.Machine.execFoReadstate ch sec s
  | .bqPrepare channels sections => Sys2Proof.Machine.execBqPrepare channels sections s
  | .bqReset sel => Sys2Proof.Machine.execBqReset sel s
  | .bqSettype sel sec t => Sys2Proof.Machine.execBqSettype sel sec t s
  | .bqSetfreq sel sec => Sys2Proof.Machine.execBqSetfreq sel sec s
  | .bqSetq sel sec => Sys2Proof.Machine.execBqSetq sel sec s
  | .bqSetgain sel sec => Sys2Proof.Machine.execBqSetgain sel sec s
  | .bqSetcoef sel sec => Sys2Proof.Machine.execBqSetcoef sel sec s
  | .bqProcess ch => Sys2Proof.Machine.execBqProcess ch s
  | .bqReadcoef ch sec => Sys2Proof.Machine.execBqReadcoef ch sec s
  | .bqReadstate ch sec => Sys2Proof.Machine.execBqReadstate ch sec s
  | .bqReadparam ch sec => Sys2Proof.Machine.execBqReadparam ch sec s
  | .psPrepare channels order alg => Sys2Proof.Machine.execPsPrepare channels order alg s
  | .psReset sel seeded => Sys2Proof.Machine.execPsReset sel seeded s
  | .psSettime sel => Sys2Proof.Machine.execPsSettime sel s
  | .psSettarget sel => Sys2Proof.Machine.execPsSettarget sel s
  | .psNext ch => Sys2Proof.Machine.execPsNext ch s
  | .psRead ch => Sys2Proof.Machine.execPsRead ch s
  | .psReadstage ch stage => Sys2Proof.Machine.execPsReadstage ch stage s
  | .efPrepare channels variant => Sys2Proof.Machine.execEfPrepare channels variant s
  | .efReset sel seeded => Sys2Proof.Machine.execEfReset sel seeded s
  | .efSetattack sel mode => Sys2Proof.Machine.execEfSetattack sel mode s
  | .efSetrelease sel mode => Sys2Proof.Machine.execEfSetrelease sel mode s
  | .efProcess ch => Sys2Proof.Machine.execEfProcess ch s
  | .efRead ch => Sys2Proof.Machine.execEfRead ch s
  | .gcSetthresh => Sys2Proof.Machine.execGcSetthresh s
  | .gcSetratio => Sys2Proof.Machine.execGcSetratio s
  | .gcSetknee => Sys2Proof.Machine.execGcSetknee s
  | .gcCompute => Sys2Proof.Machine.execGcCompute s
  | .gcRead => Sys2Proof.Machine.execGcRead s
  | .gsPrepare channels => Sys2Proof.Machine.execGsPrepare channels s
  | .gsReset sel seeded => Sys2Proof.Machine.execGsReset sel seeded s
  | .gsSetattack sel => Sys2Proof.Machine.execGsSetattack sel s
  | .gsSetrelease sel => Sys2Proof.Machine.execGsSetrelease sel s
  | .gsProcess ch => Sys2Proof.Machine.execGsProcess ch s
  | .gsRead ch => Sys2Proof.Machine.execGsRead ch s

end Sys2Proof.Machine
end

