-- ==== Sys2Proof/Machine/Execute.lean ====
section
/-! DEFINITION. What one event at the port does: a host read, a host write, the execution of a command word, a
platform reset (spec/20_memory.md R83, R87; spec/40_common.md R130; spec/70_reset_and_hazards.md R360). -/

namespace Sys2Proof.Machine

/-- R130, `execute(w)`: a word that does not decode raises its error; a command runs. -/
def execute (w : Word) (s : State) : Result :=
  match decode w with
  | .error e => .next (errorProc e w s)
  | .ok i => exec i s

/-- R87, `MemRead`: the value goes to the host (R377). -/
def hostRead (addr bytes : Nat) (s : State) : Result :=
  match busOffset s.params addr bytes with
  | .error f => .fault f
  | .ok o => .next { s with readLog := s.readLog ++ [readReg s o] }

/-- R87, `MemWrite`: a write to `CMD` executes the word, any other stores. -/
def hostWrite (addr bytes : Nat) (v : Word) (s : State) : Result :=
  match busOffset s.params addr bytes with
  | .error f => .fault f
  | .ok o => if o = cmdOffset then execute v (acceptCommand v s) else .next (writeReg s v o)

/-- One event at the port (R88), in the state in which it has left the port. -/
def handle (ev : HostEvent) (s : State) : Result :=
  match ev with
  | .read addr bytes => hostRead addr bytes s
  | .write addr bytes v => hostWrite addr bytes v s
  | .reset => .next (hardReset s)

end Sys2Proof.Machine
end

