-- ==== Sys2Proof/Machine/Step.lean ====
section
/-! DEFINITION. One step: the next event at the port (spec/00_scope.md R16; spec/20_memory.md R88; log 4). -/

namespace Sys2Proof.Machine

/-- The port performs its accesses one at a time, in order, each to completion (R88). With none left the core is idle
and holds its state (R16, R343). -/
def step (s : State) : Host.Outcome State Fault Refusal :=
  match s.port with
  | [] => .next s
  | ev :: rest => handle ev { s with port := rest }

/-- The host's next access writes the command word made of the bits `w` to `CMD` (R31, R39; log 4): the core fetches
no instruction, so this is where its next one comes from. -/
def State.withFetchWord (s : State) (nbits w : Nat) : State :=
  { s with port := .write (s.params.base + cmdOffset) 4 (BitVec.ofNat 32 (w % 2 ^ nbits)) :: s.port }

end Sys2Proof.Machine
end

