-- ==== Sys2Proof/Safety.lean ====
section
/-! DEFINITION. What the claims call a legal state and a safe run: the ranges spec/00_scope.md R7 gives the
parameters, the invariant that the unit state of spec/10_state.md R41 to R47 keeps, the accesses the core admits
(spec/20_memory.md R83, R84), and a run that recorded no error (spec/70_reset_and_hazards.md R377). -/

namespace Sys2Proof.Machine

/-- The encoding fits the format: bits 63:32 are 0 in binary32 (R35). -/
def Fits (f : Format) (x : Sample) : Prop := x.toNat < 2 ^ (f.signPos + 1)

/-- R7, R84: the parameters' ranges. -/
structure ValidParams (p : Params) : Prop where
  channels : 1 ≤ p.maxChannels ∧ p.maxChannels ≤ 255
  sections : 1 ≤ p.maxSections ∧ p.maxSections ≤ 255
  scale : positiveFinite p.fmt p.perceptualScale = true ∧ Fits p.fmt p.perceptualScale
  base : p.base % 256 = 0

/-- A coefficient that `TimeCoeff` made lies in [+0, 1] (R134). -/
def UnitRange (f : Format) (x : Sample) : Prop :=
  fle f (zeroOf f false) x = true ∧ fle f x (ofInteger f 1) = true

/-- R41, R47. -/
structure FoInv (p : Params) (u : FoUnit) : Prop where
  idle : u.prepared = false → u = (State.resetWith p).fo
  counts : u.prepared = true → (1 ≤ u.nch ∧ u.nch ≤ p.maxChannels) ∧ 1 ≤ u.nsec ∧ u.nsec ≤ p.maxSections
  channelCount : u.sections.length = u.nch
  sectionCount : ∀ chain ∈ u.sections, chain.length = u.nsec
  fits : ∀ chain ∈ u.sections, ∀ σ ∈ chain,
    Fits p.fmt σ.b0 ∧ Fits p.fmt σ.b1 ∧ Fits p.fmt σ.a1 ∧ Fits p.fmt σ.xp ∧ Fits p.fmt σ.yp

/-- R42, R47; the parameters are ones the setters accept (R234 to R236). -/
structure BqInv (p : Params) (u : BqUnit) : Prop where
  idle : u.prepared = false → u = (State.resetWith p).bq
  counts : u.prepared = true → (1 ≤ u.nch ∧ u.nch ≤ p.maxChannels) ∧ 1 ≤ u.nsec ∧ u.nsec ≤ p.maxSections
  channelCount : u.sections.length = u.nch
  sectionCount : ∀ chain ∈ u.sections, chain.length = u.nsec
  parameters : ∀ chain ∈ u.sections, ∀ σ ∈ chain,
    validFreq p.fmt σ.freq = true ∧ positiveFinite p.fmt σ.q = true ∧ validGainDb p.fmt σ.gdb = true
  fits : ∀ chain ∈ u.sections, ∀ σ ∈ chain,
    (Fits p.fmt σ.freq ∧ Fits p.fmt σ.q ∧ Fits p.fmt σ.gdb) ∧
    (Fits p.fmt σ.b0 ∧ Fits p.fmt σ.b1 ∧ Fits p.fmt σ.b2 ∧ Fits p.fmt σ.a1 ∧ Fits p.fmt σ.a2) ∧
    (Fits p.fmt σ.x1 ∧ Fits p.fmt σ.x2 ∧ Fits p.fmt σ.y1 ∧ Fits p.fmt σ.y2)

/-- R43, R47, R103, R160. -/
structure PsInv (p : Params) (u : PsUnit) : Prop where
  idle : u.prepared = false → u = (State.resetWith p).ps
  counts : u.prepared = true → (1 ≤ u.nch ∧ u.nch ≤ p.maxChannels) ∧ positiveFinite p.fmt u.fs = true
  order : (u.alg = .exp → 1 ≤ u.order ∧ u.order ≤ 8) ∧ (u.alg ≠ .exp → u.order = 0)
  rate : Fits p.fmt u.fs
  channelCount : u.chans.length = u.nch
  stages : ∀ ch ∈ u.chans, ch.stage.length = u.order
  ramp : ∀ ch ∈ u.chans, ch.dur ≤ Config.linearMaxSamples ∧ ch.remaining ≤ ch.dur ∧ (u.alg ≠ .linear → ch.remaining = 0)
  coefficient : ∀ ch ∈ u.chans, UnitRange p.fmt ch.coef
  fits : ∀ ch ∈ u.chans, Fits p.fmt ch.current ∧ Fits p.fmt ch.target ∧ Fits p.fmt ch.coef ∧ Fits p.fmt ch.inc ∧
    ∀ v ∈ ch.stage, Fits p.fmt v

/-- R44, R47. -/
structure EfInv (p : Params) (u : EfUnit) : Prop where
  idle : u.prepared = false → u = (State.resetWith p).ef
  counts : u.prepared = true → (1 ≤ u.nch ∧ u.nch ≤ p.maxChannels) ∧ positiveFinite p.fmt u.fs = true
  rate : Fits p.fmt u.fs
  channelCount : u.chans.length = u.nch
  coefficients : ∀ ch ∈ u.chans, UnitRange p.fmt ch.att ∧ UnitRange p.fmt ch.rel
  fits : ∀ ch ∈ u.chans, Fits p.fmt ch.env ∧ Fits p.fmt ch.att ∧ Fits p.fmt ch.rel

/-- R45: the ratio is at least 1, the knee at least 0. -/
structure GcInv (p : Params) (u : GcUnit) : Prop where
  ratio : fle p.fmt (ofInteger p.fmt 1) u.ratio = true
  knee : fle p.fmt (zeroOf p.fmt false) u.knee = true
  fits : Fits p.fmt u.thr ∧ Fits p.fmt u.ratio ∧ Fits p.fmt u.knee

/-- R46, R47. -/
structure GsInv (p : Params) (u : GsUnit) : Prop where
  idle : u.prepared = false → u = (State.resetWith p).gs
  counts : u.prepared = true → (1 ≤ u.nch ∧ u.nch ≤ p.maxChannels) ∧ positiveFinite p.fmt u.fs = true
  rate : Fits p.fmt u.fs
  channelCount : u.chans.length = u.nch
  coefficients : ∀ ch ∈ u.chans, UnitRange p.fmt ch.att ∧ UnitRange p.fmt ch.rel
  fits : ∀ ch ∈ u.chans, Fits p.fmt ch.g ∧ Fits p.fmt ch.att ∧ Fits p.fmt ch.rel

/-- The invariant of the machine: legal parameters; an error record exactly when `STATUS.ERR` is set (R38, R330);
result registers that hold samples of the format or 32-bit integers (R35); legal unit state (R41 to R47). -/
structure Inv (s : State) : Prop where
  params : ValidParams s.params
  noRecord : s.err = false → s.errcode = 0 ∧ s.errcmd = 0
  record : s.err = true → 1 ≤ s.errcode.toNat ∧ s.errcode.toNat ≤ 0x0B
  results : ∀ k : Fin 5, Fits s.params.fmt (s.res.get k)
  fo : FoInv s.params s.fo
  bq : BqInv s.params s.bq
  ps : PsInv s.params s.ps
  ef : EfInv s.params s.ef
  gc : GcInv s.params s.gc
  gs : GsInv s.params s.gs

/-- An access the core admits: 32 bits, aligned, in the window (R83, R84); a reset is no access. -/
def Admitted (p : Params) : HostEvent → Bool
  | .read addr bytes => decide (p.base ≤ addr ∧ addr < p.base + 256 ∧ bytes = 4 ∧ (addr - p.base) % 4 = 0)
  | .write addr bytes _ => decide (p.base ≤ addr ∧ addr < p.base + 256 ∧ bytes = 4 ∧ (addr - p.base) % 4 = 0)
  | .reset => true

/-- R377: the run has ended, and every command of it since the last clearing succeeded. -/
def EndedWithoutError (s : State) : Bool := s.port.isEmpty && !s.err

end Sys2Proof.Machine
end

