-- ==== Sys2Proof/Certificates/Slice0/Obligations.lean ====
section
/-! DEFINITION. The statements about JDSP-CORE, from the numbered rules of spec/. A NaN payload is a free value
(R12; log 2): where a statement gives a rounded result it says so for SOME key of the payload draw, so that nothing
rests on what a draw is. -/

namespace Sys2Proof.Claims

open Sys2Proof.Machine

/-! ### Words the statements share -/

/-- +0 and 1 of a format. -/
def z (f : Format) : Sample := zeroOf f false
def one (f : Format) : Sample := ofInteger f 1
def two (f : Format) : Sample := ofInteger f 2

/-- R132: the channel field names a prepared channel, or all of them. -/
def inRange (nch : Nat) : ChanSel → Bool
  | .all => true
  | .one c => decide (c < nch)

/-- R104: the channels a `ch/ALL` field acts on. -/
def hits (nch : Nat) : ChanSel → Nat → Bool
  | .all, c => decide (c < nch)
  | .one k, c => decide (c = k)

/-- R195, R234: `x > 0 and x ≤ 0.5`. -/
def GoodFrequency (f : Format) (x : Sample) : Prop := flt f (z f) x = true ∧ fle f x (ofRatio f 1 2) = true

/-- R133, R195, R235: `x > 0 and x < +∞`. -/
def GoodPositive (f : Format) (x : Sample) : Prop := flt f (z f) x = true ∧ flt f x (infOf f false) = true

/-- R236: `x > −∞ and x < +∞`. -/
def GoodDecibels (f : Format) (x : Sample) : Prop :=
  flt f (infOf f true) x = true ∧ flt f x (infOf f false) = true

/-! ### The opcode map of R109, by hand: opcode; the fields of role `zero` (CH, SEC, SUB); the number of legal `SUB`
codes where SUB has another role (R105) -/

structure MapRow where
  opc : Nat
  chZero : Bool
  secZero : Bool
  subZero : Bool
  subCodes : Nat

def opcodeMap : List MapRow :=
  [⟨0x00, true, true, true, 1⟩, ⟨0x01, true, true, true, 1⟩,
   ⟨0x10, false, false, true, 1⟩, ⟨0x11, false, true, true, 1⟩, ⟨0x12, false, false, true, 1⟩,
   ⟨0x13, false, true, true, 1⟩, ⟨0x14, true, true, false, 5⟩, ⟨0x15, false, false, true, 1⟩,
   ⟨0x16, false, false, true, 1⟩,
   ⟨0x20, false, false, true, 1⟩, ⟨0x21, false, true, true, 1⟩, ⟨0x22, false, false, false, 8⟩,
   ⟨0x23, false, false, true, 1⟩, ⟨0x24, false, false, true, 1⟩, ⟨0x25, false, false, true, 1⟩,
   ⟨0x26, false, false, true, 1⟩, ⟨0x27, false, true, true, 1⟩, ⟨0x28, false, false, true, 1⟩,
   ⟨0x29, false, false, true, 1⟩, ⟨0x2A, false, false, true, 1⟩]
  ++
  [⟨0x30, false, false, false, 3⟩, ⟨0x31, false, true, false, 2⟩, ⟨0x32, false, true, true, 1⟩,
   ⟨0x33, false, true, true, 1⟩, ⟨0x34, false, true, true, 1⟩, ⟨0x35, false, true, true, 1⟩,
   ⟨0x36, false, false, true, 1⟩,
   ⟨0x40, false, true, false, 2⟩, ⟨0x41, false, true, false, 2⟩, ⟨0x42, false, true, false, 2⟩,
   ⟨0x43, false, true, false, 2⟩, ⟨0x44, false, true, true, 1⟩, ⟨0x45, false, true, true, 1⟩,
   ⟨0x50, true, true, true, 1⟩, ⟨0x51, true, true, true, 1⟩, ⟨0x52, true, true, true, 1⟩,
   ⟨0x53, true, true, true, 1⟩, ⟨0x54, true, true, true, 1⟩,
   ⟨0x60, false, true, true, 1⟩, ⟨0x61, false, true, false, 2⟩, ⟨0x62, false, true, true, 1⟩,
   ⟨0x63, false, true, true, 1⟩, ⟨0x64, false, true, true, 1⟩, ⟨0x65, false, true, true, 1⟩]

/-- R112, line by line, over the map: the error a word raises at decode, if any. -/
def decodeError (w : Word) : Option ErrCode :=
  let opc := w.toNat % 256
  let ch := w.toNat / 256 % 256
  let sec := w.toNat / 65536 % 256
  let sub := w.toNat / 16777216 % 16
  let rsv := w.toNat / 268435456
  match opcodeMap.find? (fun r => r.opc == opc) with
  | none => some .illegalOpcode
  | some r =>
    if rsv ≠ 0 then some .reservedField
    else if (r.chZero ∧ ch ≠ 0) ∨ (r.secZero ∧ sec ≠ 0) ∨ (r.subZero ∧ sub ≠ 0) then some .reservedField
    else if r.subZero = false ∧ r.subCodes ≤ sub then some .badSubcode
    else none

/-! ### The checks of every command, in the order of R333 (2 to 7) -/

/-- A code and whether its check fails. -/
abbrev Check := ErrCode × Bool

def prepCheck (prepared : Bool) : Check := (.notPrepared, !prepared)
def countCheck (n max : Nat) : Check := (.badCount, decide (n < 1) || decide (max < n))
def chCheck (nch c : Nat) : Check := (.channelRange, decide (nch ≤ c))
def selCheck (nch : Nat) (sel : ChanSel) : Check := (.channelRange, !inRange nch sel)
def secCheck (nsec k : Nat) : Check := (.sectionRange, decide (nsec ≤ k))
def rateCheck (s : State) : Check :=
  (.badSampleRate, !(flt s.params.fmt (z s.params.fmt) (s.operand 0)
    && flt s.params.fmt (s.operand 0) (infOf s.params.fmt false)))
def freqCheck (s : State) : Check :=
  (.badFrequency, !(flt s.params.fmt (z s.params.fmt) (s.operand 0)
    && fle s.params.fmt (s.operand 0) (ofRatio s.params.fmt 1 2)))
def qCheck (s : State) : Check :=
  (.badQ, !(flt s.params.fmt (z s.params.fmt) (s.operand 0)
    && flt s.params.fmt (s.operand 0) (infOf s.params.fmt false)))
def shelfGainCheck (s : State) : Check :=
  (.badGain, !(flt s.params.fmt (z s.params.fmt) (s.operand 1)
    && flt s.params.fmt (s.operand 1) (infOf s.params.fmt false)))
def dbGainCheck (s : State) : Check :=
  (.badGain, !(flt s.params.fmt (infOf s.params.fmt true) (s.operand 0)
    && flt s.params.fmt (s.operand 0) (infOf s.params.fmt false)))

/-- R161: the order fits the algorithm. -/
def orderCheck (alg : PsAlg) (m : Nat) : Check :=
  (.badCount, match alg with
    | .exp => decide (m < 1) || decide (8 < m)
    | .none => decide (m ≠ 0)
    | .linear => decide (m ≠ 0))

/-- The checks each command's rule lists, in R333's order. -/
def checksOf (s : State) : Instr → List Check
  | .nop => []
  | .errclr => []
  | .foPrepare n m => [countCheck n s.params.maxChannels, countCheck m s.params.maxSections]
  | .foReset l => [prepCheck s.fo.prepared, selCheck s.fo.nch l]
  | .foSetcoef l k => [prepCheck s.fo.prepared, selCheck s.fo.nch l, secCheck s.fo.nsec k]
  | .foProcess c => [prepCheck s.fo.prepared, chCheck s.fo.nch c]
  | .foDesign t =>
    freqCheck s :: (match t with
      | .lowshelf => [shelfGainCheck s]
      | .highshelf => [shelfGainCheck s]
      | .lowpass => []
      | .highpass => []
      | .allpass => [])
  | .foReadcoef c k => [prepCheck s.fo.prepared, chCheck s.fo.nch c, secCheck s.fo.nsec k]
  | .foReadstate c k => [prepCheck s.fo.prepared, chCheck s.fo.nch c, secCheck s.fo.nsec k]
  | .bqPrepare n m => [countCheck n s.params.maxChannels, countCheck m s.params.maxSections]
  | .bqReset l => [prepCheck s.bq.prepared, selCheck s.bq.nch l]
  | .bqSettype l k _ => [prepCheck s.bq.prepared, selCheck s.bq.nch l, secCheck s.bq.nsec k]
  | .bqSetfreq l k => [prepCheck s.bq.prepared, selCheck s.bq.nch l, secCheck s.bq.nsec k, freqCheck s]
  | .bqSetq l k => [prepCheck s.bq.prepared, selCheck s.bq.nch l, secCheck s.bq.nsec k, qCheck s]
  | .bqSetgain l k => [prepCheck s.bq.prepared, selCheck s.bq.nch l, secCheck s.bq.nsec k, dbGainCheck s]
  | .bqSetcoef l k => [prepCheck s.bq.prepared, selCheck s.bq.nch l, secCheck s.bq.nsec k]
  | .bqProcess c => [prepCheck s.bq.prepared, chCheck s.bq.nch c]
  | .bqReadcoef c k => [prepCheck s.bq.prepared, chCheck s.bq.nch c, secCheck s.bq.nsec k]
  | .bqReadstate c k => [prepCheck s.bq.prepared, chCheck s.bq.nch c, secCheck s.bq.nsec k]
  | .bqReadparam c k => [prepCheck s.bq.prepared, chCheck s.bq.nch c, secCheck s.bq.nsec k]
  | .psPrepare n m a => [countCheck n s.params.maxChannels, orderCheck a m, rateCheck s]
  | .psReset l _ => [prepCheck s.ps.prepared, selCheck s.ps.nch l]
  | .psSettime l => [prepCheck s.ps.prepared, selCheck s.ps.nch l]
  | .psSettarget l => [prepCheck s.ps.prepared, selCheck s.ps.nch l]
  | .psNext c => [prepCheck s.ps.prepared, chCheck s.ps.nch c]
  | .psRead c => [prepCheck s.ps.prepared, chCheck s.ps.nch c]
  | .psReadstage c k => [prepCheck s.ps.prepared, chCheck s.ps.nch c, secCheck s.ps.order k]
  | .efPrepare n _ => [countCheck n s.params.maxChannels, rateCheck s]
  | .efReset l _ => [prepCheck s.ef.prepared, selCheck s.ef.nch l]
  | .efSetattack l _ => [prepCheck s.ef.prepared, selCheck s.ef.nch l]
  | .efSetrelease l _ => [prepCheck s.ef.prepared, selCheck s.ef.nch l]
  | .efProcess c => [prepCheck s.ef.prepared, chCheck s.ef.nch c]
  | .efRead c => [prepCheck s.ef.prepared, chCheck s.ef.nch c]
  | .gcSetthresh => []
  | .gcSetratio => []
  | .gcSetknee => []
  | .gcCompute => []
  | .gcRead => []
  | .gsPrepare n => [countCheck n s.params.maxChannels, rateCheck s]
  | .gsReset l _ => [prepCheck s.gs.prepared, selCheck s.gs.nch l]
  | .gsSetattack l => [prepCheck s.gs.prepared, selCheck s.gs.nch l]
  | .gsSetrelease l => [prepCheck s.gs.prepared, selCheck s.gs.nch l]
  | .gsProcess c => [prepCheck s.gs.prepared, chCheck s.gs.nch c]
  | .gsRead c => [prepCheck s.gs.prepared, chCheck s.gs.nch c]

/-- The code of the first check that fails. -/
def firstFailure (s : State) (i : Instr) : Option ErrCode :=
  ((checksOf s i).find? (fun c => c.2)).map (fun c => c.1)

/-! ### What a command addresses, reads and writes (R109) -/

/-- The six units (R2). -/
inductive Unit6 where
  | fo | bq | ps | ef | gc | gs
deriving DecidableEq, Repr

/-- The unit a command belongs to; FO_DESIGN is stateless (R195). -/
def unitOf : Instr → Option Unit6
  | .nop | .errclr | .foDesign _ => none
  | .foPrepare _ _ | .foReset _ | .foSetcoef _ _ | .foProcess _ | .foReadcoef _ _ | .foReadstate _ _ => some .fo
  | .bqPrepare _ _ | .bqReset _ | .bqSettype _ _ _ | .bqSetfreq _ _ | .bqSetq _ _ | .bqSetgain _ _ | .bqSetcoef _ _
  | .bqProcess _ | .bqReadcoef _ _ | .bqReadstate _ _ | .bqReadparam _ _ => some .bq
  | .psPrepare _ _ _ | .psReset _ _ | .psSettime _ | .psSettarget _ | .psNext _ | .psRead _ | .psReadstage _ _ => some .ps
  | .efPrepare _ _ | .efReset _ _ | .efSetattack _ _ | .efSetrelease _ _ | .efProcess _ | .efRead _ => some .ef
  | .gcSetthresh | .gcSetratio | .gcSetknee | .gcCompute | .gcRead => some .gc
  | .gsPrepare _ | .gsReset _ _ | .gsSetattack _ | .gsSetrelease _ | .gsProcess _ | .gsRead _ => some .gs

/-- The one channel a command addresses; `none` for a PREPARE, a broadcast, and a command without a channel. -/
def channelOf : Instr → Option Nat
  | .foReset (.one c) | .foSetcoef (.one c) _ | .foProcess c | .foReadcoef c _ | .foReadstate c _ => some c
  | .bqReset (.one c) | .bqSettype (.one c) _ _ | .bqSetfreq (.one c) _ | .bqSetq (.one c) _ => some c
  | .bqSetgain (.one c) _ | .bqSetcoef (.one c) _ | .bqProcess c | .bqReadcoef c _ | .bqReadstate c _ => some c
  | .bqReadparam c _ => some c
  | .psReset (.one c) _ | .psSettime (.one c) | .psSettarget (.one c) | .psNext c | .psRead c | .psReadstage c _ => some c
  | .efReset (.one c) _ | .efSetattack (.one c) _ | .efSetrelease (.one c) _ | .efProcess c | .efRead c => some c
  | .gsReset (.one c) _ | .gsSetattack (.one c) | .gsSetrelease (.one c) | .gsProcess c | .gsRead c => some c
  | _ => none

/-- The operand registers R109 lists for a command; a seed only when `SUB` = 1, a shelf gain only for the shelves. -/
def operandsOf : Instr → List (Fin 5)
  | .foSetcoef _ _ => [0, 1, 2]
  | .foProcess _ => [0]
  | .foDesign .lowshelf | .foDesign .highshelf => [0, 1]
  | .foDesign .lowpass | .foDesign .highpass | .foDesign .allpass => [0]
  | .bqSetfreq _ _ | .bqSetq _ _ | .bqSetgain _ _ => [0]
  | .bqSetcoef _ _ => [0, 1, 2, 3, 4]
  | .bqProcess _ => [0]
  | .psPrepare _ _ _ => [0]
  | .psReset _ true | .efReset _ true | .gsReset _ true => [0]
  | .psSettime _ | .psSettarget _ => [0]
  | .efPrepare _ _ | .efSetattack _ _ | .efSetrelease _ _ | .efProcess _ => [0]
  | .gcSetthresh | .gcSetratio | .gcSetknee | .gcCompute => [0]
  | .gsPrepare _ | .gsSetattack _ | .gsSetrelease _ | .gsProcess _ => [0]
  | _ => []

/-- The result registers R109 lists for a command. -/
def resultsOf : Instr → List (Fin 5)
  | .foProcess _ | .bqProcess _ | .psNext _ | .psReadstage _ _ | .efProcess _ | .gsProcess _ => [0]
  | .foDesign _ | .foReadcoef _ _ | .gcRead | .gsRead _ => [0, 1, 2]
  | .foReadstate _ _ | .gcCompute => [0, 1]
  | .bqReadcoef _ _ | .psRead _ => [0, 1, 2, 3, 4]
  | .bqReadstate _ _ | .bqReadparam _ _ | .efRead _ => [0, 1, 2, 3]
  | _ => []

/-- Two states that agree on everything except the arrays' other channels. -/
def AgreeOnChannel (c : Nat) (s r : State) : Prop :=
  r = { s with
    fo := { s.fo with sections := r.fo.sections }
    bq := { s.bq with sections := r.bq.sections }
    ps := { s.ps with chans := r.ps.chans }
    ef := { s.ef with chans := r.ef.chans }
    gs := { s.gs with chans := r.gs.chans } } ∧
  r.fo.sections[c]? = s.fo.sections[c]? ∧ r.bq.sections[c]? = s.bq.sections[c]? ∧
  r.ps.chans[c]? = s.ps.chans[c]? ∧ r.ef.chans[c]? = s.ef.chans[c]? ∧ r.gs.chans[c]? = s.gs.chans[c]?

/-! ### Difference equations and designs, as the rules write them -/

/-- R190: `y` is `((b0 ⊗ x) ⊕ (b1 ⊗ xp)) ⊖ (a1 ⊗ yp)`, for some draws. -/
def FoEquation (f : Format) (σ : FoSection) (x y : Sample) : Prop :=
  ∃ k0 k1 k2 k3 k4 : List Nat,
    y = fsub ⟨f, k4⟩ (fadd ⟨f, k2⟩ (fmul ⟨f, k0⟩ σ.b0 x) (fmul ⟨f, k1⟩ σ.b1 σ.xp)) (fmul ⟨f, k3⟩ σ.a1 σ.yp)

/-- R220, for some draws. -/
def BqEquation (f : Format) (σ : BqSection) (x y : Sample) : Prop :=
  ∃ k : Nat → List Nat,
    y = fsub ⟨f, k 8⟩
          (fsub ⟨f, k 7⟩
            (fadd ⟨f, k 6⟩ (fadd ⟨f, k 5⟩ (fmul ⟨f, k 0⟩ σ.b0 x) (fmul ⟨f, k 1⟩ σ.b1 σ.x1)) (fmul ⟨f, k 2⟩ σ.b2 σ.x2))
            (fmul ⟨f, k 3⟩ σ.a1 σ.y1))
          (fmul ⟨f, k 4⟩ σ.a2 σ.y2)

/-- R137: `y` is `in ⊕ (c ⊗ (s ⊖ in))`, for some draws. -/
def OnePoleEquation (f : Format) (s inp c y : Sample) : Prop :=
  ∃ k0 k1 k2 : List Nat, y = fadd ⟨f, k2⟩ inp (fmul ⟨f, k1⟩ c (fsub ⟨f, k0⟩ s inp))

/-- R134: `y` is `TimeCoeff(ms, fs)`, for some draws. -/
def TimeCoeffEquation (f : Format) (ms fs y : Sample) : Prop :=
  if flt f (z f) ms = true then
    ∃ k0 k1 k2 k3 : List Nat,
      y = fexp ⟨f, k3⟩ (fneg f (fdiv ⟨f, k2⟩ (one f) (fmul ⟨f, k1⟩ (fdiv ⟨f, k0⟩ ms (ofInteger f 1000)) fs)))
  else y = z f

/-- R160: `d` is `Duration(ms, fs)`; `none` is an infinite number of samples. -/
def DurationEquation (f : Format) (ms fs : Sample) (d : Nat) : Prop :=
  if flt f (z f) ms = true then
    ∃ k0 k1 : List Nat,
      d = match roundInt f (fmul ⟨f, k1⟩ (fdiv ⟨f, k0⟩ ms (ofInteger f 1000)) fs) with
        | some r => if 4294967295 < r then 4294967295 else r
        | none => 4294967295
  else d = 0

/-- R160, `StartRamp`, from `p` to `q`. -/
def RampStarted (f : Format) (p q : PsChannel) : Prop :=
  q = { p with remaining := q.remaining, inc := q.inc } ∧
  if feq f p.current p.target = false ∧ 0 < p.dur then
    q.remaining = p.dur ∧
    ∃ k0 k1 : List Nat, q.inc = fdiv ⟨f, k1⟩ (fsub ⟨f, k0⟩ p.target p.current) (ofInteger f p.dur)
  else q.remaining = 0 ∧ q.inc = z f

/-- R196 to R200: `r` are the results of a first-order design, for some draws. -/
def FoDesignEquation (f : Format) (x g : Sample) (r : Bank) : FoType → Prop
  | .lowpass => ∃ (k : Nat → List Nat) (θ γ : Sample),
      θ = fmul ⟨f, k 1⟩ (fmul ⟨f, k 0⟩ (two f) (piOf f)) x ∧
      γ = fdiv ⟨f, k 5⟩ (fcos ⟨f, k 2⟩ θ) (fadd ⟨f, k 4⟩ (one f) (fsin ⟨f, k 3⟩ θ)) ∧
      r.w2 = fneg f γ ∧ r.w0 = fdiv ⟨f, k 7⟩ (fsub ⟨f, k 6⟩ (one f) γ) (two f) ∧ r.w1 = r.w0
  | .highpass => ∃ (k : Nat → List Nat) (x' : Sample),
      x' = fexp ⟨f, k 2⟩ (fneg f (fmul ⟨f, k 1⟩ (fmul ⟨f, k 0⟩ (two f) (piOf f)) x)) ∧
      r.w0 = fdiv ⟨f, k 4⟩ (fadd ⟨f, k 3⟩ (one f) x') (two f) ∧ r.w1 = fneg f r.w0 ∧ r.w2 = x'
  | .allpass => ∃ (k : Nat → List Nat) (x' : Sample),
      x' = fexp ⟨f, k 2⟩ (fneg f (fmul ⟨f, k 1⟩ (fmul ⟨f, k 0⟩ (two f) (piOf f)) x)) ∧
      r.w0 = x' ∧ r.w1 = one f ∧ r.w2 = x'
  | .lowshelf => ∃ (k : Nat → List Nat) (t s d : Sample),
      t = ftan ⟨f, k 3⟩ (fdiv ⟨f, k 2⟩ (fmul ⟨f, k 1⟩ (fmul ⟨f, k 0⟩ (two f) (piOf f)) x) (two f)) ∧
      s = fsqrt ⟨f, k 4⟩ g ∧ d = fadd ⟨f, k 5⟩ t s ∧
      r.w0 = fdiv ⟨f, k 8⟩ (fadd ⟨f, k 7⟩ (fmul ⟨f, k 6⟩ g t) s) d ∧
      r.w1 = fdiv ⟨f, k 11⟩ (fsub ⟨f, k 10⟩ (fmul ⟨f, k 9⟩ g t) s) d ∧
      r.w2 = fdiv ⟨f, k 13⟩ (fsub ⟨f, k 12⟩ t s) d
  | .highshelf => ∃ (k : Nat → List Nat) (t s d : Sample),
      t = ftan ⟨f, k 3⟩ (fdiv ⟨f, k 2⟩ (fmul ⟨f, k 1⟩ (fmul ⟨f, k 0⟩ (two f) (piOf f)) x) (two f)) ∧
      s = fsqrt ⟨f, k 4⟩ g ∧ d = fadd ⟨f, k 5⟩ t s ∧
      r.w0 = fdiv ⟨f, k 8⟩ (fadd ⟨f, k 7⟩ (fmul ⟨f, k 6⟩ g t) s) d ∧
      r.w1 = fneg f (fdiv ⟨f, k 11⟩ (fsub ⟨f, k 10⟩ (fmul ⟨f, k 9⟩ g t) s) d) ∧
      r.w2 = fdiv ⟨f, k 13⟩ (fsub ⟨f, k 12⟩ t s) d

/-- R223 to R230: the raw design of a type; `p k` is where the `k`-th operation draws. -/
def rawDesign (f : Format) (p : Nat → Fp) (cw α a : Sample) : BqType → BqRaw
  | .lowpass =>
    { n0 := fdiv (p 1) (fsub (p 0) (one f) cw) (two f), n1 := fsub (p 0) (one f) cw,
      n2 := fdiv (p 2) (fsub (p 0) (one f) cw) (two f),
      d0 := fadd (p 3) (one f) α, d1 := fneg f (fmul (p 4) (two f) cw), d2 := fsub (p 5) (one f) α }
  | .highpass =>
    { n0 := fdiv (p 1) (fadd (p 0) (one f) cw) (two f), n1 := fneg f (fadd (p 0) (one f) cw),
      n2 := fdiv (p 2) (fadd (p 0) (one f) cw) (two f),
      d0 := fadd (p 3) (one f) α, d1 := fneg f (fmul (p 4) (two f) cw), d2 := fsub (p 5) (one f) α }
  | .bandpass =>
    { n0 := α, n1 := z f, n2 := fneg f α,
      d0 := fadd (p 3) (one f) α, d1 := fneg f (fmul (p 4) (two f) cw), d2 := fsub (p 5) (one f) α }
  | .allpass =>
    { n0 := fsub (p 0) (one f) α, n1 := fneg f (fmul (p 1) (two f) cw), n2 := fadd (p 2) (one f) α,
      d0 := fadd (p 3) (one f) α, d1 := fneg f (fmul (p 4) (two f) cw), d2 := fsub (p 5) (one f) α }
  | .notch =>
    { n0 := one f, n1 := fneg f (fmul (p 1) (two f) cw), n2 := one f,
      d0 := fadd (p 3) (one f) α, d1 := fneg f (fmul (p 4) (two f) cw), d2 := fsub (p 5) (one f) α }
  | .peak =>
    { n0 := fadd (p 1) (one f) (fmul (p 0) α a), n1 := fneg f (fmul (p 2) (two f) cw),
      n2 := fsub (p 4) (one f) (fmul (p 3) α a),
      d0 := fadd (p 6) (one f) (fdiv (p 5) α a), d1 := fneg f (fmul (p 7) (two f) cw),
      d2 := fsub (p 9) (one f) (fdiv (p 8) α a) }
  | .lowshelf =>
    let k := fmul (p 2) (fmul (p 1) (two f) (fsqrt (p 0) a)) α
    let ap := fadd (p 3) a (one f)
    let am := fsub (p 4) a (one f)
    { n0 := fmul (p 8) a (fadd (p 7) (fsub (p 6) ap (fmul (p 5) am cw)) k)
      n1 := fmul (p 12) (fmul (p 11) (two f) a) (fsub (p 10) am (fmul (p 9) ap cw))
      n2 := fmul (p 16) a (fsub (p 15) (fsub (p 14) ap (fmul (p 13) am cw)) k)
      d0 := fadd (p 19) (fadd (p 18) ap (fmul (p 17) am cw)) k
      d1 := fneg f (fmul (p 22) (two f) (fadd (p 21) am (fmul (p 20) ap cw)))
      d2 := fsub (p 25) (fadd (p 24) ap (fmul (p 23) am cw)) k }
  | .highshelf =>
    let k := fmul (p 2) (fmul (p 1) (two f) (fsqrt (p 0) a)) α
    let ap := fadd (p 3) a (one f)
    let am := fsub (p 4) a (one f)
    { n0 := fmul (p 8) a (fadd (p 7) (fadd (p 6) ap (fmul (p 5) am cw)) k)
      n1 := fmul (p 12) (fneg f (fmul (p 11) (two f) a)) (fadd (p 10) am (fmul (p 9) ap cw))
      n2 := fmul (p 16) a (fsub (p 15) (fadd (p 14) ap (fmul (p 13) am cw)) k)
      d0 := fadd (p 19) (fsub (p 18) ap (fmul (p 17) am cw)) k
      d1 := fmul (p 22) (two f) (fsub (p 21) am (fmul (p 20) ap cw))
      d2 := fsub (p 25) (fsub (p 24) ap (fmul (p 23) am cw)) k }

/-- R222: `τ` is `σ` with the coefficients recomputed from its parameters, for some draws; nothing else changes. -/
def Recomputed (f : Format) (σ τ : BqSection) : Prop :=
  ∃ (k : Nat → List Nat) (p : Nat → Fp) (cw sw α a : Sample) (r : BqRaw),
    (∀ n, (p n).fmt = f) ∧
    cw = fcos ⟨f, k 2⟩ (fmul ⟨f, k 1⟩ (fmul ⟨f, k 0⟩ (two f) (piOf f)) σ.freq) ∧
    sw = fsin ⟨f, k 3⟩ (fmul ⟨f, k 1⟩ (fmul ⟨f, k 0⟩ (two f) (piOf f)) σ.freq) ∧
    α = fdiv ⟨f, k 5⟩ sw (fmul ⟨f, k 4⟩ (two f) σ.q) ∧
    a = fpow ⟨f, k 7⟩ (ofInteger f 10) (fdiv ⟨f, k 6⟩ σ.gdb (ofInteger f 40)) ∧
    r = rawDesign f p cw α a σ.type ∧
    τ = { σ with
      b0 := fdiv ⟨f, k 8⟩ r.n0 r.d0
      b1 := fdiv ⟨f, k 9⟩ r.n1 r.d0
      b2 := fdiv ⟨f, k 10⟩ r.n2 r.d0
      a1 := fdiv ⟨f, k 11⟩ r.d1 r.d0
      a2 := fdiv ⟨f, k 12⟩ r.d2 r.d0 }

/-- A parameter setter's effect on BQ: in each channel the field selects, section `sec` takes the parameter and is
recomputed; every other section is as before. -/
def BqRetuned (nch : Nat) (sel : ChanSel) (sec : Nat) (upd : BqSection → BqSection) (f : Format)
    (u v : BqUnit) : Prop :=
  v = { u with sections := v.sections } ∧
  ∀ c k,
    if hits nch sel c = true ∧ k = sec then
      (elemAt u.sections c k = none ∧ elemAt v.sections c k = none) ∨
      ∃ σ τ, elemAt u.sections c k = some σ ∧ elemAt v.sections c k = some τ ∧ Recomputed f (upd σ) τ
    else elemAt v.sections c k = elemAt u.sections c k

/-- R294: `(r0, r1)` is the gain change and level of the transfer law, for some draws. -/
def CurveEquation (f : Format) (p : GcUnit) (level r0 r1 : Sample) : Prop :=
  ∃ (k : Nat → List Nat) (lower upper : Sample),
    r1 = fmul ⟨f, k 1⟩ (ofInteger f 20) (flog10 ⟨f, k 0⟩ (fabs f level)) ∧
    lower = fsub ⟨f, k 3⟩ p.thr (fdiv ⟨f, k 2⟩ p.knee (two f)) ∧
    upper = fadd ⟨f, k 5⟩ p.thr (fdiv ⟨f, k 4⟩ p.knee (two f)) ∧
    if flt f r1 lower = true then r0 = z f
    else if flt f upper r1 = true ∨ feq f p.knee (z f) = true then
      r0 = fmul ⟨f, k 9⟩ (fsub ⟨f, k 6⟩ p.thr r1) (fsub ⟨f, k 8⟩ (one f) (fdiv ⟨f, k 7⟩ (one f) p.ratio))
    else ∃ d, d = fsub ⟨f, k 10⟩ r1 lower ∧
      r0 = fdiv ⟨f, k 16⟩
        (fmul ⟨f, k 14⟩ (fsub ⟨f, k 12⟩ (fdiv ⟨f, k 11⟩ (one f) p.ratio) (one f)) (fmul ⟨f, k 13⟩ d d))
        (fmul ⟨f, k 15⟩ (two f) p.knee)

/-! ### Rounding (R11) -/

/-- `m` is the finite encoding nearest to `num / den` smallest subnormals, and an even one where two are nearest. -/
def NearestEven (f : Format) (num den m : Nat) : Prop :=
  ∀ n, n < f.infMag →
    (((ulps f (mkSample f false m) * den : Nat) : Int) - num).natAbs
      ≤ (((ulps f (mkSample f false n) * den : Nat) : Int) - num).natAbs ∧
    ((((ulps f (mkSample f false m) * den : Nat) : Int) - num).natAbs
      = (((ulps f (mkSample f false n) * den : Nat) : Int) - num).natAbs → m ≠ n → m % 2 = 0)

/-- `m` is the finite encoding nearest to the square root of `v`, and an even one where two are nearest; values and root
in smallest subnormals. The root lies above the middle of two values exactly when `4 * v` is above the square of their
sum. -/
def NearestRoot (f : Format) (v m : Nat) : Prop :=
  m < f.infMag ∧ ∀ n, n < f.infMag →
    (n < m → (ulps f (mkSample f false m) + ulps f (mkSample f false n)) ^ 2 ≤ 4 * v) ∧
    (m < n → 4 * v ≤ (ulps f (mkSample f false m) + ulps f (mkSample f false n)) ^ 2) ∧
    (m ≠ n → (ulps f (mkSample f false m) + ulps f (mkSample f false n)) ^ 2 = 4 * v → m % 2 = 0)

/-- A NaN whose quiet bit, the fraction's highest, is set (R12). -/
def IsQuietNaN (f : Format) (x : Sample) : Prop := f.infMag + 2 ^ (f.fracBits - 1) ≤ magOf f x

/-! ### Iterated commands -/

/-- `n` PS_NEXT of one channel, one after the other. -/
def nextTimes (c : Nat) : Nat → State → Host.Outcome State Fault Refusal
  | 0, s => .next s
  | n + 1, s =>
    match exec (.psNext c) s with
    | .next t => nextTimes c n t
    | .fault r => .fault r
    | .refused r => .refused r

/-- FO_SETCOEF of one section of channel after channel. -/
def setcoefEach (sec : Nat) : List Nat → State → Host.Outcome State Fault Refusal
  | [], s => .next s
  | c :: cs, s =>
    match exec (.foSetcoef (.one c) sec) s with
    | .next t => setcoefEach sec cs t
    | .fault r => .fault r
    | .refused r => .refused r

end Sys2Proof.Claims

open Sys2Proof Sys2Proof.Machine Sys2Proof.Claims

/-! ### Encoding -/

/-- R100 to R105, R109: no field of a command is lost in its word. -/
def Obligations.EveryWellFormedCommandDecodesBack : Prop :=
  ∀ i : Instr, i.WellFormed = true → decode (encode i) = .ok i

/-- R100, R109, R112: a word that decodes is the word of the command it decodes to, so no two words name one
command. -/
def Obligations.EveryDecodedWordIsItsEncoding : Prop :=
  ∀ (w : Word) (i : Instr), decode w = .ok i → i.WellFormed = true ∧ encode i = w

/-- R112: the decoder is total, and its errors are those of R112's pseudocode over R109's map. -/
def Obligations.DecodeErrorsFollowTheOpcodeMap : Prop :=
  ∀ w : Word,
    match decodeError w with
    | some e => decode w = .error e
    | none => ∃ i, decode w = .ok i ∧ opcodeOf i = w.toNat % 256 ∧ chOf i = w.toNat / 256 % 256
        ∧ secOf i = w.toNat / 65536 % 256 ∧ subOf i = w.toNat / 16777216 % 16

/-- Command words written beside their lines in spec/95_test_vectors.md and in the rules' examples. -/
def Obligations.SampleWordsDecodeToTheirCommands : Prop :=
  decode 0x00000000 = .ok .nop ∧ decode 0x00000001 = .ok .errclr ∧ decode 0x00030210 = .ok (.foPrepare 2 3) ∧
  decode 0x0000FF11 = .ok (.foReset .all) ∧ decode 0x00090112 = .ok (.foSetcoef (.one 1) 9) ∧
  decode 0x04000022 = .ok (.bqSettype (.one 0) 0 .notch) ∧ decode 0x01020230 = .ok (.psPrepare 2 2 .exp) ∧
  decode 0x01000042 = .ok (.efSetattack (.one 0) .perceptual) ∧ decode 0x00000053 = .ok .gcCompute ∧
  decode 0x0100FF61 = .ok (.gsReset .all true) ∧ decode 0x0000FF34 = .ok (.psNext 255) ∧
  decode 0x00000101 = .error .reservedField ∧ decode 0xF0000099 = .error .illegalOpcode ∧
  decode 0x08000022 = .error .badSubcode

/-! ### Reset and invariants -/

/-- R360: what hardware reset leaves, whatever the state before it: the register window's reset column, every unit
unprepared, the gain computer neutral, the interrupt low. R360 leaves the array elements unspecified; that the model
holds none (`sections` and `chans` empty) is its own reading of R47 (log 7, DEDUCED). -/
def Obligations.HardwareResetState : Prop :=
  ∀ s : State, ∃ t, handle .reset s = .next t ∧
    (∀ o, readReg t o = if o = 0x00 then 0x4A445350 else if o = 0x04 then readReg s 0x04 else 0) ∧
    t.fo = ⟨false, 0, 0, []⟩ ∧ t.bq = ⟨false, 0, 0, []⟩ ∧
    t.ps = ⟨false, 0, .none, 0, z s.params.fmt, []⟩ ∧ t.ef = ⟨false, 0, .peak, z s.params.fmt, []⟩ ∧
    t.gc = ⟨z s.params.fmt, one s.params.fmt, z s.params.fmt⟩ ∧ t.gs = ⟨false, 0, z s.params.fmt, []⟩ ∧
    irq t = false

/-- The state after hardware reset satisfies the invariant, for every legal choice of the parameters, and so does
`State.reset`, whose parameters are the model's choice (log 1). -/
def Obligations.ResetSatisfiesTheInvariant : Prop :=
  (∀ p : Params, ValidParams p → Inv (State.resetWith p)) ∧ Inv State.reset

/-- Every step keeps the invariant: counts within capacity, arrays of exactly the prepared size, parameters in the
ranges the setters accept, decay factors in [+0, 1], a ramp no longer than its duration, samples that fit the format,
an error record exactly while `STATUS.ERR` is set. -/
def Obligations.EveryStepKeepsTheInvariant : Prop :=
  ∀ s t : State, Inv s → step s = .next t → Inv t

/-- R7, R33: the implementation's parameters never change. -/
def Obligations.NoStepChangesTheParameters : Prop :=
  ∀ s t : State, step s = .next t → t.params = s.params

/-! ### The register interface -/

/-- R32, R33, R34, R36: the constant, configuration, status and control words, bit by bit. -/
def Obligations.IdConfigStatusAndControlWords : Prop :=
  (∀ s : State, readReg s 0x00 = 0x4A445350) ∧
  (∀ s : State, s.params.maxChannels ≤ 255 → s.params.maxSections ≤ 255 →
    (readReg s 0x04).toNat % 256 = s.params.maxChannels ∧
    (readReg s 0x04).toNat / 256 % 256 = s.params.maxSections ∧
    ((readReg s 0x04).getLsbD 16 = true ↔ s.params.fmt = .binary64) ∧
    (readReg s 0x04).toNat / 2 ^ 17 % 16 = 8 ∧ (readReg s 0x04).toNat / 2 ^ 21 = 0) ∧
  (∀ s : State, (readReg s 0x08).getLsbD 0 = s.err ∧ (readReg s 0x08).getLsbD 1 = s.fo.prepared ∧
    (readReg s 0x08).getLsbD 2 = s.bq.prepared ∧ (readReg s 0x08).getLsbD 3 = s.ps.prepared ∧
    (readReg s 0x08).getLsbD 4 = s.ef.prepared ∧ (readReg s 0x08).getLsbD 5 = s.gs.prepared ∧
    (readReg s 0x08).getLsbD 6 = (s.err && s.errie) ∧ (readReg s 0x08).toNat / 128 = 0) ∧
  (∀ s : State, (readReg s 0x0C).getLsbD 0 = s.errie ∧ (readReg s 0x0C).toNat / 2 = 0)

/-- R85, R87: an admitted read hands the register's value to the host and changes nothing; a second read gives the
same value. -/
def Obligations.ReadsHaveNoSideEffect : Prop :=
  ∀ (s : State) (o : Nat), o < 256 → o % 4 = 0 →
    ∃ t, hostRead (s.params.base + o) 4 s = .next t ∧
      t = { s with readLog := s.readLog ++ [readReg s o] } ∧ readReg t o = readReg s o

/-- R80, R81: what a write to any register but `CMD` does; nothing at reserved offsets and read-only registers. -/
def Obligations.WritesOutsideCmd : Prop :=
  ∀ (s : State) (v : Word) (o : Nat), o < 256 → o % 4 = 0 → o ≠ 0x18 →
    ∃ t, hostWrite (s.params.base + o) 4 v s = .next t ∧
      (o = 0x0C → t = { s with errie := v.getLsbD 0 }) ∧
      (∀ k : Fin 5, o = 0x20 + 8 * k.val →
        t = { s with op := t.op } ∧ loHalf (t.op.get k) = v ∧ hiHalf (t.op.get k) = hiHalf (s.op.get k) ∧
        ∀ j, j ≠ k → t.op.get j = s.op.get j) ∧
      (∀ k : Fin 5, o = 0x24 + 8 * k.val →
        t = { s with op := t.op } ∧ hiHalf (t.op.get k) = v ∧ loHalf (t.op.get k) = loHalf (s.op.get k) ∧
        ∀ j, j ≠ k → t.op.get j = s.op.get j) ∧
      (o < 0x0C ∨ (0x0C < o ∧ o < 0x20) ∨ 0x44 < o → t = s) ∧
      ((0x44 < o ∧ o < 0x60) ∨ 0x84 < o → readReg s o = 0)

/-- R83: an access in the window that is not 32 bits wide or not aligned is a bus error, for reads and writes, of
`CMD` too. -/
def Obligations.NarrowWideAndMisalignedAccessesAreBusErrors : Prop :=
  ∀ (s : State) (o bytes : Nat) (v : Word) (rest : List HostEvent), o < 256 → (bytes ≠ 4 ∨ o % 4 ≠ 0) →
    step { s with port := .read (s.params.base + o) bytes :: rest } = .fault .busError ∧
    step { s with port := .write (s.params.base + o) bytes v :: rest } = .fault .busError

/-- R39, R40, R87, R130: when the next host access writes a word that decodes, the step is the command it decodes to,
run in the state in which the access has left the port, `CMD` holds the word and `CMDCNT` has counted it. -/
def Obligations.StepRunsTheDecodedCommand : Prop :=
  ∀ (s : State) (w : Word) (i : Instr) (rest : List HostEvent),
    s.port = .write (s.params.base + 0x18) 4 w :: rest → decode w = .ok i →
    step s = exec i { s with port := rest, cmd := w, cmdcnt := s.cmdcnt + 1 }

/-- R112, R130, R332: a word that does not decode raises its error: the first error is recorded, a later one is
not, and otherwise only `CMD` and `CMDCNT` change. -/
def Obligations.StepRejectsAWordThatDoesNotDecode : Prop :=
  ∀ (s : State) (w : Word) (e : ErrCode) (rest : List HostEvent),
    s.port = .write (s.params.base + 0x18) 4 w :: rest → decode w = .error e →
    step s = .next (if s.err then { s with port := rest, cmd := w, cmdcnt := s.cmdcnt + 1 }
      else { s with port := rest, cmd := w, cmdcnt := s.cmdcnt + 1,
                    err := true, errcode := errNumber e, errcmd := w })

/-- R39, R40: every write to `CMD` stores its word and adds 1 to `CMDCNT`, modulo 2^32, whether the command succeeds
or fails; no read and no other write changes either. -/
def Obligations.EveryCommandWordIsStoredAndCounted : Prop :=
  (∀ (s : State) (w : Word), ∃ t, hostWrite (s.params.base + 0x18) 4 w s = .next t ∧ t.cmd = w ∧
    t.cmdcnt.toNat = (s.cmdcnt.toNat + 1) % 2 ^ 32) ∧
  (∀ (s t : State) (a n : Nat), hostRead a n s = .next t → t.cmd = s.cmd ∧ t.cmdcnt = s.cmdcnt) ∧
  (∀ (s t : State) (a n : Nat) (v : Word), a ≠ s.params.base + 0x18 → hostWrite a n v s = .next t →
    t.cmd = s.cmd ∧ t.cmdcnt = s.cmdcnt)

/-- R376, R377: admitted accesses never stop the machine: the step takes the next event off the port. -/
def Obligations.AdmittedAccessesNeverStopTheMachine : Prop :=
  ∀ (s : State) (ev : HostEvent) (rest : List HostEvent), s.port = ev :: rest → Admitted s.params ev = true →
    ∃ t, step s = .next t ∧ t.port = rest

/-! ### Errors and the interrupt -/

/-- R330, R332: the error procedure records the code and the word of the first error and nothing else; it changes
nothing while an error is recorded. The codes are those of R330. -/
def Obligations.ErrorProcedureRecordsTheFirstError : Prop :=
  (∀ (e : ErrCode) (w : Word) (s : State), s.err = false →
    errorProc e w s = { s with err := true, errcode := errNumber e, errcmd := w }) ∧
  (∀ (e : ErrCode) (w : Word) (s : State), s.err = true → errorProc e w s = s) ∧
  [ErrCode.illegalOpcode, .reservedField, .badSubcode, .notPrepared, .badCount, .channelRange, .sectionRange,
    .badSampleRate, .badFrequency, .badQ, .badGain].map errNumber = [1, 2, 3, 4, 5, 6, 7, 8, 9, 10, 11]

/-- R130, R332, R333: a word that fails to decode raises the first error of R112's order; a command whose checks fail
reports the first that fails, in R333's order, through the error procedure alone; a command whose checks pass completes
and, unless it is ERRCLR, leaves the error record. The word that a failed check records is the one `CMD` holds (R39;
log 12, DEDUCED). -/
def Obligations.TheFirstFailingCheckIsReported : Prop :=
  (∀ (w : Word) (s : State) (e : ErrCode), decodeError w = some e → execute w s = .next (errorProc e w s)) ∧
  ∀ (i : Instr) (s : State),
    match firstFailure s i with
    | some e => exec i s = .next (errorProc e s.cmd s)
    | none => ∃ t, exec i s = .next t ∧
        (i ≠ .errclr → t.err = s.err ∧ t.errcode = s.errcode ∧ t.errcmd = s.errcmd)

/-- R335: while an error is recorded, nothing but ERRCLR and hardware reset changes the record. -/
def Obligations.AnErrorRecordStaysUntilCleared : Prop :=
  ∀ s t : State, s.err = true → step s = .next t →
    s.port.head? ≠ some .reset →
    (∀ w, s.port.head? = some (.write (s.params.base + 0x18) 4 w) → decode w ≠ .ok .errclr) →
    t.err = true ∧ t.errcode = s.errcode ∧ t.errcmd = s.errcmd

/-- R135, R136: NOP does nothing, and its word at `CMD` changes only `CMD` and `CMDCNT`; ERRCLR clears the error record
and drops the interrupt; with no error recorded and a zero record it changes nothing; either word with a bit of 31:8 set
raises RESERVED_FIELD, and such an ERRCLR leaves the recorded error. -/
def Obligations.NopAndErrclrEffects : Prop :=
  (∀ s : State, exec .nop s = .next s) ∧
  (∀ s : State, ∃ t, exec .errclr s = .next t ∧ t = { s with err := false, errcode := 0, errcmd := 0 } ∧
    irq t = false) ∧
  (∀ s : State, s.err = false → s.errcode = 0 → s.errcmd = 0 → exec .errclr s = .next s) ∧
  (∀ w : Word, w.toNat % 256 = 0 ∨ w.toNat % 256 = 1 → 256 ≤ w.toNat → decode w = .error .reservedField) ∧
  (∀ s : State, hostWrite (s.params.base + 0x18) 4 0 s = .next { s with cmd := 0, cmdcnt := s.cmdcnt + 1 }) ∧
  (∀ (w : Word) (s : State), w.toNat % 256 = 1 → 256 ≤ w.toNat → s.err = true → execute w s = .next s)

/-- R336: the interrupt is `STATUS.ERR AND CTRL.ERRIE`; writing `CTRL` masks or raises it at once, and ERRCLR
drops it. -/
def Obligations.InterruptIsErrorAndEnable : Prop :=
  (∀ s : State, (irq s = true ↔ s.err = true ∧ s.errie = true) ∧ (readReg s 0x08).getLsbD 6 = irq s) ∧
  (∀ (s t : State) (v : Word), hostWrite (s.params.base + 0x0C) 4 v s = .next t → irq t = (s.err && v.getLsbD 0)) ∧
  (∀ s t : State, exec .errclr s = .next t → irq t = false)

/-! ### The filters -/

/-- R191, R231, R41, R42, R363: FO_PREPARE and BQ_PREPARE with legal counts leave every section at its PREPARE value,
whatever the unit held, and no section outside the counts; nothing else changes. -/
def Obligations.FilterPrepareSetsEverySection : Prop :=
  ∀ (n m : Nat) (s : State), 1 ≤ n → n ≤ s.params.maxChannels → 1 ≤ m → m ≤ s.params.maxSections →
    (∃ t, exec (.foPrepare n m) s = .next t ∧ t = { s with fo := t.fo } ∧
      t.fo = { prepared := true, nch := n, nsec := m, sections := t.fo.sections } ∧
      ∀ c k, elemAt t.fo.sections c k =
        if c < n ∧ k < m then
          some { b0 := one s.params.fmt, b1 := z s.params.fmt, a1 := z s.params.fmt,
                 xp := z s.params.fmt, yp := z s.params.fmt }
        else none) ∧
    (∃ t, exec (.bqPrepare n m) s = .next t ∧ t = { s with bq := t.bq } ∧
      t.bq = { prepared := true, nch := n, nsec := m, sections := t.bq.sections } ∧
      ∀ c k, elemAt t.bq.sections c k =
        if c < n ∧ k < m then
          some { type := .lowpass, freq := ofRatio s.params.fmt 1 4, q := qDef s.params.fmt, gdb := z s.params.fmt,
                 b0 := one s.params.fmt, b1 := z s.params.fmt, b2 := z s.params.fmt, a1 := z s.params.fmt,
                 a2 := z s.params.fmt, x1 := z s.params.fmt, x2 := z s.params.fmt, y1 := z s.params.fmt,
                 y2 := z s.params.fmt }
        else none)

/-- R192, R232, R104: FO_RESET and BQ_RESET set the delay state of every section of the selected channels to +0; the
coefficients, the parameters and the other channels are as before; nothing else changes. -/
def Obligations.FilterResetClearsDelayStateOnly : Prop :=
  ∀ (sel : ChanSel) (s : State),
    (s.fo.prepared = true → inRange s.fo.nch sel = true →
      ∃ t, exec (.foReset sel) s = .next t ∧ t = { s with fo := t.fo } ∧
        t.fo = { s.fo with sections := t.fo.sections } ∧
        ∀ c k, elemAt t.fo.sections c k = (elemAt s.fo.sections c k).map fun σ =>
          if hits s.fo.nch sel c then { σ with xp := z s.params.fmt, yp := z s.params.fmt } else σ) ∧
    (s.bq.prepared = true → inRange s.bq.nch sel = true →
      ∃ t, exec (.bqReset sel) s = .next t ∧ t = { s with bq := t.bq } ∧
        t.bq = { s.bq with sections := t.bq.sections } ∧
        ∀ c k, elemAt t.bq.sections c k = (elemAt s.bq.sections c k).map fun σ =>
          if hits s.bq.nch sel c then
            { σ with x1 := z s.params.fmt, x2 := z s.params.fmt, y1 := z s.params.fmt, y2 := z s.params.fmt }
          else σ)

/-- R193, R237, R104: FO_SETCOEF and BQ_SETCOEF store the operands, unchecked, as the coefficients of one section of
each selected channel; delay state, parameters, other sections and other channels are as before. -/
def Obligations.SetcoefStoresTheOperands : Prop :=
  ∀ (sel : ChanSel) (sec : Nat) (s : State),
    (s.fo.prepared = true → inRange s.fo.nch sel = true → sec < s.fo.nsec →
      ∃ t, exec (.foSetcoef sel sec) s = .next t ∧ t = { s with fo := t.fo } ∧
        t.fo = { s.fo with sections := t.fo.sections } ∧
        ∀ c k, elemAt t.fo.sections c k = (elemAt s.fo.sections c k).map fun σ =>
          if hits s.fo.nch sel c = true ∧ k = sec then
            { σ with b0 := s.operand 0, b1 := s.operand 1, a1 := s.operand 2 } else σ) ∧
    (s.bq.prepared = true → inRange s.bq.nch sel = true → sec < s.bq.nsec →
      ∃ t, exec (.bqSetcoef sel sec) s = .next t ∧ t = { s with bq := t.bq } ∧
        t.bq = { s.bq with sections := t.bq.sections } ∧
        ∀ c k, elemAt t.bq.sections c k = (elemAt s.bq.sections c k).map fun σ =>
          if hits s.bq.nch sel c = true ∧ k = sec then
            { σ with b0 := s.operand 0, b1 := s.operand 1, b2 := s.operand 2, a1 := s.operand 3,
                     a2 := s.operand 4 } else σ)

/-- R104: FO_SETCOEF of ALL is FO_SETCOEF of channel 0, then 1, and so on. -/
def Obligations.BroadcastSetcoefActsChannelByChannel : Prop :=
  ∀ (sec : Nat) (s : State), s.fo.prepared = true → sec < s.fo.nsec →
    exec (.foSetcoef .all sec) s = setcoefEach sec (List.range s.fo.nch) s

/-- R190, R194: FO_PROCESS feeds the operand through the channel's sections in index order, each by the difference
equation, and moves each section's prior input and output; the last output is the result. -/
def Obligations.FoProcessRunsTheCascade : Prop :=
  ∀ (c : Nat) (s : State) (chain : List FoSection), s.fo.prepared = true → c < s.fo.nch →
    s.fo.sections[c]? = some chain →
    ∃ (t : State) (chain' : List FoSection) (v : Nat → Sample),
      exec (.foProcess c) s = .next t ∧ t = { s with fo := t.fo, res := t.res, draws := t.draws } ∧
      t.fo = { s.fo with sections := s.fo.sections.set c chain' } ∧ chain'.length = chain.length ∧
      v 0 = s.operand 0 ∧ t.res = { s.res with w0 := v chain.length } ∧
      ∀ k σ, chain[k]? = some σ →
        FoEquation s.params.fmt σ (v k) (v (k + 1)) ∧
        chain'[k]? = some { σ with xp := v k, yp := v (k + 1) }

/-- R220, R238: BQ_PROCESS likewise, in direct form I. -/
def Obligations.BqProcessRunsTheCascade : Prop :=
  ∀ (c : Nat) (s : State) (chain : List BqSection), s.bq.prepared = true → c < s.bq.nch →
    s.bq.sections[c]? = some chain →
    ∃ (t : State) (chain' : List BqSection) (v : Nat → Sample),
      exec (.bqProcess c) s = .next t ∧ t = { s with bq := t.bq, res := t.res, draws := t.draws } ∧
      t.bq = { s.bq with sections := s.bq.sections.set c chain' } ∧ chain'.length = chain.length ∧
      v 0 = s.operand 0 ∧ t.res = { s.res with w0 := v chain.length } ∧
      ∀ k σ, chain[k]? = some σ →
        BqEquation s.params.fmt σ (v k) (v (k + 1)) ∧
        chain'[k]? = some { σ with x1 := v k, x2 := σ.x1, y1 := v (k + 1), y2 := σ.y1 }

/-- R195 to R200: FO_DESIGN with a frequency in (0, 0.5] and, for the shelves, a positive finite gain, gives the
closed-form coefficients of its type and changes no unit. -/
def Obligations.FoDesignGivesTheClosedForms : Prop :=
  ∀ (type : FoType) (s : State), GoodFrequency s.params.fmt (s.operand 0) →
    (type = .lowshelf ∨ type = .highshelf → GoodPositive s.params.fmt (s.operand 1)) →
    ∃ t, exec (.foDesign type) s = .next t ∧ t = { s with res := t.res, draws := t.draws } ∧
      t.res.w3 = s.res.w3 ∧ t.res.w4 = s.res.w4 ∧
      FoDesignEquation s.params.fmt (s.operand 0) (s.operand 1) t.res type

/-- R201, R202: the first-order readbacks show the section and change nothing else. -/
def Obligations.FoReadbacksShowTheSection : Prop :=
  ∀ (c k : Nat) (s : State) (σ : FoSection), s.fo.prepared = true → c < s.fo.nch → k < s.fo.nsec →
    elemAt s.fo.sections c k = some σ →
    exec (.foReadcoef c k) s = .next { s with res := { s.res with w0 := σ.b0, w1 := σ.b1, w2 := σ.a1 } } ∧
    exec (.foReadstate c k) s = .next { s with res := { s.res with w0 := σ.xp, w1 := σ.yp } }

/-- R239 to R241: the biquad readbacks; the type as its integer code of R221. -/
def Obligations.BqReadbacksShowTheSection : Prop :=
  ∀ (c k : Nat) (s : State) (σ : BqSection), s.bq.prepared = true → c < s.bq.nch → k < s.bq.nsec →
    elemAt s.bq.sections c k = some σ →
    exec (.bqReadcoef c k) s =
      .next { s with res := ⟨σ.b0, σ.b1, σ.b2, σ.a1, σ.a2⟩ } ∧
    exec (.bqReadstate c k) s =
      .next { s with res := { s.res with w0 := σ.x1, w1 := σ.x2, w2 := σ.y1, w3 := σ.y2 } } ∧
    ∃ n : Nat, exec (.bqReadparam c k) s =
        .next { s with res := { s.res with w0 := BitVec.ofNat 64 n, w1 := σ.freq, w2 := σ.q, w3 := σ.gdb } } ∧
      [BqType.lowpass, .highpass, .bandpass, .allpass, .notch, .peak, .lowshelf, .highshelf][n]? = some σ.type

/-- R222, R233 to R236, R242: each biquad setter stores its parameter in one section of every selected channel and
replaces that section's coefficients by the design of its parameters; delay state, other sections and other channels
are as before. -/
def Obligations.BqSettersRecomputeTheSection : Prop :=
  ∀ (sel : ChanSel) (sec : Nat) (s : State), s.bq.prepared = true → inRange s.bq.nch sel = true → sec < s.bq.nsec →
    (∀ T, ∃ t, exec (.bqSettype sel sec T) s = .next t ∧ t = { s with bq := t.bq, draws := t.draws } ∧
      BqRetuned s.bq.nch sel sec (fun σ => { σ with type := T }) s.params.fmt s.bq t.bq) ∧
    (GoodFrequency s.params.fmt (s.operand 0) →
      ∃ t, exec (.bqSetfreq sel sec) s = .next t ∧ t = { s with bq := t.bq, draws := t.draws } ∧
        BqRetuned s.bq.nch sel sec (fun σ => { σ with freq := s.operand 0 }) s.params.fmt s.bq t.bq) ∧
    (GoodPositive s.params.fmt (s.operand 0) →
      ∃ t, exec (.bqSetq sel sec) s = .next t ∧ t = { s with bq := t.bq, draws := t.draws } ∧
        BqRetuned s.bq.nch sel sec (fun σ => { σ with q := s.operand 0 }) s.params.fmt s.bq t.bq) ∧
    (GoodDecibels s.params.fmt (s.operand 0) →
      ∃ t, exec (.bqSetgain sel sec) s = .next t ∧ t = { s with bq := t.bq, draws := t.draws } ∧
        BqRetuned s.bq.nch sel sec (fun σ => { σ with gdb := s.operand 0 }) s.params.fmt s.bq t.bq)

/-- R228, R242 item 4: where `A` is 1, the peak design's numerator is its denominator, bit for bit, for every finite
cosine and `α` of the format. -/
def Obligations.PeakDesignAtUnitGainIsFlat : Prop :=
  ∀ (e : Fp) (cw α : Sample), Fits e.fmt cw → Fits e.fmt α → isFinite e.fmt cw = true → isFinite e.fmt α = true →
    (bqPeak e cw α (one e.fmt)).n0 = (bqPeak e cw α (one e.fmt)).d0 ∧
    (bqPeak e cw α (one e.fmt)).n1 = (bqPeak e cw α (one e.fmt)).d1 ∧
    (bqPeak e cw α (one e.fmt)).n2 = (bqPeak e cw α (one e.fmt)).d2

/-- R203 item 1, R363: after FO_PREPARE with legal counts, the unit's first or a later one, silence through the
identity sections gives +0 on every channel and leaves the sections as they are. -/
def Obligations.FreshFilterPassesSilence : Prop :=
  ∀ (n m c : Nat) (s t : State), 1 ≤ n → n ≤ s.params.maxChannels → 1 ≤ m → m ≤ s.params.maxSections →
    exec (.foPrepare n m) s = .next t → c < n → t.operand 0 = z t.params.fmt →
    ∃ u, exec (.foProcess c) t = .next u ∧ u.res.w0 = z t.params.fmt ∧ u.fo = t.fo

/-- R203 item 3: a section with coefficients (0, 1, 0) gives its prior input (in value: a zero may change its sign),
for finite values. -/
def Obligations.DelaySectionReturnsThePriorInput : Prop :=
  ∀ (e : Fp) (x xp yp : Sample), Fits e.fmt xp → isFinite e.fmt x = true → isFinite e.fmt xp = true →
    isFinite e.fmt yp = true →
    feq e.fmt (foOutput e { b0 := z e.fmt, b1 := one e.fmt, a1 := z e.fmt, xp := xp, yp := yp } x) xp = true

/-! ### The parameter smoother -/

/-- R161, R43: PS_PREPARE with a legal count, an order that fits the algorithm and a legal rate leaves every channel
at its PREPARE value. -/
def Obligations.PsPrepareSetsEveryChannel : Prop :=
  ∀ (n m : Nat) (alg : PsAlg) (s : State), 1 ≤ n → n ≤ s.params.maxChannels →
    (alg = .exp → 1 ≤ m ∧ m ≤ 8) → (alg ≠ .exp → m = 0) → GoodPositive s.params.fmt (s.operand 0) →
    ∃ t, exec (.psPrepare n m alg) s = .next t ∧ t = { s with ps := t.ps } ∧
      t.ps = { prepared := true, nch := n, alg := alg, order := m, fs := s.operand 0, chans := t.ps.chans } ∧
      ∀ c : Nat, t.ps.chans[c]? =
        if c < n then
          some { current := z s.params.fmt, target := z s.params.fmt, stage := List.replicate m (z s.params.fmt),
                 coef := z s.params.fmt, dur := 0, remaining := 0, inc := z s.params.fmt }
        else none

/-- R162, R361: PS_RESET sets current, target and every stage of the selected channels to the seed (or +0), and ends
the ramp; times, counts and other channels are as before. -/
def Obligations.PsResetSeedsTheSelectedChannels : Prop :=
  ∀ (sel : ChanSel) (seeded : Bool) (s : State), s.ps.prepared = true → inRange s.ps.nch sel = true →
    ∃ t, exec (.psReset sel seeded) s = .next t ∧ t = { s with ps := t.ps } ∧
      t.ps = { s.ps with chans := t.ps.chans } ∧
      ∀ c : Nat, t.ps.chans[c]? = (s.ps.chans[c]?).map fun p =>
        if hits s.ps.nch sel c then
          { p with current := if seeded then s.operand 0 else z s.params.fmt
                   target := if seeded then s.operand 0 else z s.params.fmt
                   stage := List.replicate p.stage.length (if seeded then s.operand 0 else z s.params.fmt)
                   remaining := 0, inc := z s.params.fmt }
        else p

/-- R163, R134, R160: PS_SETTIME stores the decay factor and the duration of the time in the selected channels and,
under LINEAR only, restarts the ramp. -/
def Obligations.PsSettimeStoresBothTimes : Prop :=
  ∀ (sel : ChanSel) (s : State), s.ps.prepared = true → inRange s.ps.nch sel = true →
    ∃ t, exec (.psSettime sel) s = .next t ∧ t = { s with ps := t.ps, draws := t.draws } ∧
      t.ps = { s.ps with chans := t.ps.chans } ∧ t.ps.chans.length = s.ps.chans.length ∧
      ∀ (c : Nat) (p q : PsChannel), s.ps.chans[c]? = some p → t.ps.chans[c]? = some q →
        if hits s.ps.nch sel c then
          TimeCoeffEquation s.params.fmt (s.operand 0) s.ps.fs q.coef ∧
          DurationEquation s.params.fmt (s.operand 0) s.ps.fs q.dur ∧
          (s.ps.alg = .linear → RampStarted s.params.fmt { p with coef := q.coef, dur := q.dur } q) ∧
          (s.ps.alg ≠ .linear → q = { p with coef := q.coef, dur := q.dur })
        else q = p

/-- R164: PS_SETTARGET sets the target of the selected channels; under LINEAR it restarts the ramp when the target is
a different value and otherwise changes nothing; the current value never changes. -/
def Obligations.PsSettargetStartsARampOnlyWhenDifferent : Prop :=
  ∀ (sel : ChanSel) (s : State), s.ps.prepared = true → inRange s.ps.nch sel = true →
    ∃ t, exec (.psSettarget sel) s = .next t ∧ t = { s with ps := t.ps, draws := t.draws } ∧
      t.ps = { s.ps with chans := t.ps.chans } ∧ t.ps.chans.length = s.ps.chans.length ∧
      ∀ (c : Nat) (p q : PsChannel), s.ps.chans[c]? = some p → t.ps.chans[c]? = some q →
        if hits s.ps.nch sel c then
          (s.ps.alg = .linear → feq s.params.fmt (s.operand 0) p.target = true → q = p) ∧
          (s.ps.alg = .linear → feq s.params.fmt (s.operand 0) p.target = false →
            RampStarted s.params.fmt { p with target := s.operand 0 } q) ∧
          (s.ps.alg ≠ .linear → q = { p with target := s.operand 0 })
        else q = p

/-- R165 to R168: PS_NEXT takes one step of the algorithm in use and gives the new current value. -/
def Obligations.PsNextTakesOneStep : Prop :=
  ∀ (c : Nat) (s : State) (p : PsChannel), s.ps.prepared = true → c < s.ps.nch → s.ps.chans[c]? = some p →
    ∃ (t : State) (q : PsChannel), exec (.psNext c) s = .next t ∧
      t = { s with ps := t.ps, res := t.res, draws := t.draws } ∧
      t.ps = { s.ps with chans := s.ps.chans.set c q } ∧ t.res = { s.res with w0 := q.current } ∧
      (s.ps.alg = .none → q = { p with current := p.target }) ∧
      (s.ps.alg = .linear →
        if 2 ≤ p.remaining then
          (∃ k, q = { p with current := fadd ⟨s.params.fmt, k⟩ p.current p.inc, remaining := p.remaining - 1 })
        else q = { p with current := p.target, remaining := 0 }) ∧
      (s.ps.alg = .exp →
        ∃ v : Nat → Sample, v 0 = p.target ∧ q = { p with stage := q.stage, current := v p.stage.length } ∧
          q.stage.length = p.stage.length ∧
          ∀ k st, p.stage[k]? = some st →
            OnePoleEquation s.params.fmt st (v k) p.coef (v (k + 1)) ∧ q.stage[k]? = some (v (k + 1)))

/-- R169, R170: the smoother's readbacks; the remaining count as an integer. -/
def Obligations.PsReadbacksShowTheChannel : Prop :=
  ∀ (c : Nat) (s : State) (p : PsChannel), s.ps.prepared = true → c < s.ps.nch → s.ps.chans[c]? = some p →
    exec (.psRead c) s =
      .next { s with res := ⟨p.current, p.target, p.coef, BitVec.ofNat 64 p.remaining, p.inc⟩ } ∧
    ∀ (k : Nat) (v : Sample), k < s.ps.order → p.stage[k]? = some v →
      exec (.psReadstage c k) s = .next { s with res := { s.res with w0 := v } }

/-- R166, R171 item 1: under LINEAR, as many PS_NEXT as a running ramp has steps left land on the target exactly, and
every further one gives the target again. -/
def Obligations.LinearRampLandsOnTheTarget : Prop :=
  ∀ (c extra : Nat) (s : State) (p : PsChannel), s.ps.prepared = true → c < s.ps.nch → s.ps.alg = .linear →
    s.ps.chans[c]? = some p → 1 ≤ p.remaining →
    ∃ (t : State) (q : PsChannel), nextTimes c (p.remaining + extra) s = .next t ∧ t.ps.chans[c]? = some q ∧
      q.current = p.target ∧ q.target = p.target ∧ q.remaining = 0 ∧ t.res.w0 = p.target

/-- R134: the decay factor of a time: +0 for a time that is not positive (a NaN too), 1 for +∞, the formula
otherwise; for every time and every positive finite rate it lies in [+0, 1]. -/
def Obligations.TimeCoeffIsAFactorInUnitRange : Prop :=
  ∀ (e : Fp) (ms fs : Sample), GoodPositive e.fmt fs →
    TimeCoeffEquation e.fmt ms fs (timeCoeff e ms fs) ∧ UnitRange e.fmt (timeCoeff e ms fs) ∧
    (flt e.fmt (z e.fmt) ms = false → timeCoeff e ms fs = z e.fmt) ∧
    timeCoeff e (infOf e.fmt false) fs = one e.fmt

/-- R137, R171 item 4: a one-pole update holds a settled finite state: when the state equals the input in value, so does
the result, for every finite coefficient. -/
def Obligations.OnePoleHoldsASettledState : Prop :=
  ∀ (e : Fp) (s inp c : Sample), isFinite e.fmt inp = true → isFinite e.fmt c = true → feq e.fmt s inp = true →
    feq e.fmt (onePole e s inp c) inp = true

/-! ### Envelope follower and gain smoother -/

/-- R260, R310, R44, R46: EF_PREPARE and GS_PREPARE with a legal count and rate leave every channel at +0. -/
def Obligations.FollowerPrepareSetsEveryChannel : Prop :=
  ∀ (n : Nat) (variant : EfVariant) (s : State), 1 ≤ n → n ≤ s.params.maxChannels →
    GoodPositive s.params.fmt (s.operand 0) →
    (∃ t, exec (.efPrepare n variant) s = .next t ∧ t = { s with ef := t.ef } ∧
      t.ef = { prepared := true, nch := n, variant := variant, fs := s.operand 0, chans := t.ef.chans } ∧
      ∀ c : Nat, t.ef.chans[c]? =
        if c < n then some { env := z s.params.fmt, att := z s.params.fmt, rel := z s.params.fmt } else none) ∧
    (∃ t, exec (.gsPrepare n) s = .next t ∧ t = { s with gs := t.gs } ∧
      t.gs = { prepared := true, nch := n, fs := s.operand 0, chans := t.gs.chans } ∧
      ∀ c : Nat, t.gs.chans[c]? =
        if c < n then some { g := z s.params.fmt, att := z s.params.fmt, rel := z s.params.fmt } else none)

/-- R261, R311, R361: EF_RESET and GS_RESET set the selected channels' level or gain to the seed (its square under
RMS) or to +0, and keep the times. -/
def Obligations.FollowerResetSeedsTheSelectedChannels : Prop :=
  ∀ (sel : ChanSel) (seeded : Bool) (s : State),
    (s.ef.prepared = true → inRange s.ef.nch sel = true →
      ∃ t, exec (.efReset sel seeded) s = .next t ∧ t = { s with ef := t.ef, draws := t.draws } ∧
        t.ef = { s.ef with chans := t.ef.chans } ∧ t.ef.chans.length = s.ef.chans.length ∧
        ∀ (c : Nat) (p q : EfChannel), s.ef.chans[c]? = some p → t.ef.chans[c]? = some q →
          if hits s.ef.nch sel c then
            ∃ v, v = (if seeded then s.operand 0 else z s.params.fmt) ∧ q = { p with env := q.env } ∧
              (s.ef.variant = .peak → q.env = v) ∧ (s.ef.variant = .rms → ∃ k, q.env = fmul ⟨s.params.fmt, k⟩ v v)
          else q = p) ∧
    (s.gs.prepared = true → inRange s.gs.nch sel = true →
      ∃ t, exec (.gsReset sel seeded) s = .next t ∧ t = { s with gs := t.gs } ∧
        t.gs = { s.gs with chans := t.gs.chans } ∧
        ∀ c : Nat, t.gs.chans[c]? = (s.gs.chans[c]?).map fun p =>
          if hits s.gs.nch sel c then { p with g := if seeded then s.operand 0 else z s.params.fmt } else p)

/-- R262, R263: EF_SETATTACK and EF_SETRELEASE store the decay factor of the time, scaled by `PERCEPTUAL_SCALE` in
perceptual mode, in the selected channels; each changes only its own factor. -/
def Obligations.EfTimesAreStored : Prop :=
  ∀ (sel : ChanSel) (mode : TimeMode) (s : State), s.ef.prepared = true → inRange s.ef.nch sel = true →
    ∃ t u, exec (.efSetattack sel mode) s = .next t ∧ exec (.efSetrelease sel mode) s = .next u ∧
      t = { s with ef := t.ef, draws := t.draws } ∧ u = { s with ef := u.ef, draws := u.draws } ∧
      t.ef = { s.ef with chans := t.ef.chans } ∧ u.ef = { s.ef with chans := u.ef.chans } ∧
      t.ef.chans.length = s.ef.chans.length ∧ u.ef.chans.length = s.ef.chans.length ∧
      ∃ (k : List Nat) (ms : Sample),
        ms = (match mode with
          | .raw => s.operand 0
          | .perceptual => fmul ⟨s.params.fmt, k⟩ (s.operand 0) s.params.perceptualScale) ∧
        ∀ (c : Nat) (p q r : EfChannel), s.ef.chans[c]? = some p → t.ef.chans[c]? = some q →
          u.ef.chans[c]? = some r →
          if hits s.ef.nch sel c then
            TimeCoeffEquation s.params.fmt ms s.ef.fs q.att ∧ q = { p with att := q.att } ∧
            TimeCoeffEquation s.params.fmt ms s.ef.fs r.rel ∧ r = { p with rel := r.rel }
          else q = p ∧ r = p

/-- R312, R313: GS_SETATTACK and GS_SETRELEASE likewise, with raw times. -/
def Obligations.GsTimesAreStored : Prop :=
  ∀ (sel : ChanSel) (s : State), s.gs.prepared = true → inRange s.gs.nch sel = true →
    ∃ t u, exec (.gsSetattack sel) s = .next t ∧ exec (.gsSetrelease sel) s = .next u ∧
      t = { s with gs := t.gs, draws := t.draws } ∧ u = { s with gs := u.gs, draws := u.draws } ∧
      t.gs = { s.gs with chans := t.gs.chans } ∧ u.gs = { s.gs with chans := u.gs.chans } ∧
      t.gs.chans.length = s.gs.chans.length ∧ u.gs.chans.length = s.gs.chans.length ∧
      ∀ (c : Nat) (p q r : GsChannel), s.gs.chans[c]? = some p → t.gs.chans[c]? = some q →
        u.gs.chans[c]? = some r →
        if hits s.gs.nch sel c then
          TimeCoeffEquation s.params.fmt (s.operand 0) s.gs.fs q.att ∧ q = { p with att := q.att } ∧
          TimeCoeffEquation s.params.fmt (s.operand 0) s.gs.fs r.rel ∧ r = { p with rel := r.rel }
        else q = p ∧ r = p

/-- R264: EF_PROCESS tracks the rectified input (PEAK) or its square (RMS), by the attack factor when it exceeds the
envelope and the release factor otherwise, and reports the envelope or its root. -/
def Obligations.EfProcessTracksTheInput : Prop :=
  ∀ (c : Nat) (s : State) (p : EfChannel), s.ef.prepared = true → c < s.ef.nch → s.ef.chans[c]? = some p →
    ∃ (t : State) (q : EfChannel) (inp : Sample), exec (.efProcess c) s = .next t ∧
      t = { s with ef := t.ef, res := t.res, draws := t.draws } ∧
      t.ef = { s.ef with chans := s.ef.chans.set c q } ∧ t.res = { s.res with w0 := t.res.w0 } ∧
      q = { p with env := q.env } ∧
      OnePoleEquation s.params.fmt p.env inp (if flt s.params.fmt p.env inp then p.att else p.rel) q.env ∧
      (s.ef.variant = .peak → inp = fabs s.params.fmt (s.operand 0) ∧ t.res.w0 = q.env) ∧
      (s.ef.variant = .rms → (∃ k, inp = fmul ⟨s.params.fmt, k⟩ (s.operand 0) (s.operand 0)) ∧
        ∃ k, t.res.w0 = fsqrt ⟨s.params.fmt, k⟩ q.env)

/-- R314: GS_PROCESS smooths the incoming gain change, by the attack factor when it is below the smoothed value and
the release factor otherwise, and gives the new value. -/
def Obligations.GsProcessSmoothsTheGain : Prop :=
  ∀ (c : Nat) (s : State) (p : GsChannel), s.gs.prepared = true → c < s.gs.nch → s.gs.chans[c]? = some p →
    ∃ (t : State) (q : GsChannel), exec (.gsProcess c) s = .next t ∧
      t = { s with gs := t.gs, res := t.res, draws := t.draws } ∧
      t.gs = { s.gs with chans := s.gs.chans.set c q } ∧ t.res = { s.res with w0 := q.g } ∧
      q = { p with g := q.g } ∧
      OnePoleEquation s.params.fmt p.g (s.operand 0)
        (if flt s.params.fmt (s.operand 0) p.g then p.att else p.rel) q.g

/-- R265, R315: the readbacks of follower and smoother; `RES3` of EF_READ is the rooted level under RMS. -/
def Obligations.FollowerReadbacksShowTheChannel : Prop :=
  (∀ (c : Nat) (s : State) (p : EfChannel), s.ef.prepared = true → c < s.ef.nch → s.ef.chans[c]? = some p →
    ∃ t, exec (.efRead c) s = .next t ∧ t = { s with res := t.res, draws := t.draws } ∧
      t.res = ⟨p.env, p.att, p.rel, t.res.w3, s.res.w4⟩ ∧
      (s.ef.variant = .peak → t.res.w3 = p.env) ∧
      (s.ef.variant = .rms → ∃ k, t.res.w3 = fsqrt ⟨s.params.fmt, k⟩ p.env)) ∧
  (∀ (c : Nat) (s : State) (p : GsChannel), s.gs.prepared = true → c < s.gs.nch → s.gs.chans[c]? = some p →
    exec (.gsRead c) s = .next { s with res := { s.res with w0 := p.g, w1 := p.att, w2 := p.rel } })

/-! ### The gain computer -/

/-- R291 to R293: the threshold is stored as given; a ratio that is not at least 1 becomes 1; a knee that is not
positive becomes +0; a word of theirs with a bit of 31:8 set raises RESERVED_FIELD. -/
def Obligations.GcSettersClamp : Prop :=
  (∀ w : Word, 0x50 ≤ w.toNat % 256 ∧ w.toNat % 256 ≤ 0x52 → 256 ≤ w.toNat → decode w = .error .reservedField) ∧
  ∀ s : State,
    exec .gcSetthresh s = .next { s with gc := { s.gc with thr := s.operand 0 } } ∧
    exec .gcSetratio s = .next { s with gc := { s.gc with
      ratio := if fle s.params.fmt (one s.params.fmt) (s.operand 0) then s.operand 0 else one s.params.fmt } } ∧
    exec .gcSetknee s = .next { s with gc := { s.gc with
      knee := if flt s.params.fmt (z s.params.fmt) (s.operand 0) then s.operand 0 else z s.params.fmt } }

/-- R294, R295: GC_COMPUTE gives the gain change of the transfer law's region and the level in dB; the parameters are
as before. -/
def Obligations.GcComputeFollowsTheTransferLaw : Prop :=
  ∀ s : State, ∃ t, exec .gcCompute s = .next t ∧ t = { s with res := t.res, draws := t.draws } ∧
    t.res = { s.res with w0 := t.res.w0, w1 := t.res.w1 } ∧
    CurveEquation s.params.fmt s.gc (s.operand 0) t.res.w0 t.res.w1

/-- R296: GC_READ shows the three parameters and changes no state; after hardware reset they are +0, 1 and +0; its word
with a bit of 31:8 set raises RESERVED_FIELD. -/
def Obligations.GcReadShowsTheParameters : Prop :=
  (∀ w : Word, w.toNat % 256 = 0x54 → 256 ≤ w.toNat → decode w = .error .reservedField) ∧
  (∀ s : State, exec .gcRead s =
    .next { s with res := { s.res with w0 := s.gc.thr, w1 := s.gc.ratio, w2 := s.gc.knee } }) ∧
  (∀ p : Params, ∃ t, exec .gcRead (State.resetWith p) = .next t ∧ t.res.w0 = z p.fmt ∧ t.res.w1 = one p.fmt ∧
    t.res.w2 = z p.fmt)

/-! ### Over all commands -/

/-- R48: a command that addresses one channel leaves every other channel of every unit as it was. -/
def Obligations.OtherChannelsAreUntouched : Prop :=
  ∀ (i : Instr) (s t : State) (c d : Nat), channelOf i = some c → d ≠ c → exec i s = .next t →
    t.fo.sections[d]? = s.fo.sections[d]? ∧ t.bq.sections[d]? = s.bq.sections[d]? ∧
    t.ps.chans[d]? = s.ps.chans[d]? ∧ t.ef.chans[d]? = s.ef.chans[d]? ∧ t.gs.chans[d]? = s.gs.chans[d]?

/-- R48, R371: what a command that addresses channel `c` does and answers depends on no other channel: from two
states that differ only in other channels, it leaves two states that differ only there. -/
def Obligations.OtherChannelsAreNotObserved : Prop :=
  ∀ (i : Instr) (s r : State) (c : Nat), channelOf i = some c → AgreeOnChannel c s r →
    ∃ t u, exec i s = .next t ∧ exec i r = .next u ∧ AgreeOnChannel c t u

/-- R48, R363: a command changes the state of its own unit only. -/
def Obligations.OtherUnitsAreUntouched : Prop :=
  ∀ (i : Instr) (s t : State), exec i s = .next t →
    (unitOf i ≠ some .fo → t.fo = s.fo) ∧ (unitOf i ≠ some .bq → t.bq = s.bq) ∧
    (unitOf i ≠ some .ps → t.ps = s.ps) ∧ (unitOf i ≠ some .ef → t.ef = s.ef) ∧
    (unitOf i ≠ some .gc → t.gc = s.gc) ∧ (unitOf i ≠ some .gs → t.gs = s.gs)

/-- R101, R109, R35: a command reads only the operand registers listed for it, and of those only the sample: two
states that differ in other operands (or in ignored bits) go the same way. -/
def Obligations.OnlyListedOperandsAreRead : Prop :=
  ∀ (i : Instr) (s : State) (o : Bank), (∀ k ∈ operandsOf i, ({ s with op := o } : State).operand k = s.operand k) →
    ∃ t, exec i s = .next t ∧ exec i { s with op := o } = .next { t with op := o }

/-- R35, R109, R138: a command writes no result register but those listed for it, and no operand register. -/
def Obligations.OnlyListedResultsAreWritten : Prop :=
  ∀ (i : Instr) (s t : State), exec i s = .next t →
    (∀ k, k ∉ resultsOf i → t.res.get k = s.res.get k) ∧ t.op = s.op

/-! ### Arithmetic -/

/-- R11, R12: a sum, product or quotient of finite samples that comes out finite is the sample nearest to the exact
result, ties to even, with the exact result's sign. The sign of a zero product or quotient is the one the model presumes
from IEEE 754 (log 10). Results that overflow, and the sign of a zero sum, are not part of this statement; `fsqrt` has
its own. -/
def Obligations.ArithmeticRoundsToNearestEven : Prop :=
  ∀ (e : Fp) (a b : Sample), isFinite e.fmt a = true → isFinite e.fmt b = true →
    (isFinite e.fmt (fadd e a b) = true →
      NearestEven e.fmt (signedUlps e.fmt a + signedUlps e.fmt b).natAbs 1 (magOf e.fmt (fadd e a b)) ∧
      (signedUlps e.fmt a + signedUlps e.fmt b ≠ 0 →
        signOf e.fmt (fadd e a b) = decide (signedUlps e.fmt a + signedUlps e.fmt b < 0))) ∧
    (isFinite e.fmt (fmul e a b) = true →
      NearestEven e.fmt (ulps e.fmt a * ulps e.fmt b) (2 ^ e.fmt.unitExp) (magOf e.fmt (fmul e a b)) ∧
      signOf e.fmt (fmul e a b) = (signOf e.fmt a != signOf e.fmt b)) ∧
    (isZero e.fmt b = false → isFinite e.fmt (fdiv e a b) = true →
      NearestEven e.fmt (ulps e.fmt a * 2 ^ e.fmt.unitExp) (ulps e.fmt b) (magOf e.fmt (fdiv e a b)) ∧
      signOf e.fmt (fdiv e a b) = (signOf e.fmt a != signOf e.fmt b))

/-- R11, R12: `fsqrt` is correctly rounded: of a positive finite sample it is the finite sample nearest to the exact root,
ties to even, without a sign; of a zero it is that zero; of a value below zero, -∞ among them, and of a NaN it is a quiet
NaN; of +∞ it is +∞ (IEEE 754, log 10). -/
def Obligations.SquareRootIsCorrectlyRounded : Prop :=
  ∀ (e : Fp) (x : Sample),
    (isFinite e.fmt x = true → flt e.fmt (z e.fmt) x = true →
      signOf e.fmt (fsqrt e x) = false ∧
      NearestRoot e.fmt (ulps e.fmt x * 2 ^ e.fmt.unitExp) (magOf e.fmt (fsqrt e x))) ∧
    (isZero e.fmt x = true → fsqrt e x = zeroOf e.fmt (signOf e.fmt x)) ∧
    (flt e.fmt x (z e.fmt) = true ∨ isNaN e.fmt x = true → IsQuietNaN e.fmt (fsqrt e x)) ∧
    (isInf e.fmt x = true → signOf e.fmt x = false → fsqrt e x = infOf e.fmt false)
end

