-- ==== Sys2Proof/Laws/Float.lean ====
section
/-! SUPPORT. What the arithmetic of Machine/Float.lean and Machine/Transcendental.lean can give: every result fits its
format, a drawn result is a NaN, finite operands draw nothing, and an exact result is itself. -/

namespace Sys2Proof.Machine

/-! ### Sizes of the formats -/

theorem signPos_eq (f : Format) : f.signPos = f.expBits + f.fracBits := by cases f <;> rfl

theorem nan_lt (f : Format) : f.infMag + 2 ^ f.fracBits ≤ 2 ^ f.signPos := by cases f <;> decide

theorem half_frac (f : Format) : 2 ^ (f.fracBits - 1) + 2 ^ (f.fracBits - 1) = 2 ^ f.fracBits := by
  cases f <;> decide

theorem roundMag_le (f : Format) (n d : Nat) : roundMag f n d ≤ f.infMag := by
  unfold roundMag
  exact Nat.min_le_right ..

theorem roundMag_lt (f : Format) (n d : Nat) : roundMag f n d < 2 ^ f.signPos :=
  (roundMag_le f n d).trans_lt (infMag_lt f)

theorem magOf_lt (f : Format) (x : Sample) : magOf f x < 2 ^ f.signPos := Nat.mod_lt _ (by positivity)

theorem nanMag_lt (f : Format) (d : Nat) :
    f.infMag + 2 ^ (f.fracBits - 1) + d % 2 ^ (f.fracBits - 1) < 2 ^ f.signPos := by
  have := nan_lt f
  have := half_frac f
  have := Nat.mod_lt d (show 0 < 2 ^ (f.fracBits - 1) by positivity)
  omega

/-! ### A sample is its sign and its other bits -/

theorem fits_mkSample (f : Format) (s : Bool) (m : Nat) (h : m < 2 ^ f.signPos) : Fits f (mkSample f s m) := by
  rw [Fits, mkSample_toNat f s m h, Nat.pow_succ]
  split <;> omega

theorem mkSample_of_fits (f : Format) (x : Sample) (h : Fits f x) : mkSample f (signOf f x) (magOf f x) = x := by
  apply BitVec.eq_of_toNat_eq
  rw [mkSample_toNat f _ _ (magOf_lt f x), signOf, magOf, Nat.testBit_eq_decide_div_mod_eq]
  rw [Fits, Nat.pow_succ] at h
  have hd : x.toNat / 2 ^ f.signPos < 2 := Nat.div_lt_of_lt_mul h
  have hm := Nat.div_add_mod x.toNat (2 ^ f.signPos)
  obtain h0 | h1 : x.toNat / 2 ^ f.signPos = 0 ∨ x.toNat / 2 ^ f.signPos = 1 := by
    generalize x.toNat / 2 ^ f.signPos = q at hd
    omega
  · rw [h0] at hm; simp [h0]; omega
  · rw [h1] at hm; simp [h1]; omega

/-- Two encodings of the format with the same sign and magnitude are one. -/
theorem eq_of_fits (f : Format) (x y : Sample) (hx : Fits f x) (hy : Fits f y)
    (hs : signOf f x = signOf f y) (hm : magOf f x = magOf f y) : x = y := by
  rw [← mkSample_of_fits f x hx, ← mkSample_of_fits f y hy, hs, hm]

theorem fits_canon (f : Format) (x : Sample) : Fits f (canon f x) := by
  unfold canon
  exact fits_mkSample f _ _ (magOf_lt f x)

theorem canon_of_fits (f : Format) (x : Sample) (h : Fits f x) : canon f x = x := by
  unfold canon
  exact mkSample_of_fits f x h

@[simp] theorem magOf_canon (f : Format) (x : Sample) : magOf f (canon f x) = magOf f x := by
  unfold canon
  exact magOf_mkSample f _ _ (magOf_lt f x)

@[simp] theorem signOf_canon (f : Format) (x : Sample) : signOf f (canon f x) = signOf f x := by
  unfold canon
  exact signOf_mkSample f _ _ (magOf_lt f x)

@[simp] theorem magOf_fneg (f : Format) (x : Sample) : magOf f (fneg f x) = magOf f x := by
  unfold fneg
  exact magOf_mkSample f _ _ (magOf_lt f x)

@[simp] theorem signOf_fneg (f : Format) (x : Sample) : signOf f (fneg f x) = !signOf f x := by
  unfold fneg
  exact signOf_mkSample f _ _ (magOf_lt f x)

@[simp] theorem magOf_fabs (f : Format) (x : Sample) : magOf f (fabs f x) = magOf f x := by
  unfold fabs
  exact magOf_mkSample f _ _ (magOf_lt f x)

@[simp] theorem signOf_fabs (f : Format) (x : Sample) : signOf f (fabs f x) = false := by
  unfold fabs
  exact signOf_mkSample f _ _ (magOf_lt f x)

@[simp] theorem magOf_zeroOf (f : Format) (s : Bool) : magOf f (zeroOf f s) = 0 := by
  unfold zeroOf
  exact magOf_mkSample f s 0 (by positivity)

@[simp] theorem signOf_zeroOf (f : Format) (s : Bool) : signOf f (zeroOf f s) = s := by
  unfold zeroOf
  exact signOf_mkSample f s 0 (by positivity)

@[simp] theorem magOf_infOf (f : Format) (s : Bool) : magOf f (infOf f s) = f.infMag := by
  unfold infOf
  exact magOf_mkSample f s _ (infMag_lt f)

@[simp] theorem signOf_infOf (f : Format) (s : Bool) : signOf f (infOf f s) = s := by
  unfold infOf
  exact signOf_mkSample f s _ (infMag_lt f)

/-! ### A drawn result -/

theorem fits_quietNaN (e : Fp) : Fits e.fmt (quietNaN e) := by
  unfold quietNaN
  exact fits_mkSample e.fmt _ _ (nanMag_lt e.fmt _)

theorem isNaN_quietNaN (e : Fp) : isNaN e.fmt (quietNaN e) = true := by
  rw [quietNaN, isNaN_mkSample e.fmt _ _ (nanMag_lt e.fmt _), decide_eq_true_eq]
  have : 0 < 2 ^ (e.fmt.fracBits - 1) := by positivity
  omega

/-! ### Every result fits its format -/

theorem fits_zeroOf (f : Format) (s : Bool) : Fits f (zeroOf f s) := by
  unfold zeroOf
  exact fits_mkSample f s 0 (by positivity)

theorem fits_infOf (f : Format) (s : Bool) : Fits f (infOf f s) := by
  unfold infOf
  exact fits_mkSample f s _ (infMag_lt f)

theorem fits_fneg (f : Format) (x : Sample) : Fits f (fneg f x) := by
  unfold fneg
  exact fits_mkSample f _ _ (magOf_lt f x)

theorem fits_fabs (f : Format) (x : Sample) : Fits f (fabs f x) := by
  unfold fabs
  exact fits_mkSample f _ _ (magOf_lt f x)

theorem fits_ofInteger (f : Format) (n : Nat) : Fits f (ofInteger f n) := by
  unfold ofInteger
  exact fits_mkSample f _ _ (roundMag_lt f _ _)

theorem fits_ofRatio (f : Format) (n d : Nat) : Fits f (ofRatio f n d) := by
  unfold ofRatio
  exact fits_mkSample f _ _ (roundMag_lt f _ _)

theorem fits_piOf (f : Format) : Fits f (piOf f) := by cases f <;> unfold Fits <;> decide

theorem fits_qDef (f : Format) : Fits f (qDef f) := by cases f <;> unfold Fits <;> decide

theorem fits_fadd (e : Fp) (a b : Sample) : Fits e.fmt (fadd e a b) := by
  simp only [fadd]
  repeat' split
  all_goals first
    | with_reducible exact fits_quietNaN e
    | with_reducible exact fits_infOf e.fmt _
    | with_reducible exact fits_zeroOf e.fmt _
    | with_reducible exact fits_mkSample e.fmt _ _ (roundMag_lt e.fmt _ _)

theorem fits_fsub (e : Fp) (a b : Sample) : Fits e.fmt (fsub e a b) := by
  unfold fsub
  exact fits_fadd e a _

theorem fits_fmul (e : Fp) (a b : Sample) : Fits e.fmt (fmul e a b) := by
  simp only [fmul]
  repeat' split
  all_goals first
    | with_reducible exact fits_quietNaN e
    | with_reducible exact fits_infOf e.fmt _
    | with_reducible exact fits_mkSample e.fmt _ _ (roundMag_lt e.fmt _ _)

theorem fits_fdiv (e : Fp) (a b : Sample) : Fits e.fmt (fdiv e a b) := by
  simp only [fdiv]
  repeat' split
  all_goals first
    | with_reducible exact fits_quietNaN e
    | with_reducible exact fits_infOf e.fmt _
    | with_reducible exact fits_zeroOf e.fmt _
    | with_reducible exact fits_mkSample e.fmt _ _ (roundMag_lt e.fmt _ _)

theorem fits_fsqrt (e : Fp) (x : Sample) : Fits e.fmt (fsqrt e x) := by
  simp only [fsqrt]
  repeat' split
  all_goals first
    | with_reducible exact fits_quietNaN e
    | with_reducible exact fits_infOf e.fmt _
    | with_reducible exact fits_zeroOf e.fmt _
    | with_reducible exact fits_mkSample e.fmt _ _ (roundMag_lt e.fmt _ _)

theorem fits_settle (e : Fp) (r : Sample) : Fits e.fmt (settle e r) := by
  unfold settle
  split
  · exact fits_quietNaN e
  · exact fits_canon e.fmt r

/-! ### Kinds of values -/

/-- A value is a NaN, an infinity or finite. -/
theorem kind_cases (f : Format) (x : Sample) :
    (isNaN f x = true ∧ isInf f x = false ∧ isFinite f x = false) ∨
    (isNaN f x = false ∧ isInf f x = true ∧ isFinite f x = false) ∨
    (isNaN f x = false ∧ isInf f x = false ∧ isFinite f x = true) := by
  simp only [isNaN, isInf, isFinite, decide_eq_true_eq, decide_eq_false_iff_not]
  omega

theorem not_nan_of_finite (f : Format) (x : Sample) (h : isFinite f x = true) : isNaN f x = false := by
  rcases kind_cases f x with ⟨_, _, k⟩ | ⟨_, _, k⟩ | ⟨k, _, _⟩ <;> simp_all

theorem not_inf_of_finite (f : Format) (x : Sample) (h : isFinite f x = true) : isInf f x = false := by
  rcases kind_cases f x with ⟨_, _, k⟩ | ⟨_, _, k⟩ | ⟨_, k, _⟩ <;> simp_all

@[simp] theorem isNaN_fneg (f : Format) (x : Sample) : isNaN f (fneg f x) = isNaN f x := by simp [isNaN]

@[simp] theorem isInf_fneg (f : Format) (x : Sample) : isInf f (fneg f x) = isInf f x := by simp [isInf]

@[simp] theorem isFinite_fneg (f : Format) (x : Sample) : isFinite f (fneg f x) = isFinite f x := by simp [isFinite]

@[simp] theorem isZero_fneg (f : Format) (x : Sample) : isZero f (fneg f x) = isZero f x := by simp [isZero]

@[simp] theorem ulps_fneg (f : Format) (x : Sample) : ulps f (fneg f x) = ulps f x := by simp [ulps]

@[simp] theorem signedUlps_fneg (f : Format) (x : Sample) : signedUlps f (fneg f x) = -signedUlps f x := by
  cases h : signOf f x <;> simp [signedUlps, h]

@[simp] theorem orderKey_fneg (f : Format) (x : Sample) : orderKey f (fneg f x) = -orderKey f x := by
  cases h : signOf f x <;> simp [orderKey, h]

/-! ### Finite operands draw nothing -/

theorem fadd_of_finite (e : Fp) (a b : Sample) (ha : isFinite e.fmt a = true) (hb : isFinite e.fmt b = true) :
    fadd e a b =
      if signedUlps e.fmt a + signedUlps e.fmt b = 0 then zeroOf e.fmt (signOf e.fmt a && signOf e.fmt b)
      else mkSample e.fmt (decide (signedUlps e.fmt a + signedUlps e.fmt b < 0))
        (roundMag e.fmt (signedUlps e.fmt a + signedUlps e.fmt b).natAbs 1) := by
  simp [fadd, not_nan_of_finite _ _ ha, not_nan_of_finite _ _ hb, not_inf_of_finite _ _ ha,
    not_inf_of_finite _ _ hb]

theorem fmul_of_finite (e : Fp) (a b : Sample) (ha : isFinite e.fmt a = true) (hb : isFinite e.fmt b = true) :
    fmul e a b = mkSample e.fmt (signOf e.fmt a != signOf e.fmt b)
      (roundMag e.fmt (ulps e.fmt a * ulps e.fmt b) (2 ^ e.fmt.unitExp)) := by
  simp [fmul, not_nan_of_finite _ _ ha, not_nan_of_finite _ _ hb, not_inf_of_finite _ _ ha,
    not_inf_of_finite _ _ hb]

theorem fdiv_of_finite (e : Fp) (a b : Sample) (ha : isFinite e.fmt a = true) (hb : isFinite e.fmt b = true)
    (h0 : isZero e.fmt b = false) :
    fdiv e a b = mkSample e.fmt (signOf e.fmt a != signOf e.fmt b)
      (roundMag e.fmt (ulps e.fmt a * 2 ^ e.fmt.unitExp) (ulps e.fmt b)) := by
  simp [fdiv, not_nan_of_finite _ _ ha, not_nan_of_finite _ _ hb, not_inf_of_finite _ _ ha,
    not_inf_of_finite _ _ hb, h0]

theorem fsqrt_of_positive (e : Fp) (x : Sample) (hf : isFinite e.fmt x = true) (h0 : isZero e.fmt x = false)
    (hs : signOf e.fmt x = false) :
    fsqrt e x = mkSample e.fmt false
      (roundMag e.fmt (2 * isqrt (ulps e.fmt x * 2 ^ e.fmt.unitExp)
        + (if isqrt (ulps e.fmt x * 2 ^ e.fmt.unitExp) * isqrt (ulps e.fmt x * 2 ^ e.fmt.unitExp)
            = ulps e.fmt x * 2 ^ e.fmt.unitExp then 0 else 1)) 2) := by
  simp [fsqrt, not_nan_of_finite _ _ hf, not_inf_of_finite _ _ hf, h0, hs]

/-! ### The integer square root -/

theorem isqrtGo_spec (n : Nat) : ∀ k r, r * r ≤ n → n < (r + 2 ^ k) * (r + 2 ^ k) →
    isqrtGo n k r * isqrtGo n k r ≤ n ∧ n < (isqrtGo n k r + 1) * (isqrtGo n k r + 1)
  | 0, _, hl, hu => ⟨hl, by simpa [isqrtGo] using hu⟩
  | k + 1, r, hl, hu => by
    simp only [isqrtGo]
    split
    case isTrue h =>
      exact isqrtGo_spec n k _ h (by rwa [show r + 2 ^ k + 2 ^ k = r + 2 ^ (k + 1) by rw [Nat.pow_succ]; omega])
    case isFalse h => exact isqrtGo_spec n k r hl (by omega)

/-- The largest integer whose square is not above `n`. -/
theorem isqrt_spec (n : Nat) : isqrt n * isqrt n ≤ n ∧ n < (isqrt n + 1) * (isqrt n + 1) := by
  unfold isqrt
  refine isqrtGo_spec n _ 0 (Nat.zero_le _) ?_
  rw [Nat.zero_add, ← Nat.pow_add]
  refine Nat.lt_of_lt_of_le Nat.lt_log2_self (Nat.pow_le_pow_right (by decide) ?_)
  omega

/-! ### Rounding an exact value -/

theorem rneDiv_mul (q d : Nat) (hd : 0 < d) : rneDiv (q * d) d = q := by
  simp only [rneDiv, Nat.mul_div_cancel _ hd, Nat.mul_mod_left]
  rw [if_neg (by omega)]

/-- A finite encoding is what rounding its own value gives. -/
theorem roundMag_ulps (f : Format) (x : Sample) (d : Nat) (hd : 0 < d) (h : isFinite f x = true) :
    roundMag f (ulps f x * d) d = magOf f x := by
  rw [isFinite, decide_eq_true_eq] at h
  have hp : 0 < 2 ^ f.fracBits := by positivity
  have hdm := Nat.div_add_mod (magOf f x) (2 ^ f.fracBits)
  have hlt := Nat.mod_lt (magOf f x) hp
  rw [roundMag, Nat.mul_div_cancel _ hd]
  simp only [ulps]
  split
  case isTrue h0 =>
    rw [h0] at hdm
    have hk : (magOf f x % 2 ^ f.fracBits).log2 - f.fracBits = 0 := by
      rcases Nat.eq_zero_or_pos (magOf f x % 2 ^ f.fracBits) with hz | hz
      · simp [hz]
      · have := (Nat.log2_lt (by omega)).2 hlt
        omega
    rw [hk, Nat.zero_mul, Nat.pow_zero, Nat.mul_one, rneDiv_mul _ _ hd]
    omega
  case isFalse h0 =>
    obtain ⟨e, he⟩ := Nat.exists_eq_succ_of_ne_zero h0
    rw [he, Nat.succ_eq_add_one] at hdm ⊢
    rw [Nat.add_sub_cancel]
    generalize hfr : magOf f x % 2 ^ f.fracBits = fr at *
    have hk : ((2 ^ f.fracBits + fr) * 2 ^ e).log2 = f.fracBits + e := by
      rw [Nat.log2_eq_iff (by positivity)]
      constructor
      · rw [Nat.pow_add]; exact Nat.mul_le_mul_right _ (by omega)
      · rw [show f.fracBits + e + 1 = (f.fracBits + 1) + e by omega, Nat.pow_add]
        exact Nat.mul_lt_mul_of_pos_right (by rw [Nat.pow_succ]; omega) (by positivity)
    rw [hk, Nat.add_sub_cancel_left, Nat.mul_assoc, Nat.mul_comm (2 ^ e) d, rneDiv_mul _ _ (by positivity)]
    have : e * 2 ^ f.fracBits + (2 ^ f.fracBits + fr) = magOf f x := by rw [← hdm]; ring
    rw [this]
    exact Nat.min_eq_left h.le

end Sys2Proof.Machine
end

