-- ==== Sys2Proof/Laws/State.lean ====
section
/-! SUPPORT. The small lemmas of the state's updates: one per field and update, true by `rfl`, so that no proof unfolds
a record update. -/

namespace Sys2Proof.Machine

/-! ### Register banks -/

@[simp] theorem bank_get_set (b : Bank) (v : Sample) (k : Fin 5) : (b.set v k).get k = v := by
  fin_cases k <;> rfl

@[simp] theorem bank_get_set_ne (b : Bank) (v : Sample) (j k : Fin 5) (h : j ≠ k) :
    (b.set v k).get j = b.get j := by
  fin_cases j <;> fin_cases k <;> first | rfl | exact absurd rfl h

@[simp] theorem bank_get_zero (k : Fin 5) : Bank.zero.get k = 0 := by fin_cases k <;> rfl

theorem bank_ext (a b : Bank) (h : ∀ k, a.get k = b.get k) : a = b := by
  cases a; cases b
  have h0 := h 0; have h1 := h 1; have h2 := h 2; have h3 := h 3; have h4 := h 4
  simp only [Bank.get] at h0 h1 h2 h3 h4
  subst h0 h1 h2 h3 h4
  rfl

@[simp] theorem bank_get_0 (b : Bank) : b.get 0 = b.w0 := rfl
@[simp] theorem bank_set_0 (b : Bank) (v : Sample) : b.set v 0 = { b with w0 := v } := rfl

@[simp] theorem bank_get_1 (b : Bank) : b.get 1 = b.w1 := rfl
@[simp] theorem bank_set_1 (b : Bank) (v : Sample) : b.set v 1 = { b with w1 := v } := rfl

@[simp] theorem bank_get_2 (b : Bank) : b.get 2 = b.w2 := rfl
@[simp] theorem bank_set_2 (b : Bank) (v : Sample) : b.set v 2 = { b with w2 := v } := rfl

@[simp] theorem bank_get_3 (b : Bank) : b.get 3 = b.w3 := rfl
@[simp] theorem bank_set_3 (b : Bank) (v : Sample) : b.set v 3 = { b with w3 := v } := rfl

@[simp] theorem bank_get_4 (b : Bank) : b.get 4 = b.w4 := rfl
@[simp] theorem bank_set_4 (b : Bank) (v : Sample) : b.set v 4 = { b with w4 := v } := rfl


/-! ### `setRes` -/

@[simp] theorem setRes_params (s : State) (k : Fin 5) (v : Sample) : (s.setRes k v).params = s.params := rfl
@[simp] theorem setRes_err (s : State) (k : Fin 5) (v : Sample) : (s.setRes k v).err = s.err := rfl
@[simp] theorem setRes_errie (s : State) (k : Fin 5) (v : Sample) : (s.setRes k v).errie = s.errie := rfl
@[simp] theorem setRes_errcode (s : State) (k : Fin 5) (v : Sample) :
    (s.setRes k v).errcode = s.errcode := rfl
@[simp] theorem setRes_errcmd (s : State) (k : Fin 5) (v : Sample) : (s.setRes k v).errcmd = s.errcmd := rfl
@[simp] theorem setRes_cmd (s : State) (k : Fin 5) (v : Sample) : (s.setRes k v).cmd = s.cmd := rfl
@[simp] theorem setRes_cmdcnt (s : State) (k : Fin 5) (v : Sample) : (s.setRes k v).cmdcnt = s.cmdcnt := rfl
@[simp] theorem setRes_op (s : State) (k : Fin 5) (v : Sample) : (s.setRes k v).op = s.op := rfl
@[simp] theorem setRes_res (s : State) (k : Fin 5) (v : Sample) : (s.setRes k v).res = s.res.set v k := rfl
@[simp] theorem setRes_fo (s : State) (k : Fin 5) (v : Sample) : (s.setRes k v).fo = s.fo := rfl
@[simp] theorem setRes_bq (s : State) (k : Fin 5) (v : Sample) : (s.setRes k v).bq = s.bq := rfl
@[simp] theorem setRes_ps (s : State) (k : Fin 5) (v : Sample) : (s.setRes k v).ps = s.ps := rfl
@[simp] theorem setRes_ef (s : State) (k : Fin 5) (v : Sample) : (s.setRes k v).ef = s.ef := rfl
@[simp] theorem setRes_gc (s : State) (k : Fin 5) (v : Sample) : (s.setRes k v).gc = s.gc := rfl
@[simp] theorem setRes_gs (s : State) (k : Fin 5) (v : Sample) : (s.setRes k v).gs = s.gs := rfl
@[simp] theorem setRes_port (s : State) (k : Fin 5) (v : Sample) : (s.setRes k v).port = s.port := rfl
@[simp] theorem setRes_readLog (s : State) (k : Fin 5) (v : Sample) :
    (s.setRes k v).readLog = s.readLog := rfl
@[simp] theorem setRes_draws (s : State) (k : Fin 5) (v : Sample) : (s.setRes k v).draws = s.draws := rfl
@[simp] theorem setRes_operand (s : State) (k : Fin 5) (v : Sample) (j : Fin 5) :
    (s.setRes k v).operand j = s.operand j := rfl
@[simp] theorem setRes_fp (s : State) (k : Fin 5) (v : Sample) : (s.setRes k v).fp = s.fp := rfl

/-! ### `setResInt` -/

@[simp] theorem setResInt_params (s : State) (k : Fin 5) (n : Nat) :
    (s.setResInt k n).params = s.params := rfl
@[simp] theorem setResInt_err (s : State) (k : Fin 5) (n : Nat) : (s.setResInt k n).err = s.err := rfl
@[simp] theorem setResInt_errie (s : State) (k : Fin 5) (n : Nat) : (s.setResInt k n).errie = s.errie := rfl
@[simp] theorem setResInt_errcode (s : State) (k : Fin 5) (n : Nat) :
    (s.setResInt k n).errcode = s.errcode := rfl
@[simp] theorem setResInt_errcmd (s : State) (k : Fin 5) (n : Nat) :
    (s.setResInt k n).errcmd = s.errcmd := rfl
@[simp] theorem setResInt_cmd (s : State) (k : Fin 5) (n : Nat) : (s.setResInt k n).cmd = s.cmd := rfl
@[simp] theorem setResInt_cmdcnt (s : State) (k : Fin 5) (n : Nat) :
    (s.setResInt k n).cmdcnt = s.cmdcnt := rfl
@[simp] theorem setResInt_op (s : State) (k : Fin 5) (n : Nat) : (s.setResInt k n).op = s.op := rfl
@[simp] theorem setResInt_res (s : State) (k : Fin 5) (n : Nat) :
    (s.setResInt k n).res = s.res.set (BitVec.ofNat 64 n) k := rfl
@[simp] theorem setResInt_fo (s : State) (k : Fin 5) (n : Nat) : (s.setResInt k n).fo = s.fo := rfl
@[simp] theorem setResInt_bq (s : State) (k : Fin 5) (n : Nat) : (s.setResInt k n).bq = s.bq := rfl
@[simp] theorem setResInt_ps (s : State) (k : Fin 5) (n : Nat) : (s.setResInt k n).ps = s.ps := rfl
@[simp] theorem setResInt_ef (s : State) (k : Fin 5) (n : Nat) : (s.setResInt k n).ef = s.ef := rfl
@[simp] theorem setResInt_gc (s : State) (k : Fin 5) (n : Nat) : (s.setResInt k n).gc = s.gc := rfl
@[simp] theorem setResInt_gs (s : State) (k : Fin 5) (n : Nat) : (s.setResInt k n).gs = s.gs := rfl
@[simp] theorem setResInt_port (s : State) (k : Fin 5) (n : Nat) : (s.setResInt k n).port = s.port := rfl
@[simp] theorem setResInt_readLog (s : State) (k : Fin 5) (n : Nat) :
    (s.setResInt k n).readLog = s.readLog := rfl
@[simp] theorem setResInt_draws (s : State) (k : Fin 5) (n : Nat) : (s.setResInt k n).draws = s.draws := rfl
@[simp] theorem setResInt_operand (s : State) (k : Fin 5) (n : Nat) (j : Fin 5) :
    (s.setResInt k n).operand j = s.operand j := rfl
@[simp] theorem setResInt_fp (s : State) (k : Fin 5) (n : Nat) : (s.setResInt k n).fp = s.fp := rfl

/-! ### `setOpLo` -/

@[simp] theorem setOpLo_params (s : State) (k : Fin 5) (v : Word) : (s.setOpLo k v).params = s.params := rfl
@[simp] theorem setOpLo_err (s : State) (k : Fin 5) (v : Word) : (s.setOpLo k v).err = s.err := rfl
@[simp] theorem setOpLo_errie (s : State) (k : Fin 5) (v : Word) : (s.setOpLo k v).errie = s.errie := rfl
@[simp] theorem setOpLo_errcode (s : State) (k : Fin 5) (v : Word) :
    (s.setOpLo k v).errcode = s.errcode := rfl
@[simp] theorem setOpLo_errcmd (s : State) (k : Fin 5) (v : Word) : (s.setOpLo k v).errcmd = s.errcmd := rfl
@[simp] theorem setOpLo_cmd (s : State) (k : Fin 5) (v : Word) : (s.setOpLo k v).cmd = s.cmd := rfl
@[simp] theorem setOpLo_cmdcnt (s : State) (k : Fin 5) (v : Word) : (s.setOpLo k v).cmdcnt = s.cmdcnt := rfl
@[simp] theorem setOpLo_op (s : State) (k : Fin 5) (v : Word) :
    (s.setOpLo k v).op = s.op.set (joinHalves (hiHalf (s.op.get k)) v) k := rfl
@[simp] theorem setOpLo_res (s : State) (k : Fin 5) (v : Word) : (s.setOpLo k v).res = s.res := rfl
@[simp] theorem setOpLo_fo (s : State) (k : Fin 5) (v : Word) : (s.setOpLo k v).fo = s.fo := rfl
@[simp] theorem setOpLo_bq (s : State) (k : Fin 5) (v : Word) : (s.setOpLo k v).bq = s.bq := rfl
@[simp] theorem setOpLo_ps (s : State) (k : Fin 5) (v : Word) : (s.setOpLo k v).ps = s.ps := rfl
@[simp] theorem setOpLo_ef (s : State) (k : Fin 5) (v : Word) : (s.setOpLo k v).ef = s.ef := rfl
@[simp] theorem setOpLo_gc (s : State) (k : Fin 5) (v : Word) : (s.setOpLo k v).gc = s.gc := rfl
@[simp] theorem setOpLo_gs (s : State) (k : Fin 5) (v : Word) : (s.setOpLo k v).gs = s.gs := rfl
@[simp] theorem setOpLo_port (s : State) (k : Fin 5) (v : Word) : (s.setOpLo k v).port = s.port := rfl
@[simp] theorem setOpLo_readLog (s : State) (k : Fin 5) (v : Word) :
    (s.setOpLo k v).readLog = s.readLog := rfl
@[simp] theorem setOpLo_draws (s : State) (k : Fin 5) (v : Word) : (s.setOpLo k v).draws = s.draws := rfl

/-! ### `setOpHi` -/

@[simp] theorem setOpHi_params (s : State) (k : Fin 5) (v : Word) : (s.setOpHi k v).params = s.params := rfl
@[simp] theorem setOpHi_err (s : State) (k : Fin 5) (v : Word) : (s.setOpHi k v).err = s.err := rfl
@[simp] theorem setOpHi_errie (s : State) (k : Fin 5) (v : Word) : (s.setOpHi k v).errie = s.errie := rfl
@[simp] theorem setOpHi_errcode (s : State) (k : Fin 5) (v : Word) :
    (s.setOpHi k v).errcode = s.errcode := rfl
@[simp] theorem setOpHi_errcmd (s : State) (k : Fin 5) (v : Word) : (s.setOpHi k v).errcmd = s.errcmd := rfl
@[simp] theorem setOpHi_cmd (s : State) (k : Fin 5) (v : Word) : (s.setOpHi k v).cmd = s.cmd := rfl
@[simp] theorem setOpHi_cmdcnt (s : State) (k : Fin 5) (v : Word) : (s.setOpHi k v).cmdcnt = s.cmdcnt := rfl
@[simp] theorem setOpHi_op (s : State) (k : Fin 5) (v : Word) :
    (s.setOpHi k v).op = s.op.set (joinHalves v (loHalf (s.op.get k))) k := rfl
@[simp] theorem setOpHi_res (s : State) (k : Fin 5) (v : Word) : (s.setOpHi k v).res = s.res := rfl
@[simp] theorem setOpHi_fo (s : State) (k : Fin 5) (v : Word) : (s.setOpHi k v).fo = s.fo := rfl
@[simp] theorem setOpHi_bq (s : State) (k : Fin 5) (v : Word) : (s.setOpHi k v).bq = s.bq := rfl
@[simp] theorem setOpHi_ps (s : State) (k : Fin 5) (v : Word) : (s.setOpHi k v).ps = s.ps := rfl
@[simp] theorem setOpHi_ef (s : State) (k : Fin 5) (v : Word) : (s.setOpHi k v).ef = s.ef := rfl
@[simp] theorem setOpHi_gc (s : State) (k : Fin 5) (v : Word) : (s.setOpHi k v).gc = s.gc := rfl
@[simp] theorem setOpHi_gs (s : State) (k : Fin 5) (v : Word) : (s.setOpHi k v).gs = s.gs := rfl
@[simp] theorem setOpHi_port (s : State) (k : Fin 5) (v : Word) : (s.setOpHi k v).port = s.port := rfl
@[simp] theorem setOpHi_readLog (s : State) (k : Fin 5) (v : Word) :
    (s.setOpHi k v).readLog = s.readLog := rfl
@[simp] theorem setOpHi_draws (s : State) (k : Fin 5) (v : Word) : (s.setOpHi k v).draws = s.draws := rfl

/-! ### `drawn` -/

@[simp] theorem drawn_params (s : State) : (s.drawn).params = s.params := rfl
@[simp] theorem drawn_err (s : State) : (s.drawn).err = s.err := rfl
@[simp] theorem drawn_errie (s : State) : (s.drawn).errie = s.errie := rfl
@[simp] theorem drawn_errcode (s : State) : (s.drawn).errcode = s.errcode := rfl
@[simp] theorem drawn_errcmd (s : State) : (s.drawn).errcmd = s.errcmd := rfl
@[simp] theorem drawn_cmd (s : State) : (s.drawn).cmd = s.cmd := rfl
@[simp] theorem drawn_cmdcnt (s : State) : (s.drawn).cmdcnt = s.cmdcnt := rfl
@[simp] theorem drawn_op (s : State) : (s.drawn).op = s.op := rfl
@[simp] theorem drawn_res (s : State) : (s.drawn).res = s.res := rfl
@[simp] theorem drawn_fo (s : State) : (s.drawn).fo = s.fo := rfl
@[simp] theorem drawn_bq (s : State) : (s.drawn).bq = s.bq := rfl
@[simp] theorem drawn_ps (s : State) : (s.drawn).ps = s.ps := rfl
@[simp] theorem drawn_ef (s : State) : (s.drawn).ef = s.ef := rfl
@[simp] theorem drawn_gc (s : State) : (s.drawn).gc = s.gc := rfl
@[simp] theorem drawn_gs (s : State) : (s.drawn).gs = s.gs := rfl
@[simp] theorem drawn_port (s : State) : (s.drawn).port = s.port := rfl
@[simp] theorem drawn_readLog (s : State) : (s.drawn).readLog = s.readLog := rfl
@[simp] theorem drawn_draws (s : State) : (s.drawn).draws = s.draws + 1 := rfl
@[simp] theorem drawn_operand (s : State) (j : Fin 5) : (s.drawn).operand j = s.operand j := rfl

/-! ### `errClear` -/

@[simp] theorem errClear_params (s : State) : (errClear s).params = s.params := rfl
@[simp] theorem errClear_err (s : State) : (errClear s).err = false := rfl
@[simp] theorem errClear_errie (s : State) : (errClear s).errie = s.errie := rfl
@[simp] theorem errClear_errcode (s : State) : (errClear s).errcode = 0 := rfl
@[simp] theorem errClear_errcmd (s : State) : (errClear s).errcmd = 0 := rfl
@[simp] theorem errClear_cmd (s : State) : (errClear s).cmd = s.cmd := rfl
@[simp] theorem errClear_cmdcnt (s : State) : (errClear s).cmdcnt = s.cmdcnt := rfl
@[simp] theorem errClear_op (s : State) : (errClear s).op = s.op := rfl
@[simp] theorem errClear_res (s : State) : (errClear s).res = s.res := rfl
@[simp] theorem errClear_fo (s : State) : (errClear s).fo = s.fo := rfl
@[simp] theorem errClear_bq (s : State) : (errClear s).bq = s.bq := rfl
@[simp] theorem errClear_ps (s : State) : (errClear s).ps = s.ps := rfl
@[simp] theorem errClear_ef (s : State) : (errClear s).ef = s.ef := rfl
@[simp] theorem errClear_gc (s : State) : (errClear s).gc = s.gc := rfl
@[simp] theorem errClear_gs (s : State) : (errClear s).gs = s.gs := rfl
@[simp] theorem errClear_port (s : State) : (errClear s).port = s.port := rfl
@[simp] theorem errClear_readLog (s : State) : (errClear s).readLog = s.readLog := rfl
@[simp] theorem errClear_draws (s : State) : (errClear s).draws = s.draws := rfl
@[simp] theorem errClear_operand (s : State) (j : Fin 5) : (errClear s).operand j = s.operand j := rfl
@[simp] theorem errClear_fp (s : State) : (errClear s).fp = s.fp := rfl

/-! ### `acceptCommand` -/

@[simp] theorem acceptCommand_params (s : State) (w : Word) : (acceptCommand w s).params = s.params := rfl
@[simp] theorem acceptCommand_err (s : State) (w : Word) : (acceptCommand w s).err = s.err := rfl
@[simp] theorem acceptCommand_errie (s : State) (w : Word) : (acceptCommand w s).errie = s.errie := rfl
@[simp] theorem acceptCommand_errcode (s : State) (w : Word) : (acceptCommand w s).errcode = s.errcode := rfl
@[simp] theorem acceptCommand_errcmd (s : State) (w : Word) : (acceptCommand w s).errcmd = s.errcmd := rfl
@[simp] theorem acceptCommand_cmd (s : State) (w : Word) : (acceptCommand w s).cmd = w := rfl
@[simp] theorem acceptCommand_cmdcnt (s : State) (w : Word) : (acceptCommand w s).cmdcnt = s.cmdcnt + 1 := rfl
@[simp] theorem acceptCommand_op (s : State) (w : Word) : (acceptCommand w s).op = s.op := rfl
@[simp] theorem acceptCommand_res (s : State) (w : Word) : (acceptCommand w s).res = s.res := rfl
@[simp] theorem acceptCommand_fo (s : State) (w : Word) : (acceptCommand w s).fo = s.fo := rfl
@[simp] theorem acceptCommand_bq (s : State) (w : Word) : (acceptCommand w s).bq = s.bq := rfl
@[simp] theorem acceptCommand_ps (s : State) (w : Word) : (acceptCommand w s).ps = s.ps := rfl
@[simp] theorem acceptCommand_ef (s : State) (w : Word) : (acceptCommand w s).ef = s.ef := rfl
@[simp] theorem acceptCommand_gc (s : State) (w : Word) : (acceptCommand w s).gc = s.gc := rfl
@[simp] theorem acceptCommand_gs (s : State) (w : Word) : (acceptCommand w s).gs = s.gs := rfl
@[simp] theorem acceptCommand_port (s : State) (w : Word) : (acceptCommand w s).port = s.port := rfl
@[simp] theorem acceptCommand_readLog (s : State) (w : Word) : (acceptCommand w s).readLog = s.readLog := rfl
@[simp] theorem acceptCommand_draws (s : State) (w : Word) : (acceptCommand w s).draws = s.draws := rfl
@[simp] theorem acceptCommand_operand (s : State) (w : Word) (j : Fin 5) :
    (acceptCommand w s).operand j = s.operand j := rfl
@[simp] theorem acceptCommand_fp (s : State) (w : Word) : (acceptCommand w s).fp = s.fp := rfl

/-! ### `hardReset` -/

@[simp] theorem hardReset_params (s : State) : (hardReset s).params = s.params := rfl
@[simp] theorem hardReset_err (s : State) : (hardReset s).err = (State.resetWith s.params).err := rfl
@[simp] theorem hardReset_errie (s : State) : (hardReset s).errie = (State.resetWith s.params).errie := rfl
@[simp] theorem hardReset_errcode (s : State) :
    (hardReset s).errcode = (State.resetWith s.params).errcode := rfl
@[simp] theorem hardReset_errcmd (s : State) : (hardReset s).errcmd = (State.resetWith s.params).errcmd := rfl
@[simp] theorem hardReset_cmd (s : State) : (hardReset s).cmd = (State.resetWith s.params).cmd := rfl
@[simp] theorem hardReset_cmdcnt (s : State) : (hardReset s).cmdcnt = (State.resetWith s.params).cmdcnt := rfl
@[simp] theorem hardReset_op (s : State) : (hardReset s).op = (State.resetWith s.params).op := rfl
@[simp] theorem hardReset_res (s : State) : (hardReset s).res = (State.resetWith s.params).res := rfl
@[simp] theorem hardReset_fo (s : State) : (hardReset s).fo = (State.resetWith s.params).fo := rfl
@[simp] theorem hardReset_bq (s : State) : (hardReset s).bq = (State.resetWith s.params).bq := rfl
@[simp] theorem hardReset_ps (s : State) : (hardReset s).ps = (State.resetWith s.params).ps := rfl
@[simp] theorem hardReset_ef (s : State) : (hardReset s).ef = (State.resetWith s.params).ef := rfl
@[simp] theorem hardReset_gc (s : State) : (hardReset s).gc = (State.resetWith s.params).gc := rfl
@[simp] theorem hardReset_gs (s : State) : (hardReset s).gs = (State.resetWith s.params).gs := rfl
@[simp] theorem hardReset_port (s : State) : (hardReset s).port = s.port := rfl
@[simp] theorem hardReset_readLog (s : State) : (hardReset s).readLog = s.readLog := rfl
@[simp] theorem hardReset_draws (s : State) : (hardReset s).draws = s.draws := rfl

/-! ### `errorProc`: with a recorded error nothing changes, otherwise the record is written (R332) -/

theorem errorProc_of_err (e : ErrCode) (w : Word) (s : State) (h : s.err = true) : errorProc e w s = s := by
  simp [errorProc, h]

theorem errorProc_of_no_err (e : ErrCode) (w : Word) (s : State) (h : s.err = false) :
    errorProc e w s = { s with err := true, errcode := errNumber e, errcmd := w } := by
  simp [errorProc, h]

@[simp] theorem errorProc_err (e : ErrCode) (w : Word) (s : State) : (errorProc e w s).err = true := by
  cases h : s.err <;> simp [errorProc, h]

@[simp] theorem errorProc_params (e : ErrCode) (w : Word) (s : State) : (errorProc e w s).params = s.params := by
  cases h : s.err <;> simp [errorProc, h]
@[simp] theorem errorProc_errie (e : ErrCode) (w : Word) (s : State) : (errorProc e w s).errie = s.errie := by
  cases h : s.err <;> simp [errorProc, h]
@[simp] theorem errorProc_cmd (e : ErrCode) (w : Word) (s : State) : (errorProc e w s).cmd = s.cmd := by
  cases h : s.err <;> simp [errorProc, h]
@[simp] theorem errorProc_cmdcnt (e : ErrCode) (w : Word) (s : State) : (errorProc e w s).cmdcnt = s.cmdcnt := by
  cases h : s.err <;> simp [errorProc, h]
@[simp] theorem errorProc_op (e : ErrCode) (w : Word) (s : State) : (errorProc e w s).op = s.op := by
  cases h : s.err <;> simp [errorProc, h]
@[simp] theorem errorProc_res (e : ErrCode) (w : Word) (s : State) : (errorProc e w s).res = s.res := by
  cases h : s.err <;> simp [errorProc, h]
@[simp] theorem errorProc_fo (e : ErrCode) (w : Word) (s : State) : (errorProc e w s).fo = s.fo := by
  cases h : s.err <;> simp [errorProc, h]
@[simp] theorem errorProc_bq (e : ErrCode) (w : Word) (s : State) : (errorProc e w s).bq = s.bq := by
  cases h : s.err <;> simp [errorProc, h]
@[simp] theorem errorProc_ps (e : ErrCode) (w : Word) (s : State) : (errorProc e w s).ps = s.ps := by
  cases h : s.err <;> simp [errorProc, h]
@[simp] theorem errorProc_ef (e : ErrCode) (w : Word) (s : State) : (errorProc e w s).ef = s.ef := by
  cases h : s.err <;> simp [errorProc, h]
@[simp] theorem errorProc_gc (e : ErrCode) (w : Word) (s : State) : (errorProc e w s).gc = s.gc := by
  cases h : s.err <;> simp [errorProc, h]
@[simp] theorem errorProc_gs (e : ErrCode) (w : Word) (s : State) : (errorProc e w s).gs = s.gs := by
  cases h : s.err <;> simp [errorProc, h]
@[simp] theorem errorProc_port (e : ErrCode) (w : Word) (s : State) : (errorProc e w s).port = s.port := by
  cases h : s.err <;> simp [errorProc, h]
@[simp] theorem errorProc_readLog (e : ErrCode) (w : Word) (s : State) : (errorProc e w s).readLog = s.readLog := by
  cases h : s.err <;> simp [errorProc, h]
@[simp] theorem errorProc_draws (e : ErrCode) (w : Word) (s : State) : (errorProc e w s).draws = s.draws := by
  cases h : s.err <;> simp [errorProc, h]
@[simp] theorem errorProc_operand (e : ErrCode) (w : Word) (s : State) (k : Fin 5) :
    (errorProc e w s).operand k = s.operand k := by
  simp [State.operand]

/-! ### Halves (R82) -/

theorem joinHalves_getLsbD (hi lo : Word) (i : Nat) :
    (joinHalves hi lo).getLsbD i = if i < 32 then lo.getLsbD i else hi.getLsbD (i - 32) :=
  BitVec.getLsbD_append ..

@[simp] theorem loHalf_joinHalves (hi lo : Word) : loHalf (joinHalves hi lo) = lo := by
  apply BitVec.eq_of_getLsbD_eq
  intro i hi'
  simp [loHalf, joinHalves_getLsbD, hi']

@[simp] theorem hiHalf_joinHalves (hi lo : Word) : hiHalf (joinHalves hi lo) = hi := by
  apply BitVec.eq_of_getLsbD_eq
  intro i hi'
  simp [hiHalf, joinHalves_getLsbD, hi']

theorem joinHalves_halves (x : Sample) : joinHalves (hiHalf x) (loHalf x) = x := by
  apply BitVec.eq_of_getLsbD_eq
  intro i hi'
  by_cases h : i < 32
  · simp [loHalf, joinHalves_getLsbD, h]
  · simp [hiHalf, joinHalves_getLsbD, h, show i - 32 < 32 by omega, show 32 + (i - 32) = i by omega]

end Sys2Proof.Machine
end

