-- ==== Sys2Proof/Laws/Ops.lean ====
section
/-! SUPPORT. For each shared operation of Machine/Ops.lean, and for the port of Machine/Execute.lean and
Machine/Step.lean, what it can do, said once. -/

namespace Sys2Proof.Machine

/-! ### Concluding a command (R130) -/

@[simp] theorem conclude_ok (s t : State) : conclude s (.ok t) = .next t := rfl

@[simp] theorem conclude_error (s : State) (e : ErrCode) : conclude s (.error e) = .next (errorProc e s.cmd s) := rfl

/-- A command answers its effect, or the error procedure for the word in `CMD`; it never stops. -/
theorem conclude_cases (s : State) (x : Except ErrCode State) :
    (∃ t, x = .ok t ∧ conclude s x = .next t) ∨ ∃ e, x = .error e ∧ conclude s x = .next (errorProc e s.cmd s) := by
  cases x with
  | ok t => exact .inl ⟨t, rfl, rfl⟩
  | error e => exact .inr ⟨e, rfl, rfl⟩

/-- From the answer of a command back to its effect or its error. -/
theorem conclude_next (s t : State) (x : Except ErrCode State) (h : conclude s x = .next t) :
    x = .ok t ∨ ∃ e, x = .error e ∧ t = errorProc e s.cmd s := by
  cases x with
  | ok u => exact .inl (by simpa using h)
  | error e => exact .inr ⟨e, rfl, by simpa using h.symm⟩

/-- A check before the rest of a command: it passes, or its error is the command's. -/
theorem bind_ok {α β : Type} (x : Except ErrCode α) (k : α → Except ErrCode β) (b : β) (h : x >>= k = .ok b) :
    ∃ a, x = .ok a ∧ k a = .ok b := by
  cases x with
  | ok a => exact ⟨a, rfl, h⟩
  | error e => cases h

@[simp] theorem ok_bind {α β : Type} (a : α) (k : α → Except ErrCode β) :
    ((Except.ok a : Except ErrCode α) >>= k) = k a := rfl

@[simp] theorem error_bind {α β : Type} (e : ErrCode) (k : α → Except ErrCode β) :
    ((Except.error e : Except ErrCode α) >>= k) = .error e := rfl

@[simp] theorem pure_except {α : Type} (a : α) : (pure a : Except ErrCode α) = .ok a := rfl

/-! ### Checks (R131 to R133, R195, R234 to R236): each passes exactly under its condition -/

theorem needPrepared_ok (b : Bool) (u : Unit) : needPrepared b = .ok u ↔ b = true := by
  cases b <;> simp [needPrepared]

theorem checkCount_ok (n m : Nat) (u : Unit) : checkCount n m = .ok u ↔ 1 ≤ n ∧ n ≤ m := by
  unfold checkCount
  split
  · simp; omega
  · simp; omega

theorem checkChannel_ok (n c : Nat) (u : Unit) : checkChannel n c = .ok u ↔ c < n := by
  unfold checkChannel
  split <;> simp [*]

theorem checkSection_ok (n k : Nat) (u : Unit) : checkSection n k = .ok u ↔ k < n := by
  unfold checkSection
  split
  · simp; omega
  · simp; omega

theorem checkFs_ok (f : Format) (x : Sample) (u : Unit) : checkFs f x = .ok u ↔ positiveFinite f x = true := by
  unfold checkFs
  split <;> simp [*]

theorem checkFreq_ok (f : Format) (x : Sample) (u : Unit) : checkFreq f x = .ok u ↔ validFreq f x = true := by
  unfold checkFreq
  split <;> simp [*]

theorem checkQ_ok (f : Format) (x : Sample) (u : Unit) : checkQ f x = .ok u ↔ positiveFinite f x = true := by
  unfold checkQ
  split <;> simp [*]

theorem checkLinearGain_ok (f : Format) (x : Sample) (u : Unit) :
    checkLinearGain f x = .ok u ↔ positiveFinite f x = true := by
  unfold checkLinearGain
  split <;> simp [*]

theorem checkGainDb_ok (f : Format) (x : Sample) (u : Unit) : checkGainDb f x = .ok u ↔ validGainDb f x = true := by
  unfold checkGainDb
  split <;> simp [*]

/-- The channels a field selects are distinct and prepared (R104, R132). -/
theorem channels_ok (nch : Nat) (sel : ChanSel) (cs : List Nat) (h : channels nch sel = .ok cs) :
    cs.Nodup ∧ (∀ c ∈ cs, c < nch) ∧ ((sel = .all ∧ cs = List.range nch) ∨ ∃ c, sel = .one c ∧ cs = [c]) := by
  cases sel with
  | all =>
    simp only [channels, Except.ok.injEq] at h
    subst h
    exact ⟨List.nodup_range, fun c hc => List.mem_range.1 hc, .inl ⟨rfl, rfl⟩⟩
  | one c =>
    simp only [channels] at h
    split at h
    · simp only [Except.ok.injEq] at h
      subst h
      exact ⟨List.nodup_singleton c, by simpa, .inr ⟨c, rfl, rfl⟩⟩
    · cases h

/-! ### Channels and sections (R104) -/

theorem length_onChannels {α : Type} (cs : List Nat) (eff : Nat → α → α) (l : List α) :
    (onChannels cs eff l).length = l.length := by
  induction cs generalizing l with
  | nil => rfl
  | cons c cs ih =>
    rw [onChannels, List.foldl_cons, ← onChannels, ih, List.length_modify]

/-- A set of distinct channels: each takes its effect once, the others are as before. -/
theorem getElem?_onChannels {α : Type} (cs : List Nat) (eff : Nat → α → α) (l : List α) (c : Nat) (h : cs.Nodup) :
    (onChannels cs eff l)[c]? = if c ∈ cs then (l[c]?).map (eff c) else l[c]? := by
  induction cs generalizing l with
  | nil => simp [onChannels]
  | cons d cs ih =>
    rw [List.nodup_cons] at h
    rw [onChannels, List.foldl_cons, ← onChannels, ih _ h.2, List.getElem?_modify]
    by_cases hd : d = c
    · subst hd
      simp [h.1]
    · simp [hd, Ne.symm hd]

theorem elemAt_onSections {α : Type} (cs : List Nat) (sec : Nat) (eff : Nat → α → α) (l : List (List α)) (c k : Nat)
    (h : cs.Nodup) :
    elemAt (onSections cs sec eff l) c k =
      if c ∈ cs ∧ k = sec then (elemAt l c k).map (eff c) else elemAt l c k := by
  unfold elemAt onSections
  rw [getElem?_onChannels cs _ l c h]
  by_cases hc : c ∈ cs
  · rw [if_pos hc]
    cases l[c]? with
    | none => simp
    | some chain =>
      by_cases hk : sec = k
      · subst hk; simp [hc]
      · simp [hk, Ne.symm hk]
  · simp [hc]

theorem elemAt_replicate {α : Type} (n m c k : Nat) (x : α) :
    elemAt (List.replicate n (List.replicate m x)) c k = if c < n ∧ k < m then some x else none := by
  by_cases hc : c < n <;> by_cases hk : k < m <;> simp [elemAt, hc, hk]

/-! ### The register bus (R81 to R84, R87) -/

/-- The accesses the core answers, and the register offset they reach. -/
theorem busOffset_ok (p : Params) (a n o : Nat) :
    busOffset p a n = .ok o ↔ o < 256 ∧ o % 4 = 0 ∧ a = p.base + o ∧ n = 4 := by
  unfold busOffset
  split
  · simp; omega
  · split
    · simp; omega
    · simp; omega

theorem busOffset_error (p : Params) (a n : Nat) (f : Fault) (h : busOffset p a n = .error f) :
    (f = .outsideWindow ∧ (a < p.base ∨ p.base + 256 ≤ a)) ∨
      (f = .busError ∧ p.base ≤ a ∧ a < p.base + 256 ∧ (n ≠ 4 ∨ (a - p.base) % 4 ≠ 0)) := by
  unfold busOffset at h
  split at h
  · simp at h; exact .inl ⟨h.symm, by omega⟩
  · split at h
    · simp at h; exact .inr ⟨h.symm, by omega, by omega, by omega⟩
    · simp at h

/-- A write outside `CMD` sets the interrupt enable, one half of one operand register, or nothing. -/
theorem writeReg_cases (s : State) (v : Word) (o : Nat) :
    (o = 0x0C ∧ writeReg s v o = { s with errie := v.getLsbD 0 }) ∨
    (∃ k : Fin 5, o = 0x20 + 8 * k.val ∧ writeReg s v o = s.setOpLo k v) ∨
    (∃ k : Fin 5, o = 0x24 + 8 * k.val ∧ writeReg s v o = s.setOpHi k v) ∨
    writeReg s v o = s := by
  unfold writeReg
  split
  · exact .inl ⟨rfl, rfl⟩
  · exact .inr (.inl ⟨0, rfl, rfl⟩)
  · exact .inr (.inr (.inl ⟨0, rfl, rfl⟩))
  · exact .inr (.inl ⟨1, rfl, rfl⟩)
  · exact .inr (.inr (.inl ⟨1, rfl, rfl⟩))
  · exact .inr (.inl ⟨2, rfl, rfl⟩)
  · exact .inr (.inr (.inl ⟨2, rfl, rfl⟩))
  · exact .inr (.inl ⟨3, rfl, rfl⟩)
  · exact .inr (.inr (.inl ⟨3, rfl, rfl⟩))
  · exact .inr (.inl ⟨4, rfl, rfl⟩)
  · exact .inr (.inr (.inl ⟨4, rfl, rfl⟩))
  · exact .inr (.inr (.inr rfl))

/-! ### The port (R87, R88) -/

/-- What an answered read leaves. -/
theorem hostRead_next (a n : Nat) (s t : State) (h : hostRead a n s = .next t) :
    ∃ o, busOffset s.params a n = .ok o ∧ t = { s with readLog := s.readLog ++ [readReg s o] } := by
  unfold hostRead at h
  cases hb : busOffset s.params a n with
  | error f => simp [hb] at h
  | ok o => exact ⟨o, rfl, by simpa [hb] using h.symm⟩

/-- What an answered write does: the command of its word, or a store to a register. -/
theorem hostWrite_next (a n : Nat) (v : Word) (s t : State) (h : hostWrite a n v s = .next t) :
    (busOffset s.params a n = .ok 0x18 ∧ execute v (acceptCommand v s) = .next t) ∨
    ∃ o, busOffset s.params a n = .ok o ∧ o ≠ 0x18 ∧ t = writeReg s v o := by
  unfold hostWrite at h
  cases hb : busOffset s.params a n with
  | error f => simp [hb] at h
  | ok o =>
    by_cases ho : o = 0x18
    · subst ho; exact .inl ⟨rfl, by simpa [hb, cmdOffset] using h⟩
    · refine .inr ⟨o, rfl, ho, ?_⟩
      simpa [hb, cmdOffset, ho] using h.symm

/-- Executing a word: its decode error, or the command it decodes to. -/
theorem execute_cases (w : Word) (s : State) :
    (∃ e, decode w = .error e ∧ execute w s = .next (errorProc e w s)) ∨
    ∃ i, decode w = .ok i ∧ execute w s = exec i s := by
  unfold execute
  cases h : decode w with
  | error e => exact .inl ⟨e, rfl, rfl⟩
  | ok i => exact .inr ⟨i, rfl, rfl⟩

theorem step_idle (s : State) (h : s.port = []) : step s = .next s := by simp [step, h]

theorem step_event (s : State) (ev : HostEvent) (rest : List HostEvent) (h : s.port = ev :: rest) :
    step s = handle ev { s with port := rest } := by simp [step, h]

/-- The next step of a state a command word was placed in runs that word. -/
theorem step_withFetchWord (s : State) (nbits w : Nat) :
    step (s.withFetchWord nbits w) =
      hostWrite (s.params.base + 0x18) 4 (BitVec.ofNat 32 (w % 2 ^ nbits)) s := rfl

end Sys2Proof.Machine
end

