-- ==== Sys2Proof/Laws/PerInstr.lean ====
section
/-! SUPPORT. Per command: the opcode of its word is the opcode of its row, and the reserved bits are 0 (R100, R106,
R109). -/

namespace Sys2Proof.Laws

/-- `RSV` and `OPC` of a packed word whose fields fit. -/
theorem packWord_fields (opc ch sec sub : Nat) (h0 : opc < 256) (h1 : ch < 256) (h2 : sec < 256) (h3 : sub < 16) :
    opcField (packWord opc ch sec sub) = opc ∧ rsvField (packWord opc ch sec sub) = 0 := by
  simp only [opcField, rsvField, fieldAt, packWord, BitVec.toNat_ofNat]
  constructor <;> omega

theorem selCode_lt (l : ChanSel) (h : l.fits = true) : selCode l < 256 := by
  cases l with
  | all => decide
  | one c => simp only [ChanSel.fits, decide_eq_true_eq] at h; simp only [selCode]; omega

theorem seedCode_lt (b : Bool) : seedCode b < 16 := by cases b <;> decide
theorem foTypeCode_lt (t : FoType) : foTypeCode t < 16 := by cases t <;> decide
theorem bqTypeCode_lt (t : BqType) : bqTypeCode t < 16 := by cases t <;> decide
theorem psAlgCode_lt (a : PsAlg) : psAlgCode a < 16 := by cases a <;> decide
theorem efVariantCode_lt (v : EfVariant) : efVariantCode v < 16 := by cases v <;> decide
theorem timeModeCode_lt (m : TimeMode) : timeModeCode m < 16 := by cases m <;> decide

theorem both {a b : Bool} (h : (a && b) = true) : a = true ∧ b = true := by simpa using h

theorem fitsByte_lt (n : Nat) (h : fitsByte n = true) : n < 256 := by simpa [fitsByte] using h

end Sys2Proof.Laws

namespace Sys2Proof.Laws.OpcodeField

/-- A well-formed command's word carries its opcode and no reserved bit. -/
def Statement (i : Instr) : Prop :=
  i.WellFormed = true → opcField (encode i) = opcodeOf i ∧ rsvField (encode i) = 0

theorem nop : Statement (.nop) :=
  fun _ => packWord_fields _ _ _ _
    (of_decide_eq_true rfl) (of_decide_eq_true rfl) (of_decide_eq_true rfl) (of_decide_eq_true rfl)

theorem errclr : Statement (.errclr) :=
  fun _ => packWord_fields _ _ _ _
    (of_decide_eq_true rfl) (of_decide_eq_true rfl) (of_decide_eq_true rfl) (of_decide_eq_true rfl)

theorem foPrepare (channels : Nat) (sections : Nat) : Statement (.foPrepare channels sections) :=
  fun h => packWord_fields _ _ _ _
    (of_decide_eq_true rfl) (fitsByte_lt _ (both h).1) (fitsByte_lt _ (both h).2) (of_decide_eq_true rfl)

theorem foReset (sel : ChanSel) : Statement (.foReset sel) :=
  fun h => packWord_fields _ _ _ _
    (of_decide_eq_true rfl) (selCode_lt _ h) (of_decide_eq_true rfl) (of_decide_eq_true rfl)

theorem foSetcoef (sel : ChanSel) (sec : Nat) : Statement (.foSetcoef sel sec) :=
  fun h => packWord_fields _ _ _ _
    (of_decide_eq_true rfl) (selCode_lt _ (both h).1) (fitsByte_lt _ (both h).2) (of_decide_eq_true rfl)

theorem foProcess (ch : Nat) : Statement (.foProcess ch) :=
  fun h => packWord_fields _ _ _ _
    (of_decide_eq_true rfl) (fitsByte_lt _ h) (of_decide_eq_true rfl) (of_decide_eq_true rfl)

theorem foDesign (t : FoType) : Statement (.foDesign t) :=
  fun _ => packWord_fields _ _ _ _
    (of_decide_eq_true rfl) (of_decide_eq_true rfl) (of_decide_eq_true rfl) (foTypeCode_lt t)

theorem foReadcoef (ch : Nat) (sec : Nat) : Statement (.foReadcoef ch sec) :=
  fun h => packWord_fields _ _ _ _
    (of_decide_eq_true rfl) (fitsByte_lt _ (both h).1) (fitsByte_lt _ (both h).2) (of_decide_eq_true rfl)

theorem foReadstate (ch : Nat) (sec : Nat) : Statement (.foReadstate ch sec) :=
  fun h => packWord_fields _ _ _ _
    (of_decide_eq_true rfl) (fitsByte_lt _ (both h).1) (fitsByte_lt _ (both h).2) (of_decide_eq_true rfl)

theorem bqPrepare (channels : Nat) (sections : Nat) : Statement (.bqPrepare channels sections) :=
  fun h => packWord_fields _ _ _ _
    (of_decide_eq_true rfl) (fitsByte_lt _ (both h).1) (fitsByte_lt _ (both h).2) (of_decide_eq_true rfl)

theorem bqReset (sel : ChanSel) : Statement (.bqReset sel) :=
  fun h => packWord_fields _ _ _ _
    (of_decide_eq_true rfl) (selCode_lt _ h) (of_decide_eq_true rfl) (of_decide_eq_true rfl)

theorem bqSettype (sel : ChanSel) (sec : Nat) (t : BqType) : Statement (.bqSettype sel sec t) :=
  fun h => packWord_fields _ _ _ _
    (of_decide_eq_true rfl) (selCode_lt _ (both h).1) (fitsByte_lt _ (both h).2) (bqTypeCode_lt t)

theorem bqSetfreq (sel : ChanSel) (sec : Nat) : Statement (.bqSetfreq sel sec) :=
  fun h => packWord_fields _ _ _ _
    (of_decide_eq_true rfl) (selCode_lt _ (both h).1) (fitsByte_lt _ (both h).2) (of_decide_eq_true rfl)

theorem bqSetq (sel : ChanSel) (sec : Nat) : Statement (.bqSetq sel sec) :=
  fun h => packWord_fields _ _ _ _
    (of_decide_eq_true rfl) (selCode_lt _ (both h).1) (fitsByte_lt _ (both h).2) (of_decide_eq_true rfl)

theorem bqSetgain (sel : ChanSel) (sec : Nat) : Statement (.bqSetgain sel sec) :=
  fun h => packWord_fields _ _ _ _
    (of_decide_eq_true rfl) (selCode_lt _ (both h).1) (fitsByte_lt _ (both h).2) (of_decide_eq_true rfl)

theorem bqSetcoef (sel : ChanSel) (sec : Nat) : Statement (.bqSetcoef sel sec) :=
  fun h => packWord_fields _ _ _ _
    (of_decide_eq_true rfl) (selCode_lt _ (both h).1) (fitsByte_lt _ (both h).2) (of_decide_eq_true rfl)

theorem bqProcess (ch : Nat) : Statement (.bqProcess ch) :=
  fun h => packWord_fields _ _ _ _
    (of_decide_eq_true rfl) (fitsByte_lt _ h) (of_decide_eq_true rfl) (of_decide_eq_true rfl)

theorem bqReadcoef (ch : Nat) (sec : Nat) : Statement (.bqReadcoef ch sec) :=
  fun h => packWord_fields _ _ _ _
    (of_decide_eq_true rfl) (fitsByte_lt _ (both h).1) (fitsByte_lt _ (both h).2) (of_decide_eq_true rfl)

theorem bqReadstate (ch : Nat) (sec : Nat) : Statement (.bqReadstate ch sec) :=
  fun h => packWord_fields _ _ _ _
    (of_decide_eq_true rfl) (fitsByte_lt _ (both h).1) (fitsByte_lt _ (both h).2) (of_decide_eq_true rfl)

theorem bqReadparam (ch : Nat) (sec : Nat) : Statement (.bqReadparam ch sec) :=
  fun h => packWord_fields _ _ _ _
    (of_decide_eq_true rfl) (fitsByte_lt _ (both h).1) (fitsByte_lt _ (both h).2) (of_decide_eq_true rfl)

theorem psPrepare (channels : Nat) (order : Nat) (alg : PsAlg) : Statement (.psPrepare channels order alg) :=
  fun h => packWord_fields _ _ _ _
    (of_decide_eq_true rfl) (fitsByte_lt _ (both h).1) (fitsByte_lt _ (both h).2) (psAlgCode_lt alg)

theorem psReset (sel : ChanSel) (seeded : Bool) : Statement (.psReset sel seeded) :=
  fun h => packWord_fields _ _ _ _
    (of_decide_eq_true rfl) (selCode_lt _ h) (of_decide_eq_true rfl) (seedCode_lt seeded)

theorem psSettime (sel : ChanSel) : Statement (.psSettime sel) :=
  fun h => packWord_fields _ _ _ _
    (of_decide_eq_true rfl) (selCode_lt _ h) (of_decide_eq_true rfl) (of_decide_eq_true rfl)

theorem psSettarget (sel : ChanSel) : Statement (.psSettarget sel) :=
  fun h => packWord_fields _ _ _ _
    (of_decide_eq_true rfl) (selCode_lt _ h) (of_decide_eq_true rfl) (of_decide_eq_true rfl)

theorem psNext (ch : Nat) : Statement (.psNext ch) :=
  fun h => packWord_fields _ _ _ _
    (of_decide_eq_true rfl) (fitsByte_lt _ h) (of_decide_eq_true rfl) (of_decide_eq_true rfl)

theorem psRead (ch : Nat) : Statement (.psRead ch) :=
  fun h => packWord_fields _ _ _ _
    (of_decide_eq_true rfl) (fitsByte_lt _ h) (of_decide_eq_true rfl) (of_decide_eq_true rfl)

theorem psReadstage (ch : Nat) (stage : Nat) : Statement (.psReadstage ch stage) :=
  fun h => packWord_fields _ _ _ _
    (of_decide_eq_true rfl) (fitsByte_lt _ (both h).1) (fitsByte_lt _ (both h).2) (of_decide_eq_true rfl)

theorem efPrepare (channels : Nat) (variant : EfVariant) : Statement (.efPrepare channels variant) :=
  fun h => packWord_fields _ _ _ _
    (of_decide_eq_true rfl) (fitsByte_lt _ h) (of_decide_eq_true rfl) (efVariantCode_lt variant)

theorem efReset (sel : ChanSel) (seeded : Bool) : Statement (.efReset sel seeded) :=
  fun h => packWord_fields _ _ _ _
    (of_decide_eq_true rfl) (selCode_lt _ h) (of_decide_eq_true rfl) (seedCode_lt seeded)

theorem efSetattack (sel : ChanSel) (mode : TimeMode) : Statement (.efSetattack sel mode) :=
  fun h => packWord_fields _ _ _ _
    (of_decide_eq_true rfl) (selCode_lt _ h) (of_decide_eq_true rfl) (timeModeCode_lt mode)

theorem efSetrelease (sel : ChanSel) (mode : TimeMode) : Statement (.efSetrelease sel mode) :=
  fun h => packWord_fields _ _ _ _
    (of_decide_eq_true rfl) (selCode_lt _ h) (of_decide_eq_true rfl) (timeModeCode_lt mode)

theorem efProcess (ch : Nat) : Statement (.efProcess ch) :=
  fun h => packWord_fields _ _ _ _
    (of_decide_eq_true rfl) (fitsByte_lt _ h) (of_decide_eq_true rfl) (of_decide_eq_true rfl)

theorem efRead (ch : Nat) : Statement (.efRead ch) :=
  fun h => packWord_fields _ _ _ _
    (of_decide_eq_true rfl) (fitsByte_lt _ h) (of_decide_eq_true rfl) (of_decide_eq_true rfl)

theorem gcSetthresh : Statement (.gcSetthresh) :=
  fun _ => packWord_fields _ _ _ _
    (of_decide_eq_true rfl) (of_decide_eq_true rfl) (of_decide_eq_true rfl) (of_decide_eq_true rfl)

theorem gcSetratio : Statement (.gcSetratio) :=
  fun _ => packWord_fields _ _ _ _
    (of_decide_eq_true rfl) (of_decide_eq_true rfl) (of_decide_eq_true rfl) (of_decide_eq_true rfl)

theorem gcSetknee : Statement (.gcSetknee) :=
  fun _ => packWord_fields _ _ _ _
    (of_decide_eq_true rfl) (of_decide_eq_true rfl) (of_decide_eq_true rfl) (of_decide_eq_true rfl)

theorem gcCompute : Statement (.gcCompute) :=
  fun _ => packWord_fields _ _ _ _
    (of_decide_eq_true rfl) (of_decide_eq_true rfl) (of_decide_eq_true rfl) (of_decide_eq_true rfl)

theorem gcRead : Statement (.gcRead) :=
  fun _ => packWord_fields _ _ _ _
    (of_decide_eq_true rfl) (of_decide_eq_true rfl) (of_decide_eq_true rfl) (of_decide_eq_true rfl)

theorem gsPrepare (channels : Nat) : Statement (.gsPrepare channels) :=
  fun h => packWord_fields _ _ _ _
    (of_decide_eq_true rfl) (fitsByte_lt _ h) (of_decide_eq_true rfl) (of_decide_eq_true rfl)

theorem gsReset (sel : ChanSel) (seeded : Bool) : Statement (.gsReset sel seeded) :=
  fun h => packWord_fields _ _ _ _
    (of_decide_eq_true rfl) (selCode_lt _ h) (of_decide_eq_true rfl) (seedCode_lt seeded)

theorem gsSetattack (sel : ChanSel) : Statement (.gsSetattack sel) :=
  fun h => packWord_fields _ _ _ _
    (of_decide_eq_true rfl) (selCode_lt _ h) (of_decide_eq_true rfl) (of_decide_eq_true rfl)

theorem gsSetrelease (sel : ChanSel) : Statement (.gsSetrelease sel) :=
  fun h => packWord_fields _ _ _ _
    (of_decide_eq_true rfl) (selCode_lt _ h) (of_decide_eq_true rfl) (of_decide_eq_true rfl)

theorem gsProcess (ch : Nat) : Statement (.gsProcess ch) :=
  fun h => packWord_fields _ _ _ _
    (of_decide_eq_true rfl) (fitsByte_lt _ h) (of_decide_eq_true rfl) (of_decide_eq_true rfl)

theorem gsRead (ch : Nat) : Statement (.gsRead ch) :=
  fun h => packWord_fields _ _ _ _
    (of_decide_eq_true rfl) (fitsByte_lt _ h) (of_decide_eq_true rfl) (of_decide_eq_true rfl)

end Sys2Proof.Laws.OpcodeField
end

