-- ==== Sys2Proof/Machine/Pseudo.lean ====
section
/-! DEFINITION. The host's side of spec/30_encoding.md section 4: how a command line assembles into accesses (R120)
and what the pseudo-instructions expand to (R121 to R125). None of this is hardware: it is the expansions' text, over
`step`. The mnemonics' spelling and the reading of number literals (R120) are the assembler's and are not modelled
(log 13). -/

namespace Sys2Proof.Machine

/-- The offset of `OPk_LO` (R30). -/
def opOffset (k : Fin 5) : Nat := 0x20 + 8 * k.val

/-- The offset of `RESk_LO` (R30). -/
def resOffset (k : Fin 5) : Nat := 0x60 + 8 * k.val

/-- R120: the writes of one operand; the `_HI` write is left out in binary32. -/
def operandWrites (p : Params) (k : Fin 5) (v : Sample) : List HostEvent :=
  .write (p.base + opOffset k) 4 (loHalf v) ::
    (if isBinary64 p.fmt then [.write (p.base + opOffset k + 4) 4 (hiHalf v)] else [])

/-- R120: a line's operands, named in increasing `k`, then the command word. -/
def commandLine (p : Params) (i : Instr) (operands : List (Fin 5 × Sample)) : List HostEvent :=
  operands.flatMap (fun kv => operandWrites p kv.1 kv.2) ++ [.write (p.base + cmdOffset) 4 (encode i)]

/-- R120: `RD RESk`. -/
def readResult (p : Params) (k : Fin 5) : List HostEvent :=
  [.read (p.base + resOffset k) 4, .read (p.base + resOffset k + 4) 4]

/-- The events given to the port, one step each. -/
def play (events : List HostEvent) (s : State) : Result :=
  match events with
  | [] => .next s
  | ev :: rest =>
    match step { s with port := [ev] } with
    | .next t => play rest t
    | .fault r => .fault r
    | .refused r => .refused r

/-- One list of events after another, the second made from the state the first leaves. -/
def playThen (r : Result) (events : State → List HostEvent) : Result :=
  match r with
  | .next t => play (events t) t
  | .fault f => .fault f
  | .refused f => .refused f

/-- R122: the host copy `RESj -> OPk`, in the state it starts from: both halves are read, then written. -/
def copyResult (j k : Fin 5) (s : State) : List HostEvent :=
  readResult s.params j ++
    [.write (s.params.base + opOffset k) 4 (loHalf (s.res.get j)),
     .write (s.params.base + opOffset k + 4) 4 (hiHalf (s.res.get j))]

/-- R121: `FO_IDENTITY`. -/
def foIdentityLine (p : Params) (sel : ChanSel) (sec : Nat) : List HostEvent :=
  commandLine p (.foSetcoef sel sec)
    [(0, ofInteger p.fmt 1), (1, zeroOf p.fmt false), (2, zeroOf p.fmt false)]

/-- R121: `BQ_IDENTITY`. -/
def bqIdentityLine (p : Params) (sel : ChanSel) (sec : Nat) : List HostEvent :=
  commandLine p (.bqSetcoef sel sec)
    [(0, ofInteger p.fmt 1), (1, zeroOf p.fmt false), (2, zeroOf p.fmt false), (3, zeroOf p.fmt false),
     (4, zeroOf p.fmt false)]

/-- R122: `FO_DESIGNSET`; a gain that is not named leaves `OP1` as it was (R120). -/
def foDesignset (sel : ChanSel) (sec : Nat) (type : FoType) (f : Sample) (g : Option Sample) (s : State) : Result :=
  let p := s.params
  let r1 := play (commandLine p (.foDesign type) ((0, f) :: g.toList.map (fun v => (1, v)))) s
  let r2 := playThen (playThen (playThen r1 (copyResult 0 0)) (copyResult 1 1)) (copyResult 2 2)
  playThen r2 fun t => commandLine t.params (.foSetcoef sel sec) []

/-- R123: `FO_PROCESSBLOCK`: channel after channel, sample after sample. -/
def foProcessblock (p : Params) (inputs : List (List Sample)) : List HostEvent :=
  (inputs.zipIdx).flatMap fun (xs, c) =>
    xs.flatMap fun x => commandLine p (.foProcess c) [(0, x)] ++ readResult p 0

/-- R123: `BQ_PROCESSBLOCK`. -/
def bqProcessblock (p : Params) (inputs : List (List Sample)) : List HostEvent :=
  (inputs.zipIdx).flatMap fun (xs, c) =>
    xs.flatMap fun x => commandLine p (.bqProcess c) [(0, x)] ++ readResult p 0

/-- R124: `RESETALL`: one unseeded RESET of every channel for each prepared unit. -/
def resetAll (s : State) : List HostEvent :=
  let line (prepared : Bool) (i : Instr) := if prepared then commandLine s.params i [] else []
  line s.fo.prepared (.foReset .all) ++ line s.bq.prepared (.bqReset .all)
    ++ line s.ps.prepared (.psReset .all false) ++ line s.ef.prepared (.efReset .all false)
    ++ line s.gs.prepared (.gsReset .all false)

/-- R125: `GAINCTL`: follower, computer and smoother of one channel, one sample; the result is `RES0` in dB. -/
def gainControl (c : Nat) (x : Sample) (s : State) : Result :=
  let r1 := play (commandLine s.params (.efProcess c) [(0, x)]) s
  let r2 := playThen (playThen r1 (copyResult 0 0)) fun t => commandLine t.params .gcCompute []
  playThen (playThen r2 (copyResult 0 0)) fun t => commandLine t.params (.gsProcess c) []

end Sys2Proof.Machine
end

