-- ==== Sys2Proof/Tests/Slice0.lean ====
section
/-! SUPPORT. Tests: the decoding of a hand-written word for every command, ill-formed terms, one-step vectors of
spec/95_test_vectors.md (the values that rest on no transcendental function, and the designs from given cosines), and
a witness for the hypotheses of every statement that has some. -/

namespace Sys2Proof.Tests

open Sys2Proof.Machine Sys2Proof.Claims

/- One theorem at a time: each kernel evaluation would otherwise take a thread of its own. -/
set_option Elab.async false

/-! ### binary64 encodings, named by their values (`m` is a minus sign, `_` the point) -/

abbrev fm20 : Sample := 0xC034000000000000
abbrev fm15 : Sample := 0xC02E000000000000
abbrev fm10 : Sample := 0xC024000000000000
abbrev fm7_5 : Sample := 0xC01E000000000000
abbrev fm6 : Sample := 0xC018000000000000
abbrev fm5 : Sample := 0xC014000000000000
abbrev fm3_75 : Sample := 0xC00E000000000000
abbrev fm3 : Sample := 0xC008000000000000
abbrev fm2 : Sample := 0xC000000000000000
abbrev fm1 : Sample := 0xBFF0000000000000
abbrev fm0_9375 : Sample := 0xBFEE000000000000
abbrev fm0_75 : Sample := 0xBFE8000000000000
abbrev fm0_5 : Sample := 0xBFE0000000000000
abbrev f0_1 : Sample := 0x3FB999999999999A
abbrev f0_125 : Sample := 0x3FC0000000000000
abbrev f0_2 : Sample := 0x3FC999999999999A
abbrev f0_25 : Sample := 0x3FD0000000000000
abbrev f0_5 : Sample := 0x3FE0000000000000
abbrev f0_6 : Sample := 0x3FE3333333333333
abbrev f0_7 : Sample := 0x3FE6666666666666
abbrev f0_75 : Sample := 0x3FE8000000000000
abbrev f1 : Sample := 0x3FF0000000000000
abbrev f1_5 : Sample := 0x3FF8000000000000
abbrev f2 : Sample := 0x4000000000000000
abbrev f2_5 : Sample := 0x4004000000000000
abbrev f3 : Sample := 0x4008000000000000
abbrev f4 : Sample := 0x4010000000000000
abbrev f10 : Sample := 0x4024000000000000
abbrev f1000 : Sample := 0x408F400000000000
abbrev f48000 : Sample := 0x40E7700000000000
abbrev f1e30 : Sample := 0x46293E5939A08CEA

/-! ### Decoding: each word is written from R100's fields, SUB SEC CH OPC from the left, and R109's row -/

theorem test_decode_system : decode 0x00000000 = .ok .nop ∧ decode 0x00000001 = .ok .errclr := by decide

theorem test_decode_fo :
    decode 0x00030410 = .ok (.foPrepare 4 3) ∧ decode 0x0000FF11 = .ok (.foReset .all) ∧
    decode 0x00090512 = .ok (.foSetcoef (.one 5) 9) ∧ decode 0x00000213 = .ok (.foProcess 2) ∧
    decode 0x00000014 = .ok (.foDesign .lowpass) ∧ decode 0x01000014 = .ok (.foDesign .highpass) ∧
    decode 0x02000014 = .ok (.foDesign .allpass) ∧ decode 0x03000014 = .ok (.foDesign .lowshelf) ∧
    decode 0x04000014 = .ok (.foDesign .highshelf) ∧ decode 0x00020115 = .ok (.foReadcoef 1 2) ∧
    decode 0x00020116 = .ok (.foReadstate 1 2) := by decide

theorem test_decode_bq :
    decode 0x00010220 = .ok (.bqPrepare 2 1) ∧ decode 0x00000121 = .ok (.bqReset (.one 1)) ∧
    decode 0x04000022 = .ok (.bqSettype (.one 0) 0 .notch) ∧ decode 0x0003FF23 = .ok (.bqSetfreq .all 3) ∧
    decode 0x00030124 = .ok (.bqSetq (.one 1) 3) ∧ decode 0x00030125 = .ok (.bqSetgain (.one 1) 3) ∧
    decode 0x0000FF26 = .ok (.bqSetcoef .all 0) ∧ decode 0x00000127 = .ok (.bqProcess 1) ∧
    decode 0x00020128 = .ok (.bqReadcoef 1 2) ∧ decode 0x00020129 = .ok (.bqReadstate 1 2) ∧
    decode 0x0002012A = .ok (.bqReadparam 1 2) := by decide

theorem test_decode_bqtypes :
    decode 0x00000022 = .ok (.bqSettype (.one 0) 0 .lowpass) ∧
    decode 0x01000022 = .ok (.bqSettype (.one 0) 0 .highpass) ∧
    decode 0x02000022 = .ok (.bqSettype (.one 0) 0 .bandpass) ∧
    decode 0x03000022 = .ok (.bqSettype (.one 0) 0 .allpass) ∧
    decode 0x05000022 = .ok (.bqSettype (.one 0) 0 .peak) ∧
    decode 0x06000022 = .ok (.bqSettype (.one 0) 0 .lowshelf) ∧
    decode 0x07000022 = .ok (.bqSettype (.one 0) 0 .highshelf) := by decide

theorem test_decode_ps :
    decode 0x00000130 = .ok (.psPrepare 1 0 .none) ∧ decode 0x01080130 = .ok (.psPrepare 1 8 .exp) ∧
    decode 0x02000130 = .ok (.psPrepare 1 0 .linear) ∧ decode 0x0100FF31 = .ok (.psReset .all true) ∧
    decode 0x00000031 = .ok (.psReset (.one 0) false) ∧ decode 0x0000FF32 = .ok (.psSettime .all) ∧
    decode 0x00000033 = .ok (.psSettarget (.one 0)) ∧ decode 0x0000FF34 = .ok (.psNext 255) ∧
    decode 0x00000135 = .ok (.psRead 1) ∧ decode 0x00020036 = .ok (.psReadstage 0 2) := by decide

theorem test_decode_ef :
    decode 0x00000140 = .ok (.efPrepare 1 .peak) ∧ decode 0x01000140 = .ok (.efPrepare 1 .rms) ∧
    decode 0x01000041 = .ok (.efReset (.one 0) true) ∧ decode 0x01000042 = .ok (.efSetattack (.one 0) .perceptual) ∧
    decode 0x0000FF42 = .ok (.efSetattack .all .raw) ∧ decode 0x0100FF43 = .ok (.efSetrelease .all .perceptual) ∧
    decode 0x00000344 = .ok (.efProcess 3) ∧ decode 0x00000345 = .ok (.efRead 3) := by decide

theorem test_decode_gc :
    decode 0x00000050 = .ok .gcSetthresh ∧ decode 0x00000051 = .ok .gcSetratio ∧ decode 0x00000052 = .ok .gcSetknee ∧
    decode 0x00000053 = .ok .gcCompute ∧ decode 0x00000054 = .ok .gcRead := by decide

theorem test_decode_gs :
    decode 0x00000160 = .ok (.gsPrepare 1) ∧ decode 0x01000061 = .ok (.gsReset (.one 0) true) ∧
    decode 0x0000FF62 = .ok (.gsSetattack .all) ∧ decode 0x00000263 = .ok (.gsSetrelease (.one 2)) ∧
    decode 0x00000064 = .ok (.gsProcess 0) ∧ decode 0x00000165 = .ok (.gsRead 1) := by decide

/-- Vectors D1 to D20. -/
theorem test_decode_errors :
    [0x00000002, 0x000000FF, 0x00000070, 0xF0000099].all (fun w => decode w == .error .illegalOpcode) = true ∧
    [0x10000000, 0x00000100, 0x00010000, 0x01000000, 0x00000101, 0x01000062, 0x00010011, 0x01000011, 0x00FF0034,
      0x0000FF53, 0x10000053].all (fun w => decode w == .error .reservedField) = true ∧
    [0x08000022, 0x05000014, 0x03000030, 0x02000040, 0x02000031].all (fun w => decode w == .error .badSubcode) = true
    := by decide

/-- The words of the table's numbering are the command words themselves. -/
theorem test_decodeTableWord : decodeTableWord 32 0x0003FF23 = some (.bqSetfreq .all 3) ∧
    decodeTableWord 8 0x54 = some .gcRead ∧ decodeTableWord 32 0x00000002 = none := by decide

/-- Two of the words above, back from their commands (R112). -/
theorem test_encode : encode (.foSetcoef (.one 5) 9) = 0x00090512 ∧
    encode (.efSetrelease .all .perceptual) = 0x0100FF43
    := by decide

/-! ### Ill-formed terms: no word carries them (R100, R102) -/

theorem test_illformed_channel_count :
    (Instr.foPrepare 256 1).WellFormed = false ∧ (Instr.bqPrepare 256 1).WellFormed = false ∧
    (Instr.psPrepare 256 0 .none).WellFormed = false ∧ (Instr.efPrepare 256 .peak).WellFormed = false ∧
    (Instr.gsPrepare 256).WellFormed = false := by decide

theorem test_illformed_section_count :
    (Instr.foPrepare 1 256).WellFormed = false ∧ (Instr.bqPrepare 1 256).WellFormed = false ∧
    (Instr.psPrepare 1 256 .exp).WellFormed = false := by decide

theorem test_illformed_selector :
    [Instr.foReset (.one 255), .foSetcoef (.one 255) 0, .bqReset (.one 255), .bqSettype (.one 255) 0 .peak,
      .bqSetfreq (.one 255) 0, .bqSetq (.one 255) 0, .bqSetgain (.one 255) 0, .bqSetcoef (.one 255) 0,
      .psReset (.one 255) true, .psSettime (.one 255), .psSettarget (.one 255), .efReset (.one 255) false,
      .efSetattack (.one 255) .raw, .efSetrelease (.one 255) .raw, .gsReset (.one 255) true, .gsSetattack (.one 255),
      .gsSetrelease (.one 255)].any Instr.WellFormed = false := by decide

theorem test_illformed_channel :
    [Instr.foProcess 256, .foReadcoef 256 0, .foReadstate 256 0, .bqProcess 256, .bqReadcoef 256 0, .bqReadstate 256 0,
      .bqReadparam 256 0, .psNext 256, .psRead 256, .psReadstage 256 0, .efProcess 256, .efRead 256, .gsProcess 256,
      .gsRead 256].any Instr.WellFormed = false := by decide

theorem test_illformed_section :
    [Instr.foSetcoef .all 256, .foReadcoef 0 256, .foReadstate 0 256, .bqSettype .all 256 .notch, .bqSetfreq .all 256,
      .bqSetq .all 256, .bqSetgain .all 256, .bqSetcoef .all 256, .bqReadcoef 0 256, .bqReadstate 0 256,
      .bqReadparam 0 256, .psReadstage 0 256].any Instr.WellFormed = false := by decide

/-! ### A small state: every unit prepared, two channels each -/

/-- A quiet NaN of the host's. -/
def aNaN : Sample := 0x7FF8000000000000

/-- Section coefficients of spec/95_test_vectors.md 2.6. -/
def bqCoefs (σ : BqSection) : BqSection :=
  { σ with b0 := f0_5, b1 := f0_25, b2 := f0_125, a1 := fm0_5, a2 := f0_25 }

/-- LINEAR after `ms` = 3, target 3 (vector P9), with 0.5 in place of its transcendental decay factor. -/
def rampChannel : PsChannel :=
  { current := 0, target := f3, stage := [], coef := f0_5, dur := 3, remaining := 3, inc := f1 }

/-- Every unit prepared with two channels; `OP0` = 1. -/
def demo : State :=
  { State.reset with
    op := { Bank.zero with w0 := f1 }
    fo := { prepared := true, nch := 2, nsec := 2,
            sections := [[{ b0 := f1, b1 := 0, a1 := fm0_5, xp := 0, yp := f1 }, foFresh .binary64],
                         [foFresh .binary64, foFresh .binary64]] }
    bq := { prepared := true, nch := 2, nsec := 1,
            sections := [[bqCoefs (bqFresh .binary64)], [bqFresh .binary64]] }
    ps := { prepared := true, nch := 2, alg := .linear, order := 0, fs := f1000,
            chans := [rampChannel, psFresh .binary64 0] }
    ef := { prepared := true, nch := 2, variant := .peak, fs := f1000,
            chans := [{ env := f0_5, att := f0_25, rel := f0_5 }, efFresh .binary64] }
    gc := { thr := fm10, ratio := f4, knee := 0 }
    gs := { prepared := true, nch := 2, fs := f1000,
            chans := [{ g := fm3, att := f0_25, rel := f0_5 }, gsFresh .binary64] } }

/-- `demo` with an operand. -/
def demoWith (v : Sample) : State := { demo with op := { demo.op with w0 := v } }

/-- `demo` with the EXP smoother of order 2 and an RMS follower. -/
def demoExp : State :=
  { demo with
    ps := { prepared := true, nch := 1, alg := .exp, order := 2, fs := f1000,
            chans := [{ psFresh .binary64 2 with target := f0_25 }] }
    ef := { demo.ef with variant := .rms } }

/-- `demo` with the smoother that has no algorithm. -/
def demoNone : State :=
  { demo with
    ps := { demo.ps with
            alg := .none
            chans := [{ psFresh .binary64 0 with target := f0_7 }, psFresh .binary64 0] } }

/-- `demo` with the host's next access. -/
def demoPort (ev : HostEvent) : State := { demo with port := [ev] }

/-- `demo` with an error recorded. -/
def demoErr : State := { demo with err := true, errcode := 4, errcmd := 0x13 }

/-- What a step leaves, where it goes on. -/
def seen {α : Type} (r : Result) (view : State → α) : Option α :=
  match r with
  | .next t => some (view t)
  | .fault _ => none
  | .refused _ => none

/-- The fault a step stops with. -/
def faulted (r : Result) : Option Fault :=
  match r with
  | .next _ => none
  | .fault f => some f
  | .refused _ => none

/-! ### The register window (spec/95_test_vectors.md 2.1) -/

/-- Vectors M1 to M3. -/
theorem test_reset_reads :
    readReg State.reset 0x00 = 0x4A445350 ∧ readReg State.reset 0x04 = 0x00110404 ∧
    ([0x08, 0x0C, 0x10, 0x14, 0x18, 0x1C].map (readReg State.reset)) = [0, 0, 0, 0, 0, 0] := by decide +kernel

/-- Vectors M4 and M7: writes to read-only and reserved offsets. -/
theorem test_write_readonly :
    [0x00, 0x04, 0x08, 0x10, 0x14, 0x1C, 0x60, 0x48, 0xFC].all
      (fun o => seen (hostWrite o 4 0xFFFFFFFF demo) (fun t => decide (t = demo)) == some true) = true := by
  decide +kernel

/-- Vectors M5 and M6. -/
theorem test_write_ctrl :
    seen (hostWrite 0x0C 4 0xFFFFFFFE demo) (fun t => readReg t 0x0C) = some 0 ∧
    seen (hostWrite 0x0C 4 0xFFFFFFFF demo) (fun t => readReg t 0x0C) = some 1 := by decide +kernel

/-- Vector M9: the low half is kept. -/
theorem test_write_op_high :
    seen (hostWrite 0x24 4 0x33333333 (demoWith 0x2222222211111111)) (fun t => t.op.w0) = some 0x3333333311111111 := by
  decide +kernel

/-- Vector M10: byte lanes of 1.0 in `OP0_HI`. -/
theorem test_byte_lanes : [0x20, 0x24, 0x25, 0x26, 0x27].map (byteLane demo) = [0x00, 0x00, 0x00, 0xF0, 0x3F] := by
  decide +kernel

/-- Vector M12: `CMDCNT` wraps. -/
theorem test_cmdcnt_wraps :
    seen (hostWrite 0x18 4 0 { demo with cmdcnt := 0xFFFFFFFF }) (fun t => t.cmdcnt) = some 0 := by decide +kernel

/-- Vector M13. -/
theorem test_bus_errors :
    faulted (hostRead 0x00 2 demo) = some .busError ∧ faulted (hostWrite 0x02 4 0 demo) = some .busError ∧
    faulted (hostRead 0x100 4 demo) = some .outsideWindow := by decide +kernel

/-! ### Errors (spec/95_test_vectors.md 2.3) -/

/-- Vectors X1, X2, X5. -/
theorem test_error_priority :
    seen (execute 0x00090512 { State.reset with cmd := 0x00090512 }) (fun t => (t.errcode, t.errcmd)) =
      some (4, 0x00090512) ∧
    seen (execute 0x00090512 demo) (fun t => t.errcode) = some 6 ∧
    seen (execute 0x00090112 demo) (fun t => t.errcode) = some 7 ∧
    seen (execute 0x0000FF13 demo) (fun t => t.errcode) = some 6 := by decide +kernel

/-- Vectors X10 and X11. -/
theorem test_section_and_count_before_value :
    seen (execute 0x00010023 (demoWith 0)) (fun t => t.errcode) = some 7 ∧
    seen (execute 0x01010030 (demoWith 0)) (fun t => t.errcode) = some 5 := by decide +kernel

/-- Vectors X12 to X14: status, masked status, cleared record. -/
theorem test_status_bits :
    readReg { demoErr with errie := true } 0x08 = 0x7F ∧ readReg demoErr 0x08 = 0x3F ∧
    seen (exec .errclr demoErr) (fun t => (readReg t 0x08, t.errcode, t.errcmd)) = some (0x3E, 0, 0) := by
  decide +kernel

theorem test_nop : exec .nop demo = .next demo := rfl

/-! ### Helpers (spec/95_test_vectors.md 2.4) -/

/-- `OnePole` rows 2, 3, 5. -/
theorem test_onePole :
    onePole ⟨.binary64, []⟩ f0_5 f0_25 0 = f0_25 ∧ onePole ⟨.binary64, []⟩ f0_5 0x8000000000000000 0 = 0 ∧
    onePole ⟨.binary64, []⟩ f0_2 f0_6 f0_5 = 0x3FD999999999999A := by decide +kernel

/-- `Duration(ms, 1000)` for 3, 0.5, 1.5, 2.5, NaN, infinity, 1e30. -/
theorem test_duration :
    [f3, f0_5, f1_5, f2_5, aNaN, 0x7FF0000000000000, f1e30].map
      (fun ms => duration ⟨.binary64, []⟩ ms f1000) = [3, 0, 2, 2, 0, 4294967295, 4294967295] := by decide +kernel

/-- `TimeCoeff` of 0, -1 and NaN. -/
theorem test_timeCoeff_not_positive :
    [0, fm1, aNaN].map (fun ms => timeCoeff ⟨.binary64, []⟩ ms f1000) = [0, 0, 0] := by decide +kernel

/-! ### First-order filter (spec/95_test_vectors.md 2.5) -/

/-- Vector X9, and R41. -/
theorem test_foPrepare :
    seen (exec (.foPrepare 4 4) demo) (fun t => (t.fo.nch, t.fo.nsec, elemAt t.fo.sections 3 3)) =
      some (4, 4, some ⟨f1, 0, 0, 0, 0⟩) ∧
    seen (exec (.foPrepare 4 5) demo) (fun t => t.errcode) = some 5 := by decide +kernel

theorem test_foReset :
    seen (exec (.foReset (.one 0)) demo) (fun t => elemAt t.fo.sections 0 0) =
      some (some ⟨f1, 0, fm0_5, 0, 0⟩) := by decide +kernel

/-- A broadcast to both channels; vector X4: no channel is written on a section error. -/
theorem test_foSetcoef :
    seen (exec (.foSetcoef .all 1) demo) (fun t => (elemAt t.fo.sections 0 1, elemAt t.fo.sections 1 1)) =
      some (some ⟨f1, 0, 0, 0, 0⟩, some ⟨f1, 0, 0, 0, 0⟩) ∧
    seen (exec (.foSetcoef .all 2) demo) (fun t => (t.errcode, decide (t.fo = demo.fo))) = some (7, true) := by
  decide +kernel

/-- Coefficients (1, 0, -0.5) after an output of 1, input 0 then: 0.5. -/
theorem test_foProcess :
    seen (exec (.foProcess 0) (demoWith 0)) (fun t => (t.res.w0, elemAt t.fo.sections 0 0)) =
      some (f0_5, some ⟨f1, 0, fm0_5, 0, f0_5⟩) := by decide +kernel

/-- Design errors: frequency 0.6 and NaN; a shelf's gain 0; a frequency error before a gain error. -/
theorem test_foDesign_errors :
    [(f0_6, FoType.lowpass), (aNaN, .lowpass), (0, .lowshelf), (f0_1, .lowshelf)].map
      (fun p => seen (exec (.foDesign p.2) (demoWith p.1)) (fun t => t.errcode)) =
      [some 9, some 9, some 9, some 11] := by decide +kernel

/-- The all pass of 0.1 has b1 = 1, with no PREPARE; NaN in `OP1` is not read. -/
theorem test_foDesign :
    seen (exec (.foDesign .allpass) { State.reset with op := { Bank.zero with w0 := f0_1, w1 := aNaN } })
      (fun t => (t.res.w1, t.err)) = some (f1, false) := by decide +kernel

/-- 90_conflicts.md C1 and C2, R198: a1 = x in the high pass; the all pass's b1 is 1; the shelves
differ in b1's sign. -/
theorem test_foDesign_forms (e : Fp) (f g : Sample) :
    (foHighpass e f).a1 = foDecay e f ∧ (foAllpass e f).b1 = ofInteger e.fmt 1 ∧
    (foHighshelf e f g).b1 = fneg e.fmt (foLowshelf e f g).b1 := ⟨rfl, rfl, rfl⟩

theorem test_foReadcoef :
    seen (exec (.foReadcoef 0 0) demo) (fun t => t.res) = some ⟨f1, 0, fm0_5, 0, 0⟩ := by decide +kernel

theorem test_foReadstate :
    seen (exec (.foReadstate 0 0) demo) (fun t => t.res) = some ⟨0, f1, 0, 0, 0⟩ ∧
    seen (exec (.foReadstate 0 2) demo) (fun t => t.errcode) = some 7 := by decide +kernel

/-! ### Biquad filter (spec/95_test_vectors.md 2.6) -/

theorem test_bqPrepare :
    seen (exec (.bqPrepare 1 1) demo) (fun t => t.bq.sections) = some [[bqFresh .binary64]] := by decide +kernel

theorem test_bqReset :
    seen (exec (.bqReset .all) { demo with bq := { demo.bq with
        sections := [[{ bqFresh .binary64 with x1 := f1, y2 := f1 }], []] } })
      (fun t => t.bq.sections) = some [[bqFresh .binary64], []] := by decide +kernel

/-- The designs at f = 0.1, Q = `QDEF`, 6 dB, from the sample values nearest to the cosine, the sine and `A`. -/
def designed (T : BqType) : List Sample :=
  let e : Fp := ⟨.binary64, []⟩
  let α := fdiv e 0x3FE2CF2304755A5E (fmul e (ofInteger .binary64 2) (qDef .binary64))
  let r := bqRawOf e 0x3FE9E3779B97F4A8 α 0x3FF699C0F7E86E10 T
  [r.n0, r.n1, r.n2, r.d1, r.d2].map (fun n => fdiv e n r.d0)

/-- 0.0674552738890719, 0.1349105477781438, 0.0674552738890719, -1.142980502539901, 0.4128015980961886. -/
theorem test_bq_lowpass : designed .lowpass =
    [0x3FB144BFB34BD96F, 0x3FC144BFB34BD96F, 0x3FB144BFB34BD96F, 0xBFF249A5EC65FE08, 0x3FDA6B5764E3D191] := by
  decide +kernel

/-- 0.6389455251590224, -1.2778910503180447, 0.6389455251590224, -1.142980502539901, 0.4128015980961886. -/
theorem test_bq_highpass : designed .highpass =
    [0x3FE4723DE2CF7936, 0xBFF4723DE2CF7936, 0x3FE4723DE2CF7936, 0xBFF249A5EC65FE08, 0x3FDA6B5764E3D191] := by
  decide +kernel

/-- 0.29359920095190567, -0.29359920095190567, -1.142980502539901, 0.4128015980961886. -/
theorem test_bq_bandpass : designed .bandpass =
    [0x3FD2CA544D8E1737, 0, 0xBFD2CA544D8E1737, 0xBFF249A5EC65FE08, 0x3FDA6B5764E3D191] := by
  decide +kernel

/-- 0.4128015980961886, -1.142980502539901, 1.0, -1.142980502539901, 0.4128015980961886. -/
theorem test_bq_allpass : designed .allpass =
    [0x3FDA6B5764E3D191, 0xBFF249A5EC65FE08, f1, 0xBFF249A5EC65FE08, 0x3FDA6B5764E3D191] := by
  decide +kernel

/-- 0.7064007990480943, -1.142980502539901, 0.7064007990480943, -1.142980502539901, 0.4128015980961886. -/
theorem test_bq_notch : designed .notch =
    [0x3FE69AD5D938F464, 0xBFF249A5EC65FE08, 0x3FE69AD5D938F464, 0xBFF249A5EC65FE08, 0x3FDA6B5764E3D191] := by
  decide +kernel

/-- 1.226269480803347, -1.2501794994858708, 0.3190373646378526, -1.2501794994858708, 0.5453068454411997. -/
theorem test_bq_peak : designed .peak =
    [0x3FF39ECCBF4221E5, 0xBFF400BC3806BE51, 0x3FD46B1BB1D49528, 0xBFF400BC3806BE51, 0x3FE17327576E8E5F] := by
  decide +kernel

/-- 1.1600444348430667, -1.164492065336592, 0.41262895143512857, -1.2662950922768696, 0.4708703593379176. -/
theorem test_bq_lowshelf : designed .lowshelf =
    [0x3FF28F8AC0D8ECA5, 0xBFF2A1C26E91278F, 0x3FDA688342F2FC4E, 0xBFF442BEA486A19E, 0x3FDE22BD6E80C6A5] := by
  decide +kernel

/-- 1.719987834120167, -2.1780121531222902, 0.8098912895090098, -1.003834017353074, 0.35570098785996057. -/
theorem test_bq_highshelf : designed .highshelf =
    [0x3FFB8511F691061B, 0xC0016C91A2BF9B33, 0x3FE9EAA1233834F6, 0xBFF00FB442324CCC, 0x3FD6C3CE1380DBEF] := by
  decide +kernel

theorem test_bqSettype :
    seen (exec (.bqSettype (.one 0) 0 .notch) demo)
      (fun t => (elemAt t.bq.sections 0 0).map (fun σ => (σ.type, σ.freq, σ.x1))) =
      some (some (.notch, f0_25, 0)) := by decide +kernel

/-- Frequencies 0, -0, 0.6 and NaN; 0.5 is the highest that passes. -/
theorem test_bqSetfreq :
    [0, 0x8000000000000000, f0_6, aNaN, f0_5].map
      (fun v => seen (exec (.bqSetfreq (.one 0) 0) (demoWith v)) (fun t => t.errcode)) =
      [some 9, some 9, some 9, some 9, some 0] := by decide +kernel

theorem test_bqSetq :
    [0, fm1, 0x7FF0000000000000, aNaN, f1].map
      (fun v => seen (exec (.bqSetq (.one 0) 0) (demoWith v)) (fun t => t.errcode)) =
      [some 10, some 10, some 10, some 10, some 0] := by decide +kernel

theorem test_bqSetgain :
    [0x7FF0000000000000, 0xFFF0000000000000, aNaN, fm6].map
      (fun v => seen (exec (.bqSetgain (.one 0) 0) (demoWith v)) (fun t => t.errcode)) =
      [some 11, some 11, some 11, some 0] := by decide +kernel

theorem test_bqSetcoef :
    seen (exec (.bqSetcoef (.one 1) 0) { demo with op := ⟨f0_5, f0_25, f0_125, fm0_5, f0_25⟩ })
      (fun t => elemAt t.bq.sections 1 0) = some (some (bqCoefs (bqFresh .binary64))) := by decide +kernel

/-- The first two outputs 0.5 and 0.5 for inputs 1, 0. -/
theorem test_bqProcess :
    seen (exec (.bqProcess 0) demo) (fun t => (t.res.w0, (elemAt t.bq.sections 0 0).map (fun σ => (σ.x1, σ.y1)))) =
      some (f0_5, some (f1, f0_5)) ∧
    (bqSection ⟨.binary64, []⟩ { bqCoefs (bqFresh .binary64) with x1 := f1, y1 := f0_5 } 0).1 = f0_5 := by
  decide +kernel

theorem test_bqReadcoef :
    seen (exec (.bqReadcoef 0 0) demo) (fun t => t.res) = some ⟨f0_5, f0_25, f0_125, fm0_5, f0_25⟩ := by
  decide +kernel

theorem test_bqReadstate :
    seen (exec (.bqReadstate 1 0)
      { demo with bq := { demo.bq with
        sections := [[], [{ bqFresh .binary64 with x1 := 1, x2 := 2, y1 := 3, y2 := 4 }]] } })
      (fun t => t.res) = some ⟨1, 2, 3, 4, 0⟩ := by decide +kernel

theorem test_bqReadparam :
    seen (exec (.bqReadparam 1 0) demo) (fun t => t.res) = some ⟨0, f0_25, 0x3FE6A09E667F3BCD, 0, 0⟩ := by
  decide +kernel

/-! ### Parameter smoother (spec/95_test_vectors.md 2.7) -/

/-- The PREPARE errors: orders 0 and 9 under EXP, 1 under LINEAR and NONE, rate 0, and a legal one. -/
theorem test_psPrepare :
    [(1, 0, PsAlg.exp, (f1000 : Sample)), (1, 9, .exp, f1000), (1, 1, .linear, f1000), (1, 1, .none, f1000),
      (1, 8, .exp, 0), (5, 1, .exp, f1000), (1, 8, .exp, f1000)].map
      (fun p => seen (exec (.psPrepare p.1 p.2.1 p.2.2.1) (demoWith p.2.2.2)) (fun t => t.errcode)) =
      [some 5, some 5, some 5, some 5, some 8, some 5, some 0] := by decide +kernel

/-- Vector P18's seed. -/
theorem test_psReset :
    seen (exec (.psReset .all true) { demoExp with op := { Bank.zero with w0 := f0_5 } }) (fun t => t.ps.chans) =
      some [⟨f0_5, f0_5, [f0_5, f0_5], 0, 0, 0, 0⟩] := by decide +kernel

/-- A time of 0 ends the ramp at once. -/
theorem test_psSettime :
    seen (exec (.psSettime (.one 0)) (demoWith 0))
      (fun t => (t.ps.chans[0]?).map (fun p => (p.coef, p.dur, p.remaining, p.inc))) = some (some (0, 0, 0, 0)) := by
  decide +kernel

/-- Vectors P10 and P11: the same target keeps the ramp; another restarts it from the current value. -/
theorem test_psSettarget :
    seen (exec (.psSettarget (.one 0)) (demoWith f3)) (fun t => t.ps.chans[0]?) = some (some rampChannel) ∧
    seen (exec (.psSettarget (.one 0))
        { demoWith 0 with ps := { demo.ps with chans := [{ rampChannel with current := f1, remaining := 2 }] } })
      (fun t => t.ps.chans[0]?) =
      some (some { rampChannel with current := f1, target := 0, remaining := 3, inc := 0xBFD5555555555555 }) := by
  decide +kernel

/-- Vectors P8 (first and last step), P6 and P1. -/
theorem test_psNext :
    seen (exec (.psNext 0) demo) (fun t => (t.res.w0, (t.ps.chans[0]?).map PsChannel.remaining)) = some (f1, some 2) ∧
    seen (exec (.psNext 0) demoExp) (fun t => t.res.w0) = some f0_25 ∧
    seen (exec (.psNext 0) demoNone) (fun t => t.res.w0) = some f0_7 ∧
    stepLinear ⟨.binary64, []⟩ { rampChannel with current := f2, remaining := 1 } =
      { rampChannel with current := f3, remaining := 0 } := by decide +kernel

/-- Vector P9. -/
theorem test_psRead :
    seen (exec (.psRead 0) demo) (fun t => t.res) = some ⟨0, f3, f0_5, 3, f1⟩ := by decide +kernel

/-- Vector P19 and a stage that exists. -/
theorem test_psReadstage :
    seen (exec (.psReadstage 0 2) demoExp) (fun t => t.errcode) = some 7 ∧
    seen (exec (.psReadstage 0 1) { demoExp with ps := { demoExp.ps with
      chans := [{ psFresh .binary64 2 with stage := [f0_5, f0_25] }] } }) (fun t => t.res.w0) = some f0_25 := by
  decide +kernel

/-! ### Envelope follower (spec/95_test_vectors.md 2.8) -/

/-- Vector F15. -/
theorem test_efPrepare :
    seen (exec (.efPrepare 1 .rms) (demoWith f1000)) (fun t => t.ef) =
      some ⟨true, 1, .rms, f1000, [⟨0, 0, 0⟩]⟩ ∧
    seen (exec (.efPrepare 1 .rms) (demoWith 0)) (fun t => t.errcode) = some 8 := by decide +kernel

/-- Vectors F10 and F11: an RMS seed is squared. -/
theorem test_efReset :
    [f0_5, fm0_5].map (fun v =>
      seen (exec (.efReset (.one 0) true) { demoExp with op := { Bank.zero with w0 := v } })
        (fun t => (t.ef.chans[0]?).map EfChannel.env)) = [some (some f0_25), some (some f0_25)] := by decide +kernel

/-- Attack and release each set their own factor (a time of 0 gives +0). -/
theorem test_efSetattack :
    seen (exec (.efSetattack (.one 0) .raw) (demoWith 0)) (fun t => t.ef.chans[0]?) = some (some ⟨f0_5, 0, f0_5⟩) := by
  decide +kernel

theorem test_efSetrelease :
    seen (exec (.efSetrelease .all .perceptual) (demoWith 0)) (fun t => t.ef.chans) =
      some [⟨f0_5, f0_25, 0⟩, ⟨0, 0, 0⟩] := by decide +kernel

/-- Vectors F3, F5 and F12. -/
theorem test_efProcess :
    seen (exec (.efProcess 1) (demoWith fm0_75)) (fun t => t.res.w0) = some f0_75 ∧
    seen (exec (.efProcess 0) (demoWith fm0_5)) (fun t => t.res.w0) = some f0_5 ∧
    seen (exec (.efProcess 1) { demoExp with op := { Bank.zero with w0 := fm2 } })
      (fun t => (t.res.w0, (t.ef.chans[1]?).map EfChannel.env)) = some (f2, some f4) := by decide +kernel

theorem test_efRead :
    seen (exec (.efRead 0) { demoExp with ef := { demoExp.ef with chans := [⟨f0_25, 0, 0⟩] } }) (fun t => t.res) =
      some ⟨f0_25, 0, 0, f0_5, 0⟩ := by decide +kernel

/-! ### Gain computer (spec/95_test_vectors.md 2.9) -/

theorem test_gcSetthresh : seen (exec .gcSetthresh (demoWith aNaN)) (fun t => t.gc.thr) = some aNaN := by
  decide +kernel

theorem test_gcSetratio :
    [f0_5, 0, fm3, aNaN, f4, 0x7FF0000000000000].map
      (fun v => seen (exec .gcSetratio (demoWith v)) (fun t => t.gc.ratio)) =
      [some f1, some f1, some f1, some f1, some f4, some 0x7FF0000000000000] := by decide +kernel

theorem test_gcSetknee :
    [f0_5, 0, fm3, aNaN, f4, 0x7FF0000000000000].map
      (fun v => seen (exec .gcSetknee (demoWith v)) (fun t => t.gc.knee)) =
      [some f0_5, some 0, some 0, some 0, some f4, some 0x7FF0000000000000] := by decide +kernel

/-- Levels 0 (hard knee), -10 and -5 (knee 10), -20 (hard knee) and -15 (the lower knee edge: -0), in dB. -/
theorem test_gainChange :
    [(0, 0), (fm10, f10), (fm5, f10), (fm20, 0), (fm15, f10)].map
      (fun p => gainChange ⟨.binary64, []⟩ ⟨fm10, f4, p.2⟩ p.1) =
      [fm7_5, fm0_9375, fm3_75, 0, 0x8000000000000000] := by decide +kernel

/-- Level 1 at threshold -10, ratio 4, knee 0 gives -7.5 and +0 (R13: `flog10(1)` is +0). -/
theorem test_gcCompute :
    seen (exec .gcCompute demo) (fun t => (t.res.w0, t.res.w1)) = some (fm7_5, 0) := by
  have hl : machineFunctions.flog10 .binary64 (ofInteger .binary64 1) = zeroOf .binary64 false :=
    machineFunctions_laws.2.2.2.2.1.2.1 .binary64
  have ha : fabs .binary64 (demo.operand 0) = ofInteger .binary64 1 := by decide +kernel
  have hv : levelDb (demo.fp.site 0) (demo.operand 0) = 0 := by
    unfold levelDb flog10
    change fmul _ _ (settle _ (machineFunctions.flog10 .binary64 (fabs .binary64 (demo.operand 0)))) = 0
    rw [ha, hl]
    decide +kernel
  simp only [exec, execGcCompute, hv]
  decide +kernel

theorem test_gcRead :
    seen (exec .gcRead demo) (fun t => t.res) = some ⟨fm10, f4, 0, 0, 0⟩ := by decide +kernel

/-! ### Gain smoother (spec/95_test_vectors.md 2.10) -/

theorem test_gsPrepare :
    seen (exec (.gsPrepare 1) (demoWith f1000)) (fun t => t.gs) = some ⟨true, 1, f1000, [⟨0, 0, 0⟩]⟩ := by
  decide +kernel

/-- Vector S7: the reset keeps the times. -/
theorem test_gsReset :
    seen (exec (.gsReset (.one 0) false) demo) (fun t => t.gs.chans[0]?) = some (some ⟨0, f0_25, f0_5⟩) := by
  decide +kernel

theorem test_gsSetattack :
    seen (exec (.gsSetattack .all) (demoWith 0)) (fun t => t.gs.chans) = some [⟨fm3, 0, f0_5⟩, ⟨0, 0, 0⟩] := by
  decide +kernel

theorem test_gsSetrelease :
    seen (exec (.gsSetrelease (.one 0)) (demoWith 0)) (fun t => t.gs.chans) =
      some [⟨fm3, f0_25, 0⟩, ⟨0, 0, 0⟩] := by decide +kernel

/-- Vectors S4 and S5. -/
theorem test_gsProcess :
    seen (exec (.gsProcess 1) (demoWith fm6)) (fun t => t.res.w0) = some fm6 ∧
    seen (exec (.gsProcess 0) (demoWith fm3)) (fun t => t.res.w0) = some fm3 := by decide +kernel

theorem test_gsRead :
    seen (exec (.gsRead 0) demo) (fun t => t.res) = some ⟨fm3, f0_25, f0_5, 0, 0⟩ := by decide +kernel

/-! ### The port -/

/-- A word placed for the next step runs as the first command after reset. -/
theorem test_withFetchWord :
    seen (step (State.reset.withFetchWord 32 0x00040410)) (fun t => (t.fo.nch, t.cmd, t.cmdcnt, t.port)) =
      some (4, 0x00040410, 1, []) := by decide +kernel

/-! ### Witnesses: concrete states and operands that meet the hypotheses of each statement that has some, a boundary
value for each clause -/

theorem witness_EveryWellFormedCommandDecodesBack :
    (Instr.foSetcoef (.one 254) 255).WellFormed = true ∧
    (Instr.psPrepare 255 0 .linear).WellFormed = true := by decide

theorem witness_EveryDecodedWordIsItsEncoding : decode 0x07FFFF22 = .ok (.bqSettype .all 255 .highshelf) := by decide

theorem witness_DecodeErrorsFollowTheOpcodeMap :
    [0x00000066, 0x10000000, 0x05000014, 0x04000014].map decodeError =
      [some .illegalOpcode, some .reservedField, some .badSubcode, none] := by decide

theorem witness_ResetSatisfiesTheInvariant : ValidParams Config.defaultParams where
  channels := by decide
  sections := by decide
  scale := ⟨by decide +kernel, by unfold Fits; decide +kernel⟩
  base := by decide

theorem demo_fo_inv : FoInv demo.params demo.fo where
  idle := fun h => absurd h (by decide +kernel)
  counts := fun _ => by decide +kernel
  channelCount := by decide +kernel
  sectionCount := by decide +kernel
  fits := by unfold Fits; decide +kernel

theorem demo_bq_inv : BqInv demo.params demo.bq where
  idle := fun h => absurd h (by decide +kernel)
  counts := fun _ => by decide +kernel
  channelCount := by decide +kernel
  sectionCount := by decide +kernel
  parameters := by decide +kernel
  fits := by unfold Fits; decide +kernel

theorem demo_ps_inv : PsInv demo.params demo.ps where
  idle := fun h => absurd h (by decide +kernel)
  counts := fun _ => by decide +kernel
  order := by decide +kernel
  rate := by unfold Fits; decide +kernel
  channelCount := by decide +kernel
  stages := by decide +kernel
  ramp := by decide +kernel
  coefficient := by unfold UnitRange; decide +kernel
  fits := by
    intro ch h
    have hb : ∀ ch ∈ demo.ps.chans, (ch.current.toNat < 2 ^ 64 ∧ ch.target.toNat < 2 ^ 64) ∧
        ch.coef.toNat < 2 ^ 64 ∧ ch.inc.toNat < 2 ^ 64 ∧ ch.stage = [] := by decide +kernel
    obtain ⟨⟨h1, h2⟩, h3, h4, h5⟩ := hb ch h
    exact ⟨h1, h2, h3, h4, by simp [h5]⟩

theorem demo_ef_inv : EfInv demo.params demo.ef where
  idle := fun h => absurd h (by decide +kernel)
  counts := fun _ => by decide +kernel
  rate := by unfold Fits; decide +kernel
  channelCount := by decide +kernel
  coefficients := by unfold UnitRange; decide +kernel
  fits := by unfold Fits; decide +kernel

theorem demo_gc_inv : GcInv demo.params demo.gc where
  ratio := by decide +kernel
  knee := by decide +kernel
  fits := by unfold Fits; decide +kernel

theorem demo_gs_inv : GsInv demo.params demo.gs where
  idle := fun h => absurd h (by decide +kernel)
  counts := fun _ => by decide +kernel
  rate := by unfold Fits; decide +kernel
  channelCount := by decide +kernel
  coefficients := by unfold UnitRange; decide +kernel
  fits := by unfold Fits; decide +kernel

/-- `demo` satisfies the invariant, with any event at its port. -/
theorem demoPort_inv (ev : HostEvent) : Inv (demoPort ev) where
  params := witness_ResetSatisfiesTheInvariant
  noRecord := fun _ => ⟨rfl, rfl⟩
  record := fun h => absurd (show false = true from h) (by decide)
  results := show ∀ k : Fin 5, (demo.res.get k).toNat < 2 ^ (demo.params.fmt.signPos + 1) by decide +kernel
  fo := demo_fo_inv
  bq := demo_bq_inv
  ps := demo_ps_inv
  ef := demo_ef_inv
  gc := demo_gc_inv
  gs := demo_gs_inv

/-- The step of such a state goes on. -/
theorem witness_EveryStepKeepsTheInvariant : Inv (demoPort (.write 0x18 4 0x00000034)) ∧
    (seen (step (demoPort (.write 0x18 4 0x00000034))) (fun t => t.res.w0)) = some f1 :=
  ⟨demoPort_inv _, by decide +kernel⟩

theorem witness_NoStepChangesTheParameters :
    (seen (step (demoPort .reset)) (fun t => t.fo.prepared)) = some false := by decide +kernel

theorem witness_IdConfigStatusAndControlWords :
    let p : Params := { Config.defaultParams with maxChannels := 255, maxSections := 255 }
    (State.resetWith p).params.maxChannels ≤ 255 ∧ (State.resetWith p).params.maxSections ≤ 255 := by decide

theorem witness_ReadsHaveNoSideEffect : 252 < 256 ∧ 252 % 4 = 0 ∧ 0 < 256 ∧ 0 % 4 = 0 := by decide

/-- One offset for each clause: `CTRL`; a low half and a high half; read-only; reserved, between the banks and at the
end. -/
theorem witness_WritesOutsideCmd :
    [0x0C, 0x40, 0x44, 0x00, 0x08, 0x10, 0x1C, 0x48, 0x5C, 0x60, 0x84, 0x88, 0xFC].all
      (fun o => decide (o < 256 ∧ o % 4 = 0 ∧ o ≠ 0x18)) = true ∧
    0x40 = 0x20 + 8 * (4 : Fin 5).val ∧ 0x44 = 0x24 + 8 * (4 : Fin 5).val := by decide

theorem witness_NarrowWideAndMisalignedAccessesAreBusErrors : (0 < 256 ∧ (2 ≠ 4 ∨ 0 % 4 ≠ 0)) ∧ 255 < 256 ∧
    (4 ≠ 4 ∨ 255 % 4 ≠ 0) := by decide

theorem witness_StepRunsTheDecodedCommand :
    (demoPort (.write (demo.params.base + 0x18) 4 0x00000034)).port =
      .write ((demoPort .reset).params.base + 0x18) 4 0x00000034 :: [] ∧
    decode 0x00000034 = .ok (.psNext 0) := ⟨rfl, by decide⟩

theorem witness_StepRejectsAWordThatDoesNotDecode :
    (demoPort (.write 0x18 4 0x00000101)).port = .write ((demoPort .reset).params.base + 0x18) 4 0x00000101 :: [] ∧
    decode 0x00000101 = .error .reservedField := ⟨rfl, by decide⟩

theorem witness_EveryCommandWordIsStoredAndCounted :
    (seen (hostRead 0x60 4 demo) State.cmd).isSome = true ∧
    0x20 ≠ demo.params.base + 0x18 ∧ (seen (hostWrite 0x20 4 1 demo) State.cmd).isSome = true := by decide +kernel

theorem witness_AdmittedAccessesNeverStopTheMachine :
    [HostEvent.read 0 4, .read 0xFC 4, .write 0x18 4 0, .write 0xFC 4 0, .reset].all (Admitted demo.params) = true := by
  decide +kernel

theorem witness_ErrorProcedureRecordsTheFirstError : demo.err = false ∧ demoErr.err = true := by decide

/-- A command whose checks pass, and one that fails two of them. -/
theorem witness_TheFirstFailingCheckIsReported :
    firstFailure demo (.bqSetfreq (.one 1) 0) = some .badFrequency ∧
    firstFailure (demoWith 0) (.bqSetfreq (.one 2) 1) = some .channelRange ∧
    firstFailure demo (.foSetcoef .all 1) = none ∧ decodeError 0x00000002 = some .illegalOpcode := by decide +kernel

theorem witness_AnErrorRecordStaysUntilCleared :
    let s : State := { demoErr with port := [.write 0x18 4 0x00000101] }
    s.err = true ∧ s.port.head? ≠ some .reset ∧ (seen (step s) State.errcode) = some 4 ∧
    decode 0x00000101 ≠ .ok .errclr := by decide +kernel

theorem witness_NopAndErrclrEffects :
    demo.err = false ∧ demo.errcode = 0 ∧ demo.errcmd = 0 ∧
    (0x00000100 : Word).toNat % 256 = 0 ∧ 256 ≤ (0x00000100 : Word).toNat ∧ (0x00000101 : Word).toNat % 256 = 1 ∧
    256 ≤ (0x00000101 : Word).toNat ∧ demoErr.err = true := by decide +kernel

theorem witness_GcSettersClamp_GcReadShowsTheParameters :
    [0x00000150, 0x00010051, 0x80000052, 0x00000154].all (fun n : Nat => decide (0x50 ≤ n % 256 ∧
    256 ≤ n)) = true := by
  decide

theorem witness_InterruptIsErrorAndEnable :
    (seen (hostWrite (demoErr.params.base + 0x0C) 4 1 demoErr) irq) = some true ∧
    (seen (exec .errclr demoErr) irq) = some false := by decide +kernel

theorem witness_FilterPrepareSetsEverySection :
    1 ≤ 4 ∧ 4 ≤ demo.params.maxChannels ∧ 1 ≤ 1 ∧ 1 ≤ demo.params.maxSections := by decide

theorem witness_FilterResetClearsDelayStateOnly :
    demo.fo.prepared = true ∧ inRange demo.fo.nch (.one 1) = true ∧ inRange demo.fo.nch .all = true ∧
    demo.bq.prepared = true ∧ inRange demo.bq.nch (.one 1) = true ∧
    inRange demo.bq.nch .all = true := by decide +kernel

theorem witness_SetcoefStoresTheOperands :
    demo.fo.prepared = true ∧ inRange demo.fo.nch (.one 1) = true ∧ 1 < demo.fo.nsec ∧
    demo.bq.prepared = true ∧ inRange demo.bq.nch (.one 1) = true ∧ 0 < demo.bq.nsec := by decide +kernel

theorem witness_BroadcastSetcoefActsChannelByChannel : demo.fo.prepared = true ∧ 1 < demo.fo.nsec := by decide +kernel

theorem witness_FoProcessRunsTheCascade : demo.fo.prepared = true ∧ 1 < demo.fo.nch ∧
    demo.fo.sections[1]? = some [foFresh .binary64, foFresh .binary64] := by decide +kernel

theorem witness_BqProcessRunsTheCascade : demo.bq.prepared = true ∧ 1 < demo.bq.nch ∧
    demo.bq.sections[1]? = some [bqFresh .binary64] := by decide +kernel

theorem witness_FoReadbacksShowTheSection : demo.fo.prepared = true ∧ 1 < demo.fo.nch ∧ 1 < demo.fo.nsec ∧
    elemAt demo.fo.sections 1 1 = some (foFresh .binary64) := by decide +kernel

theorem witness_BqReadbacksShowTheSection : demo.bq.prepared = true ∧ 1 < demo.bq.nch ∧ 0 < demo.bq.nsec ∧
    elemAt demo.bq.sections 1 0 = some (bqFresh .binary64) := by decide +kernel

/-- 0.5, the highest frequency, with a shelf gain of 2. -/
theorem witness_FoDesignGivesTheClosedForms :
    let s : State := { demo with op := { Bank.zero with w0 := f0_5, w1 := f2 } }
    GoodFrequency s.params.fmt (s.operand 0) ∧ GoodPositive s.params.fmt (s.operand 1) := by
  unfold GoodFrequency GoodPositive
  decide +kernel

/-- A section in range, and the operand 0.5 meets each setter's condition. -/
theorem witness_BqSettersRecomputeTheSection :
    ((demoWith f0_5).bq.prepared = true ∧ inRange (demoWith f0_5).bq.nch (.one 1) = true ∧
      0 < (demoWith f0_5).bq.nsec) ∧
    GoodFrequency demo.params.fmt ((demoWith f0_5).operand 0) ∧
    GoodPositive demo.params.fmt ((demoWith f0_5).operand 0) ∧
    GoodDecibels demo.params.fmt ((demoWith f0_5).operand 0) := by
  unfold GoodFrequency GoodPositive GoodDecibels
  decide +kernel

theorem witness_PeakDesignAtUnitGainIsFlat :
    Fits .binary64 0x3FE9E3779B97F4A8 ∧ Fits .binary64 f0_25 ∧ isFinite .binary64 0x3FE9E3779B97F4A8 = true ∧
    isFinite .binary64 f0_25 = true := by
  unfold Fits
  decide +kernel

/-- A first FO_PREPARE, and one of a filter that is prepared already; the greatest counts. -/
theorem witness_FreshFilterPassesSilence :
    (1 ≤ 4 ∧ 4 ≤ State.reset.params.maxChannels ∧ 4 ≤ State.reset.params.maxSections ∧ 3 < 4) ∧
    State.reset.fo.prepared = false ∧
    (seen (exec (.foPrepare 4 4) State.reset) (fun t => decide (t.operand 0 = z t.params.fmt))) = some true ∧
    (demoWith 0).fo.prepared = true ∧ 4 ≤ (demoWith 0).params.maxSections ∧
    (seen (exec (.foPrepare 4 4) (demoWith 0)) (fun t => decide (t.operand 0 = z t.params.fmt))) = some true := by
  decide +kernel

theorem witness_DelaySectionReturnsThePriorInput :
    Fits .binary64 fm2 ∧ isFinite .binary64 fm2 = true ∧ isFinite .binary64 f0_5 = true := by
  unfold Fits
  decide +kernel

/-- The three algorithms, with the least and the greatest order. -/
theorem witness_PsPrepareSetsEveryChannel :
    (PsAlg.exp = .exp → 1 ≤ 8 ∧ 8 ≤ 8) ∧ (PsAlg.linear ≠ .exp → 0 = 0) ∧
    GoodPositive .binary64 ((demoWith f1000).operand 0) := by
  unfold GoodPositive
  decide +kernel

/-- Both clauses for a selected LINEAR channel: the target is 3; the operand is 3, or 1. -/
theorem witness_PsSettargetStartsARampOnlyWhenDifferent :
    demo.ps.prepared = true ∧ inRange demo.ps.nch (.one 0) = true ∧ demo.ps.alg = .linear ∧
    demo.ps.chans[0]? = some rampChannel ∧ hits demo.ps.nch (.one 0) 0 = true ∧
    feq .binary64 ((demoWith f3).operand 0) rampChannel.target = true ∧
    feq .binary64 (demo.operand 0) rampChannel.target = false ∧ hits demo.ps.nch (.one 0) 1 = false ∧
    demoExp.ps.alg ≠ .linear := by decide +kernel

theorem witness_PsResetSeedsTheSelectedChannels :
    demo.ps.prepared = true ∧ inRange demo.ps.nch (.one 1) = true ∧
    inRange demo.ps.nch .all = true := by decide +kernel

/-- Under LINEAR and under EXP; the selected channel is there after the command too. -/
theorem witness_PsSettimeStoresBothTimes :
    demo.ps.prepared = true ∧ inRange demo.ps.nch .all = true ∧ demo.ps.alg = .linear ∧
    demo.ps.chans[1]? = some (psFresh .binary64 0) ∧
    (seen (exec (.psSettime .all) demo) (fun t => (t.ps.chans[1]?).isSome)) = some true ∧
    demoExp.ps.prepared = true ∧ inRange demoExp.ps.nch .all = true ∧ demoExp.ps.alg ≠ .linear := by decide +kernel

/-- The three algorithms, a running ramp, its last step, and the stages. -/
theorem witness_PsNextTakesOneStep :
    demo.ps.prepared = true ∧ 0 < demo.ps.nch ∧ demo.ps.alg = .linear ∧ demo.ps.chans[0]? = some rampChannel ∧
    2 ≤ rampChannel.remaining ∧
    demoNone.ps.alg = .none ∧ demoNone.ps.prepared = true ∧ 1 < demoNone.ps.nch ∧
    demoExp.ps.alg = .exp ∧ demoExp.ps.prepared = true ∧ 0 < demoExp.ps.nch ∧
    (demoExp.ps.chans[0]?).map (fun p => p.stage.length) = some 2 := by decide +kernel

theorem witness_PsReadbacksShowTheChannel :
    demoExp.ps.prepared = true ∧ 0 < demoExp.ps.nch ∧ 1 < demoExp.ps.order ∧
    (demoExp.ps.chans[0]?).bind (fun p => p.stage[1]?) = some 0 := by
  decide +kernel

theorem witness_LinearRampLandsOnTheTarget :
    demo.ps.prepared = true ∧ 0 < demo.ps.nch ∧ demo.ps.alg = .linear ∧ demo.ps.chans[0]? = some rampChannel ∧
    1 ≤ rampChannel.remaining := by decide +kernel

theorem witness_TimeCoeffIsAFactorInUnitRange :
    GoodPositive .binary64 f48000 ∧ flt .binary64 (z .binary64) aNaN = false := by
  unfold GoodPositive
  decide +kernel

theorem witness_OnePoleHoldsASettledState :
    isFinite .binary64 f0_25 = true ∧ isFinite .binary64 f0_5 = true ∧
    feq .binary64 0x8000000000000000 0 = true ∧ isFinite .binary64 0 = true := by decide +kernel

theorem witness_FollowerPrepareSetsEveryChannel : 1 ≤ 4 ∧ 4 ≤ demo.params.maxChannels ∧
    GoodPositive .binary64 ((demoWith f1000).operand 0) := by
  unfold GoodPositive
  decide +kernel

/-- Channels of both units, seeded and not, PEAK and RMS. -/
theorem witness_FollowerResetSeedsTheSelectedChannels :
    (demo.ef.prepared = true ∧ inRange demo.ef.nch .all = true ∧ demo.ef.variant = .peak ∧
      demo.ef.chans[1]? = some (efFresh .binary64) ∧ hits demo.ef.nch .all 1 = true) ∧
    (demoExp.ef.prepared = true ∧ inRange demoExp.ef.nch (.one 0) = true ∧ demoExp.ef.variant = .rms ∧
      (demoExp.ef.chans[1]?).isSome = true ∧ hits demoExp.ef.nch (.one 0) 1 = false) ∧
    (seen (exec (.efReset .all true) demoExp) (fun t => (t.ef.chans[1]?).isSome)) = some true ∧
    demo.gs.prepared = true ∧ inRange demo.gs.nch (.one 1) = true := by decide +kernel

theorem witness_EfTimesAreStored :
    demo.ef.prepared = true ∧ inRange demo.ef.nch .all = true ∧ demo.ef.chans[1]? = some (efFresh .binary64) ∧
    (seen (exec (.efSetattack .all .perceptual) demo) (fun t => (t.ef.chans[1]?).isSome)) = some true ∧
    (seen (exec (.efSetrelease .all .perceptual) demo) (fun t => (t.ef.chans[1]?).isSome)) = some true := by
  decide +kernel

theorem witness_GsTimesAreStored :
    demo.gs.prepared = true ∧ inRange demo.gs.nch .all = true ∧ demo.gs.chans[1]? = some (gsFresh .binary64) ∧
    (seen (exec (.gsSetattack .all) demo) (fun t => (t.gs.chans[1]?).isSome)) = some true ∧
    (seen (exec (.gsSetrelease .all) demo) (fun t => (t.gs.chans[1]?).isSome)) = some true := by decide +kernel

theorem witness_FollowerReadbacksShowTheChannel :
    (demo.ef.prepared = true ∧ 1 < demo.ef.nch ∧ demo.ef.chans[1]? = some (efFresh .binary64) ∧
      demo.ef.variant = .peak) ∧
    (demoExp.ef.prepared = true ∧ 1 < demoExp.ef.nch ∧ demoExp.ef.chans[1]? = some (efFresh .binary64) ∧
      demoExp.ef.variant = .rms) ∧
    demo.gs.prepared = true ∧ 1 < demo.gs.nch ∧ demo.gs.chans[1]? = some (gsFresh .binary64) := by decide +kernel

/-- A channel under PEAK and one under RMS. -/
theorem witness_EfProcessTracksTheInput :
    demo.ef.prepared = true ∧ 1 < demo.ef.nch ∧ 1 < demoExp.ef.nch ∧ demo.ef.variant = .peak ∧
    (demo.ef.chans[1]?).isSome = true ∧
    demoExp.ef.variant = .rms ∧ demoExp.ef.prepared = true ∧ (demoExp.ef.chans[1]?).isSome = true := by decide +kernel

theorem witness_GsProcessSmoothsTheGain : demo.gs.prepared = true ∧ 1 < demo.gs.nch ∧
    (demo.gs.chans[1]?).isSome = true := by decide +kernel

theorem witness_OtherChannelsAreUntouched :
    channelOf (.foProcess 0) = some 0 ∧ 1 ≠ 0 ∧ (seen (exec (.foProcess 0) demo) (fun _ => true)) = some true := by
  decide +kernel

/-- Two states that differ in channel 1 of every unit and agree on channel 0. -/
theorem witness_OtherChannelsAreNotObserved :
    let r : State := { demo with
      fo := { demo.fo with sections := demo.fo.sections.set 1 [] }
      bq := { demo.bq with sections := demo.bq.sections.set 1 [] }
      ps := { demo.ps with chans := demo.ps.chans.set 1 rampChannel }
      ef := { demo.ef with chans := demo.ef.chans.set 1 default }
      gs := { demo.gs with chans := demo.gs.chans.set 1 default } }
    channelOf (.foSetcoef (.one 0) 1) = some 0 ∧ AgreeOnChannel 0 demo r ∧ r ≠ demo := by
  unfold AgreeOnChannel
  decide +kernel

theorem witness_OtherUnitsAreUntouched :
    unitOf (.foProcess 0) ≠ some .bq ∧
    (seen (exec (.foProcess 0) demo) (fun _ => true)) = some true := by decide +kernel

/-- Another `OP1` to `OP4` leave the operand of FO_PROCESS; another `OP3` leaves the three of FO_SETCOEF. -/
theorem witness_OnlyListedOperandsAreRead :
    (∀ k ∈ operandsOf (.foProcess 0), ({ demo with op := ⟨f1, 7, 7, 7, 7⟩ } : State).operand k = demo.operand k) ∧
    (∀ k ∈ operandsOf (.foSetcoef .all 0),
      ({ demo with op := ⟨f1, 0, 0, 7, 0⟩ } : State).operand k = demo.operand k) := by decide +kernel

theorem witness_OnlyListedResultsAreWritten :
    (seen (exec (.psNext 0) demo) (fun _ => true)) = some true ∧
    (1 : Fin 5) ∉ resultsOf (.psNext 0) := by decide +kernel

/-- 0.1 and 0.2: finite, with a finite inexact sum, product and quotient. -/
theorem witness_ArithmeticRoundsToNearestEven :
    let e : Fp := ⟨.binary64, []⟩
    isFinite e.fmt f0_1 = true ∧ isFinite e.fmt f0_2 = true ∧ isFinite e.fmt (fadd e f0_1 f0_2) = true ∧
    isFinite e.fmt (fmul e f0_1 f0_2) = true ∧ isZero e.fmt f0_2 = false ∧
    isFinite e.fmt (fdiv e f0_1 f0_2) = true := by decide +kernel

/-- Each clause: the least and the greatest positive sample; both zeros; -1, -∞ and a NaN; +∞. -/
theorem witness_SquareRootIsCorrectlyRounded :
    [1, 0x7FEFFFFFFFFFFFFF].all (fun x => isFinite .binary64 x && flt .binary64 (z .binary64) x) = true ∧
    [0, 0x8000000000000000].all (fun x => isZero .binary64 x) = true ∧
    [fm1, 0xFFF0000000000000].all (fun x => flt .binary64 x (z .binary64)) = true ∧
    isNaN .binary64 aNaN = true ∧
    isInf .binary64 0x7FF0000000000000 = true ∧ signOf .binary64 0x7FF0000000000000 = false := by decide +kernel

/-- `QDEF` is the square root of 0.5 (R42); the root of -0 is -0 (R11). -/
theorem test_fsqrt : fsqrt ⟨.binary64, []⟩ f0_5 = qDef .binary64 ∧
    fsqrt ⟨.binary64, []⟩ 0x8000000000000000 = 0x8000000000000000 := by decide +kernel

end Sys2Proof.Tests
end

