-- ==== Sys2Proof/Proofs/Parameters.lean ====
section
/-! PROOF. The implementation parameters never change (O8): one rule per combinator of a command's body, one lemma over
the commands, then the events of the port. -/

namespace Sys2Proof.Proofs

open Sys2Proof.Machine

/-! ### What every successful effect satisfies -/

/-- Every state a command's body can succeed with satisfies `P`. -/
def Ensures (P : State → Prop) (x : Except ErrCode State) : Prop := ∀ t, x = .ok t → P t

theorem ensures_ok {P : State → Prop} {t : State} (h : P t) : Ensures P (.ok t) := by
  rintro _ ⟨⟩
  exact h

theorem ensures_bind {α : Type} {P : State → Prop} {x : Except ErrCode α} {k : α → Except ErrCode State}
    (h : ∀ a, Ensures P (k a)) : Ensures P (x >>= k) := by
  intro t ht
  obtain ⟨a, -, hk⟩ := bind_ok x k t ht
  exact h a t hk

/-- A command keeps what its effect and the error procedure keep (R130). -/
theorem conclude_ensures {P : State → Prop} {s t : State} {x : Except ErrCode State}
    (hx : Ensures P x) (he : ∀ e, P (errorProc e s.cmd s)) (h : conclude s x = .next t) : P t := by
  obtain hok | ⟨e, -, rfl⟩ := conclude_next s t x h
  · exact hx t hok
  · exact he e

/-! ### The parameters -/

/-- A command whose body keeps the parameters keeps them. -/
theorem conclude_params {s t : State} {x : Except ErrCode State}
    (h : conclude s x = .next t) (hx : Ensures (fun u => u.params = s.params) x) : t.params = s.params :=
  conclude_ensures hx (fun e => errorProc_params e s.cmd s) h

@[simp] theorem bqSetParam_params (cs : List Nat) (sec : Nat) (upd : BqSection → BqSection) (s : State) :
    (bqSetParam cs sec upd s).params = s.params := rfl

/-- FO_DESIGN has a check that depends on the type (R195). -/
theorem execFoDesign_params (type : FoType) (s t : State) (h : execFoDesign type s = .next t) :
    t.params = s.params := by
  refine conclude_params h (ensures_bind fun _ => ?_)
  split
  · exact ensures_bind fun _ => ensures_ok (by simp)
  · exact ensures_ok (by simp)

/-- No command changes the parameters; the cases are grouped by the number of checks before the effect. -/
theorem exec_params (i : Instr) (s t : State) (h : exec i s = .next t) : t.params = s.params := by
  cases i with
  | nop | errclr | gcSetthresh | gcSetratio | gcSetknee | gcCompute | gcRead =>
    cases h
    simp
  | foDesign type => exact execFoDesign_params type s t h
  | foPrepare | foReset | foProcess | bqPrepare | bqReset | bqProcess
  | psReset | psSettime | psSettarget | psNext | psRead
  | efPrepare | efReset | efSetattack | efSetrelease | efProcess | efRead
  | gsPrepare | gsReset | gsSetattack | gsSetrelease | gsProcess | gsRead =>
    exact conclude_params h (ensures_bind fun _ => ensures_bind fun _ => ensures_ok (by simp))
  | foSetcoef | foReadcoef | foReadstate | bqSettype | bqSetcoef | bqReadcoef | bqReadstate | bqReadparam
  | psPrepare | psReadstage =>
    exact conclude_params h
      (ensures_bind fun _ => ensures_bind fun _ => ensures_bind fun _ => ensures_ok (by simp))
  | bqSetfreq | bqSetq | bqSetgain =>
    exact conclude_params h
      (ensures_bind fun _ => ensures_bind fun _ => ensures_bind fun _ => ensures_bind fun _ => ensures_ok (by simp))

theorem execute_params (w : Word) (s t : State) (h : execute w s = .next t) : t.params = s.params := by
  obtain ⟨e, -, he⟩ | ⟨i, -, hi⟩ := execute_cases w s
  · cases he.symm.trans h
    exact errorProc_params e w s
  · exact exec_params i s t (hi.symm.trans h)

theorem writeReg_params (s : State) (v : Word) (o : Nat) : (writeReg s v o).params = s.params := by
  obtain ⟨-, h⟩ | ⟨k, -, h⟩ | ⟨k, -, h⟩ | h := writeReg_cases s v o
  · rw [h]
  · rw [h, setOpLo_params]
  · rw [h, setOpHi_params]
  · rw [h]

theorem handle_params (ev : HostEvent) (s t : State) (h : handle ev s = .next t) : t.params = s.params := by
  cases ev with
  | read addr bytes =>
    obtain ⟨o, -, rfl⟩ := hostRead_next addr bytes s t h
    rfl
  | write addr bytes v =>
    obtain ⟨-, hx⟩ | ⟨o, -, -, rfl⟩ := hostWrite_next addr bytes v s t h
    · exact execute_params v (acceptCommand v s) t hx
    · exact writeReg_params s v o
  | reset =>
    cases h
    exact hardReset_params s

/-- Settles O8: the next event at the port keeps the parameters, and an idle step changes nothing. -/
theorem noStepChangesTheParameters : Obligations.NoStepChangesTheParameters := by
  intro s t h
  cases hp : s.port with
  | nil =>
    rw [step_idle s hp] at h
    cases h
    rfl
  | cons ev rest =>
    rw [step_event s ev rest hp] at h
    exact handle_params ev { s with port := rest } t h

end Sys2Proof.Proofs
end

