-- ==== Sys2Proof/Proofs/Rounding.lean ====
section
/-! PROOF. `roundMag` is correctly rounded. A value that is not an encoding lies between two neighbouring ones, and
`roundMag` takes the upper one exactly past their middle, so everything is said by comparing sums of two encodings'
values with twice the value: for the nearest encoding of a quotient (O59) and of a root (O60) alike. -/

namespace Sys2Proof.Proofs

open Sys2Proof.Machine Sys2Proof.Claims

/-! ### The value of an encoding -/

/-- The value, in smallest subnormals, of the encoding with these bits below the sign. -/
def magUlps (f : Format) (m : Nat) : Nat :=
  if m / 2 ^ f.fracBits = 0 then m % 2 ^ f.fracBits
  else (2 ^ f.fracBits + m % 2 ^ f.fracBits) * 2 ^ (m / 2 ^ f.fracBits - 1)

theorem ulps_eq_magUlps (f : Format) (x : Sample) : ulps f x = magUlps f (magOf f x) := rfl

theorem ulps_mkSample (f : Format) (s : Bool) (m : Nat) (h : m < f.infMag) :
    ulps f (mkSample f s m) = magUlps f m := by
  rw [ulps_eq_magUlps, magOf_mkSample f s m (h.trans (infMag_lt f))]

/-- A significand `s` at scale `k`; the scale above 0 has no subnormals, and a full significand carries into the
exponent. -/
theorem magUlps_scaled (f : Format) (k s : Nat) (hk : k = 0 ∨ 2 ^ f.fracBits ≤ s) (hs : s ≤ 2 * 2 ^ f.fracBits) :
    magUlps f (k * 2 ^ f.fracBits + s) = s * 2 ^ k := by
  unfold magUlps
  have hp : 0 < 2 ^ f.fracBits := by positivity
  generalize 2 ^ f.fracBits = p at *
  rw [Nat.mul_comm k p, Nat.mul_add_mod, Nat.mul_add_div hp]
  obtain hlt | ⟨t, ht, rfl⟩ | rfl : s < p ∨ (∃ t, t < p ∧ s = p + t) ∨ s = 2 * p := by
    by_cases h : p ≤ s ∧ s < 2 * p
    · exact .inr (.inl ⟨s - p, by omega, by omega⟩)
    · omega
  · obtain rfl : k = 0 := by omega
    simp [Nat.div_eq_of_lt hlt, Nat.mod_eq_of_lt hlt]
  · simp [Nat.add_div_left _ hp, Nat.div_eq_of_lt ht, Nat.mod_eq_of_lt ht]
  · simp [Nat.mul_div_cancel _ hp, Nat.pow_succ]
    ring

/-- Every encoding is a significand, short of a full one, at a scale. -/
theorem exists_scaled (f : Format) (m : Nat) :
    ∃ k s, m = k * 2 ^ f.fracBits + s ∧ (k = 0 ∨ 2 ^ f.fracBits ≤ s) ∧ s < 2 * 2 ^ f.fracBits := by
  have hdm := Nat.div_add_mod' m (2 ^ f.fracBits)
  have hlt := Nat.mod_lt m (show 0 < 2 ^ f.fracBits by positivity)
  cases he : m / 2 ^ f.fracBits with
  | zero => exact ⟨0, m, by omega, .inl rfl, by rw [he] at hdm; omega⟩
  | succ e =>
    rw [he, Nat.succ_mul] at hdm
    exact ⟨e, 2 ^ f.fracBits + m % 2 ^ f.fracBits, by omega, .inr (by omega), by omega⟩

theorem magUlps_strictMono (f : Format) : StrictMono (magUlps f) := by
  refine strictMono_nat_of_lt_succ fun m => ?_
  obtain ⟨k, s, rfl, hk, hs⟩ := exists_scaled f m
  rw [Nat.add_assoc, magUlps_scaled f k s hk hs.le, magUlps_scaled f k (s + 1) (by omega) hs]
  exact Nat.mul_lt_mul_of_pos_right (Nat.lt_succ_self s) (by positivity)

/-- Above the two lowest exponents every value is even. -/
theorem two_dvd_magUlps (f : Format) (m : Nat) (h : 2 * 2 ^ f.fracBits ≤ m) : 2 ∣ magUlps f m := by
  obtain ⟨k, s, rfl, hk, hs⟩ := exists_scaled f m
  rw [magUlps_scaled f k s hk hs.le]
  have hk0 : k ≠ 0 := by
    rintro rfl
    omega
  exact (dvd_pow_self 2 hk0).mul_left s

/-! ### Where a value lies among the encodings -/

/-- The quotient that `roundMag` rounds is a significand at the scale it takes. -/
theorem significand_bounds (F a : Nat) :
    a / 2 ^ (a.log2 - F) < 2 * 2 ^ F ∧ (a.log2 - F = 0 ∨ 2 ^ F ≤ a / 2 ^ (a.log2 - F)) := by
  constructor
  · rw [Nat.div_lt_iff_lt_mul (by positivity), ← Nat.pow_succ', ← Nat.pow_add]
    exact Nat.lt_log2_self.trans_le (Nat.pow_le_pow_right (by decide) (by omega))
  · rcases Nat.eq_zero_or_pos (a.log2 - F) with h | h
    · exact .inl h
    · right
      have ha : a ≠ 0 := by
        rintro rfl
        simp at h
      rw [Nat.le_div_iff_mul_le (by positivity), ← Nat.pow_add]
      exact (Nat.pow_le_pow_right (by decide) (by omega)).trans (Nat.log2_self_le ha)

/-- The remainder of `rneDiv` against half the divisor is the value against the middle of two integers. -/
theorem rneDiv_eq (num den : Nat) :
    rneDiv num den =
      if (2 * (num / den) + 1) * den < 2 * num ∨ ((2 * (num / den) + 1) * den = 2 * num ∧ num / den % 2 = 1)
      then num / den + 1 else num / den := by
  have hdm := Nat.div_add_mod num den
  rw [rneDiv]
  refine if_congr ?_ rfl rfl
  have : (2 * (num / den) + 1) * den = 2 * (den * (num / den)) + den := by ring
  omega

/-- `roundMag` finds the neighbouring encodings `lo` and `lo + 1` its value lies between and takes the upper one past
their middle, or at it when `lo` is odd. -/
theorem roundMag_bracket (f : Format) (num den : Nat) (hd : 0 < den) :
    ∃ lo, magUlps f lo * den ≤ num ∧ num < magUlps f (lo + 1) * den ∧
      roundMag f num den = min (if (magUlps f lo + magUlps f (lo + 1)) * den < 2 * num ∨
        ((magUlps f lo + magUlps f (lo + 1)) * den = 2 * num ∧ lo % 2 = 1) then lo + 1 else lo) f.infMag := by
  obtain ⟨hq, hk⟩ := significand_bounds f.fracBits (num / den)
  rw [Nat.div_div_eq_div_mul] at hq hk
  unfold roundMag
  extract_lets k
  rw [show (num / den).log2 - f.fracBits = k from rfl] at hq hk
  rw [rneDiv_eq]
  have hlow := Nat.div_mul_le_self num (den * 2 ^ k)
  have hhigh := Nat.lt_mul_div_succ num (show 0 < den * 2 ^ k by positivity)
  generalize num / (den * 2 ^ k) = q at *
  have hlo := magUlps_scaled f k q hk hq.le
  have hhi := magUlps_scaled f k (q + 1) (by omega) hq
  have heven : (k * 2 ^ f.fracBits + q) % 2 = q % 2 := by
    cases f <;> simp [Format.fracBits] <;> omega
  refine ⟨k * 2 ^ f.fracBits + q, ?_, ?_, ?_⟩
  · rw [hlo]
    linarith
  · rw [Nat.add_assoc, hhi]
    linarith
  · rw [Nat.add_assoc, hlo, hhi, heven, show (q * 2 ^ k + (q + 1) * 2 ^ k) * den = (2 * q + 1) * (den * 2 ^ k) by ring]
    split <;> rfl

/-! ### Correct rounding -/

/-- `m` is the encoding nearest to `num / den`, an even one where two are nearest, said by the middles between `m` and
the other encodings. -/
structure RoundsTo (f : Format) (num den m : Nat) : Prop where
  below : ∀ n < m, (magUlps f m + magUlps f n) * den ≤ 2 * num ∧
    ((magUlps f m + magUlps f n) * den = 2 * num → m % 2 = 0)
  above : ∀ n, m < n → 2 * num ≤ (magUlps f m + magUlps f n) * den ∧
    ((magUlps f m + magUlps f n) * den = 2 * num → m % 2 = 0)

/-- The lower of two neighbours, of a value not past their middle. -/
theorem roundsTo_lower (f : Format) (num den lo : Nat) (hd : 0 < den) (hlo : magUlps f lo * den ≤ num)
    (hmid : 2 * num ≤ (magUlps f lo + magUlps f (lo + 1)) * den)
    (htie : (magUlps f lo + magUlps f (lo + 1)) * den = 2 * num → lo % 2 = 0) : RoundsTo f num den lo where
  below n hn := by
    have := Nat.mul_lt_mul_of_pos_right (magUlps_strictMono f hn) hd
    rw [Nat.add_mul]
    omega
  above n hn := by
    have : magUlps f (lo + 1) * den ≤ magUlps f n * den :=
      Nat.mul_le_mul_right den ((magUlps_strictMono f).monotone hn)
    rw [Nat.add_mul] at *
    omega

/-- The upper of two neighbours, of a value not short of their middle. -/
theorem roundsTo_upper (f : Format) (num den lo : Nat) (hd : 0 < den) (hhi : num < magUlps f (lo + 1) * den)
    (hmid : (magUlps f lo + magUlps f (lo + 1)) * den ≤ 2 * num)
    (htie : (magUlps f lo + magUlps f (lo + 1)) * den = 2 * num → (lo + 1) % 2 = 0) :
    RoundsTo f num den (lo + 1) where
  below n hn := by
    have := Nat.mul_le_mul_right den ((magUlps_strictMono f).monotone (Nat.le_of_lt_succ hn))
    rw [Nat.add_mul] at *
    omega
  above n hn := by
    have := Nat.mul_lt_mul_of_pos_right (magUlps_strictMono f hn) hd
    rw [Nat.add_mul]
    omega

/-- A finite result of `roundMag` is correctly rounded (R11). -/
theorem roundMag_roundsTo (f : Format) (num den : Nat) (hd : 0 < den) (hfin : roundMag f num den < f.infMag) :
    RoundsTo f num den (roundMag f num den) := by
  obtain ⟨lo, hlo, hhi, hround⟩ := roundMag_bracket f num den hd
  rw [hround] at hfin ⊢
  rw [min_eq_left_of_lt (by omega)]
  split
  case isTrue h => exact roundsTo_upper f num den lo hd hhi (by omega) (by omega)
  case isFalse h => exact roundsTo_lower f num den lo hd hlo (by omega) (by omega)

/-- Rounding does not go below an encoding its value is not below. -/
theorem le_roundMag (f : Format) (num den c : Nat) (hd : 0 < den) (hc : c ≤ f.infMag)
    (h : magUlps f c * den ≤ num) : c ≤ roundMag f num den := by
  obtain ⟨lo, -, hhi, hround⟩ := roundMag_bracket f num den hd
  have hclo : c < lo + 1 := (magUlps_strictMono f).lt_iff_lt.1 (lt_of_mul_lt_mul_right' (h.trans_lt hhi))
  rw [hround]
  split <;> omega

/-- A value below a finite encoding rounds to a finite encoding. -/
theorem roundMag_lt_infMag (f : Format) (num den c : Nat) (hd : 0 < den) (hc : c < f.infMag)
    (h : num < magUlps f c * den) : roundMag f num den < f.infMag := by
  obtain ⟨lo, hlo, -, hround⟩ := roundMag_bracket f num den hd
  have hloc : lo < c := (magUlps_strictMono f).lt_iff_lt.1 (lt_of_mul_lt_mul_right' (hlo.trans_lt h))
  rw [hround]
  split <;> omega

/-! ### Sums, products and quotients (O59) -/

/-- The nearest of all finite encodings by distance. -/
theorem RoundsTo.nearestEven {f : Format} {num den m : Nat} (h : RoundsTo f num den m) (hd : 0 < den)
    (hm : m < f.infMag) : NearestEven f num den m := by
  intro n hn
  rw [ulps_mkSample f false m hm, ulps_mkSample f false n hn]
  rcases Nat.lt_trichotomy n m with hlt | rfl | hlt
  · have hmono := Nat.mul_lt_mul_of_pos_right (magUlps_strictMono f hlt) hd
    obtain ⟨hle, htie⟩ := h.below n hlt
    rw [Nat.add_mul] at hle htie
    omega
  · exact ⟨le_rfl, fun _ hne => absurd rfl hne⟩
  · have hmono := Nat.mul_lt_mul_of_pos_right (magUlps_strictMono f hlt) hd
    obtain ⟨hle, htie⟩ := h.above n hlt
    rw [Nat.add_mul] at hle htie
    omega

/-- A finite sample made by rounding is the nearest one and has the sign it was made with. -/
theorem mkSample_roundMag_nearestEven (f : Format) (s : Bool) (num den : Nat) (hd : 0 < den)
    (hfin : isFinite f (mkSample f s (roundMag f num den)) = true) :
    NearestEven f num den (magOf f (mkSample f s (roundMag f num den))) ∧
      signOf f (mkSample f s (roundMag f num den)) = s := by
  have hlt := roundMag_lt f num den
  rw [isFinite, magOf_mkSample f s _ hlt, decide_eq_true_eq] at hfin
  rw [magOf_mkSample f s _ hlt, signOf_mkSample f s _ hlt]
  exact ⟨(roundMag_roundsTo f num den hd hfin).nearestEven hd hfin, rfl⟩

/-- Zero is exact. -/
theorem nearestEven_zero (f : Format) (den : Nat) : NearestEven f 0 den 0 := by
  intro n hn
  rw [ulps_mkSample f false 0 (by omega)]
  simp [magUlps]

theorem ulps_pos (f : Format) (x : Sample) (h : isZero f x = false) : 0 < ulps f x := by
  rw [isZero, decide_eq_false_iff_not] at h
  rw [ulps_eq_magUlps]
  exact Nat.zero_lt_of_lt (magUlps_strictMono f (Nat.pos_of_ne_zero h))

theorem fadd_nearestEven (e : Fp) (a b : Sample) (ha : isFinite e.fmt a = true) (hb : isFinite e.fmt b = true)
    (hfin : isFinite e.fmt (fadd e a b) = true) :
    NearestEven e.fmt (signedUlps e.fmt a + signedUlps e.fmt b).natAbs 1 (magOf e.fmt (fadd e a b)) ∧
      (signedUlps e.fmt a + signedUlps e.fmt b ≠ 0 →
        signOf e.fmt (fadd e a b) = decide (signedUlps e.fmt a + signedUlps e.fmt b < 0)) := by
  rw [fadd_of_finite e a b ha hb] at hfin ⊢
  split at hfin
  case isTrue h =>
    rw [if_pos h, h, magOf_zeroOf]
    exact ⟨nearestEven_zero e.fmt 1, fun hne => absurd rfl hne⟩
  case isFalse h =>
    rw [if_neg h]
    obtain ⟨hmag, hsign⟩ := mkSample_roundMag_nearestEven e.fmt _ _ 1 Nat.one_pos hfin
    exact ⟨hmag, fun _ => hsign⟩

theorem fmul_nearestEven (e : Fp) (a b : Sample) (ha : isFinite e.fmt a = true) (hb : isFinite e.fmt b = true)
    (hfin : isFinite e.fmt (fmul e a b) = true) :
    NearestEven e.fmt (ulps e.fmt a * ulps e.fmt b) (2 ^ e.fmt.unitExp) (magOf e.fmt (fmul e a b)) ∧
      signOf e.fmt (fmul e a b) = (signOf e.fmt a != signOf e.fmt b) := by
  rw [fmul_of_finite e a b ha hb] at hfin ⊢
  exact mkSample_roundMag_nearestEven e.fmt _ _ _ (by positivity) hfin

theorem fdiv_nearestEven (e : Fp) (a b : Sample) (ha : isFinite e.fmt a = true) (hb : isFinite e.fmt b = true)
    (h0 : isZero e.fmt b = false) (hfin : isFinite e.fmt (fdiv e a b) = true) :
    NearestEven e.fmt (ulps e.fmt a * 2 ^ e.fmt.unitExp) (ulps e.fmt b) (magOf e.fmt (fdiv e a b)) ∧
      signOf e.fmt (fdiv e a b) = (signOf e.fmt a != signOf e.fmt b) := by
  rw [fdiv_of_finite e a b ha hb h0] at hfin ⊢
  exact mkSample_roundMag_nearestEven e.fmt _ _ _ (ulps_pos e.fmt b h0) hfin

/-- Settles O59: the three operations round once, and `roundMag` rounds correctly. -/
theorem arithmeticRoundsToNearestEven : Obligations.ArithmeticRoundsToNearestEven :=
  fun e a b ha hb =>
    ⟨fadd_nearestEven e a b ha hb, fmul_nearestEven e a b ha hb, fdiv_nearestEven e a b ha hb⟩

end Sys2Proof.Proofs
end

