-- ==== Sys2Proof/Proofs/SquareRoot.lean ====
section
/-! PROOF. `fsqrt` is correctly rounded (O60). It rounds `2 r + b` halves, where `r` is the integer root and `b` is 1
for an inexact one. An operand is at least one subnormal, so the root is so large that the encodings near it have even
values and no middle of two of them is the odd `2 r + 1`: on middles the halves compare as the exact root does. -/

namespace Sys2Proof.Proofs

open Sys2Proof.Machine Sys2Proof.Claims

/-! ### The rounded integer root -/

/-- The root of `v` in halves, as `fsqrt` rounds it: an inexact root stands half way to the next integer. -/
def rootHalves (v : Nat) : Nat := 2 * isqrt v + if isqrt v * isqrt v = v then 0 else 1

theorem fsqrt_eq_rootHalves (e : Fp) (x : Sample) (hf : isFinite e.fmt x = true) (h0 : isZero e.fmt x = false)
    (hs : signOf e.fmt x = false) :
    fsqrt e x = mkSample e.fmt false (roundMag e.fmt (rootHalves (ulps e.fmt x * 2 ^ e.fmt.unitExp)) 2) :=
  fsqrt_of_positive e x hf h0 hs

/-- An integer compares with the halves of a root, from either side, as with the root. -/
theorem two_mul_le_rootHalves_iff (v c : Nat) : 2 * c ≤ rootHalves v ↔ c * c ≤ v := by
  obtain ⟨hl, hu⟩ := isqrt_spec v
  calc 2 * c ≤ rootHalves v
    _ ↔ c < isqrt v + 1 := by unfold rootHalves; split <;> omega
    _ ↔ c * c ≤ v :=
      ⟨fun h => (Nat.mul_self_le_mul_self (Nat.le_of_lt_succ h)).trans hl,
        fun h => Nat.mul_self_lt_mul_self_iff.1 (h.trans_lt hu)⟩

theorem rootHalves_le_two_mul_iff (v c : Nat) : rootHalves v ≤ 2 * c ↔ v ≤ c * c := by
  obtain ⟨hl, hu⟩ := isqrt_spec v
  unfold rootHalves
  split
  case isTrue hexact =>
    rw [Nat.add_zero, Nat.mul_le_mul_left_iff Nat.two_pos, ← Nat.mul_self_le_mul_self_iff, hexact]
  case isFalse hinexact =>
    constructor
    · intro h
      exact hu.le.trans (Nat.mul_self_le_mul_self (by omega))
    · intro h
      have hlt : isqrt v < c := Nat.mul_self_lt_mul_self_iff.1 (by omega)
      omega

/-! ### From the rounded halves to the nearest root -/

/-- A sum of two values up to an even middle that the halves reach is no more than twice the root, and twice the root
only at that middle. -/
theorem sq_le_of_le_rootHalves {v s c : Nat} (hs : s ≤ 2 * c) (hc : 2 * c ≤ rootHalves v) :
    s ^ 2 ≤ 4 * v ∧ (s ^ 2 = 4 * v → 2 * c = rootHalves v) := by
  have hcv := (two_mul_le_rootHalves_iff v c).1 hc
  have hsq : s ^ 2 ≤ 4 * (c * c) := (Nat.pow_le_pow_left hs 2).trans_eq (by ring)
  exact ⟨by omega, fun htie => le_antisymm hc ((rootHalves_le_two_mul_iff v c).2 (by omega))⟩

/-- A sum of two values from an even middle on that the halves do not pass is no less than twice the root, and twice the
root only at that middle. -/
theorem le_sq_of_rootHalves_le {v s c : Nat} (hs : 2 * c ≤ s) (hc : rootHalves v ≤ 2 * c) :
    4 * v ≤ s ^ 2 ∧ (s ^ 2 = 4 * v → 2 * c = rootHalves v) := by
  have hcv := (rootHalves_le_two_mul_iff v c).1 hc
  have hsq : 4 * (c * c) ≤ s ^ 2 := (Nat.pow_le_pow_left hs 2).trans_eq' (by ring)
  exact ⟨by omega, fun htie => le_antisymm ((two_mul_le_rootHalves_iff v c).2 (by omega)) hc⟩

/-- What is nearest to the halves of a root is nearest to the root, where neighbouring values are even: the middle with
the neighbour on its side stands between the root and the middle with any other encoding. -/
theorem RoundsTo.nearestRoot {f : Format} {v m : Nat} (h : RoundsTo f (rootHalves v) 2 m) (hm : m < f.infMag)
    (hlarge : 2 * 2 ^ f.fracBits < m) : NearestRoot f v m := by
  refine ⟨hm, fun n hn => ?_⟩
  rw [ulps_mkSample f false m hm, ulps_mkSample f false n hn]
  rcases Nat.lt_trichotomy n m with hlt | rfl | hlt
  · obtain ⟨hle, htie⟩ := h.below (m - 1) (by omega)
    obtain ⟨c, hc⟩ := Nat.dvd_add (two_dvd_magUlps f m hlarge.le) (two_dvd_magUlps f (m - 1) (by omega))
    have hmono := (magUlps_strictMono f).monotone (show n ≤ m - 1 by omega)
    obtain ⟨hsq, heq⟩ :=
      sq_le_of_le_rootHalves (v := v) (s := magUlps f m + magUlps f n) (c := c) (by omega) (by omega)
    exact ⟨fun _ => hsq, fun hgt => (hgt.asymm hlt).elim, fun _ hs => htie (by have := heq hs; omega)⟩
  · exact ⟨fun hlt => (lt_irrefl _ hlt).elim, fun hlt => (lt_irrefl _ hlt).elim, fun hne => absurd rfl hne⟩
  · obtain ⟨hle, htie⟩ := h.above (m + 1) (by omega)
    obtain ⟨c, hc⟩ := Nat.dvd_add (two_dvd_magUlps f m hlarge.le) (two_dvd_magUlps f (m + 1) (by omega))
    have hmono := (magUlps_strictMono f).monotone (show m + 1 ≤ n by omega)
    obtain ⟨hsq, heq⟩ :=
      le_sq_of_rootHalves_le (v := v) (s := magUlps f m + magUlps f n) (c := c) (by omega) (by omega)
    exact ⟨fun hgt => (hgt.asymm hlt).elim, fun _ => hsq, fun _ hs => htie (by have := heq hs; omega)⟩

/-! ### The rounded root is neither small nor infinite -/

theorem magUlps_powerOfTwo (f : Format) (k : Nat) : magUlps f ((k + 1) * 2 ^ f.fracBits) = 2 ^ (f.fracBits + k) := by
  rw [Nat.succ_mul, magUlps_scaled f k _ (.inr le_rfl) (by omega), Nat.pow_add]

theorem roundMag_rootHalves_large (f : Format) (v : Nat) (hv : 2 ^ f.unitExp ≤ v) :
    3 * 2 ^ f.fracBits ≤ roundMag f (rootHalves v) 2 := by
  refine le_roundMag f _ 2 _ Nat.two_pos (by cases f <;> decide) ?_
  rw [Nat.mul_comm _ 2, two_mul_le_rootHalves_iff, magUlps_powerOfTwo f 2, ← Nat.pow_add]
  exact (Nat.pow_le_pow_right Nat.two_pos (by cases f <;> decide)).trans hv

theorem ulps_lt_of_finite (f : Format) (x : Sample) (h : isFinite f x = true) :
    ulps f x < 2 ^ (f.fracBits + (2 ^ f.expBits - 2)) := by
  rw [isFinite, decide_eq_true_eq] at h
  rw [ulps_eq_magUlps, ← magUlps_powerOfTwo]
  exact magUlps_strictMono f (h.trans_eq (by cases f <;> rfl))

theorem roundMag_rootHalves_lt_infMag (f : Format) (x : Sample) (h : isFinite f x = true) :
    roundMag f (rootHalves (ulps f x * 2 ^ f.unitExp)) 2 < f.infMag := by
  refine roundMag_lt_infMag f _ 2 ((2 ^ f.expBits - 3 + 1) * 2 ^ f.fracBits) Nat.two_pos (by cases f <;> decide) ?_
  rw [Nat.mul_comm _ 2, ← not_le, two_mul_le_rootHalves_iff, not_le, magUlps_powerOfTwo, ← Nat.pow_add]
  calc ulps f x * 2 ^ f.unitExp
    _ < 2 ^ (f.fracBits + (2 ^ f.expBits - 2)) * 2 ^ f.unitExp :=
      Nat.mul_lt_mul_of_pos_right (ulps_lt_of_finite f x h) (by positivity)
    _ = 2 ^ (f.fracBits + (2 ^ f.expBits - 2) + f.unitExp) := (Nat.pow_add ..).symm
    _ ≤ _ := Nat.pow_le_pow_right Nat.two_pos (by cases f <;> decide)

/-! ### The clauses of O60 -/

theorem isNaN_zero (f : Format) : isNaN f (z f) = false := by simp [isNaN, z]

theorem orderKey_zero (f : Format) : orderKey f (z f) = 0 := by simp [orderKey, z]

theorem zero_flt_iff (f : Format) (x : Sample) :
    flt f (z f) x = true ↔ isNaN f x = false ∧ signOf f x = false ∧ isZero f x = false := by
  rw [flt, isNaN_zero, orderKey_zero, orderKey, isZero]
  cases signOf f x <;> simp [Nat.pos_iff_ne_zero]

theorem flt_zero_iff (f : Format) (x : Sample) :
    flt f x (z f) = true ↔ isNaN f x = false ∧ signOf f x = true ∧ isZero f x = false := by
  rw [flt, isNaN_zero, orderKey_zero, orderKey, isZero]
  cases signOf f x <;> simp [Nat.pos_iff_ne_zero]

theorem isQuietNaN_quietNaN (e : Fp) : IsQuietNaN e.fmt (quietNaN e) := by
  rw [IsQuietNaN, quietNaN, magOf_mkSample e.fmt _ _ (nanMag_lt e.fmt _)]
  exact Nat.le_add_right ..

theorem fsqrt_positive_nearestRoot (e : Fp) (x : Sample) (hf : isFinite e.fmt x = true)
    (hx : flt e.fmt (z e.fmt) x = true) :
    signOf e.fmt (fsqrt e x) = false ∧
      NearestRoot e.fmt (ulps e.fmt x * 2 ^ e.fmt.unitExp) (magOf e.fmt (fsqrt e x)) := by
  obtain ⟨-, hs, h0⟩ := (zero_flt_iff e.fmt x).1 hx
  have hlt := roundMag_rootHalves_lt_infMag e.fmt x hf
  have hlarge := roundMag_rootHalves_large e.fmt (ulps e.fmt x * 2 ^ e.fmt.unitExp)
    (Nat.le_mul_of_pos_left _ (ulps_pos e.fmt x h0))
  have hround := roundMag_roundsTo e.fmt _ 2 Nat.two_pos hlt
  have hp : 0 < 2 ^ e.fmt.fracBits := by positivity
  rw [fsqrt_eq_rootHalves e x hf h0 hs, signOf_mkSample _ _ _ (roundMag_lt ..), magOf_mkSample _ _ _ (roundMag_lt ..)]
  exact ⟨rfl, hround.nearestRoot hlt (by omega)⟩

theorem fsqrt_zero (e : Fp) (x : Sample) (h : isZero e.fmt x = true) : fsqrt e x = zeroOf e.fmt (signOf e.fmt x) := by
  have hn : isNaN e.fmt x = false := by
    rw [isZero, decide_eq_true_eq] at h
    simp [isNaN, h]
  simp [fsqrt, hn, h]

theorem fsqrt_negative_or_nan (e : Fp) (x : Sample) (h : flt e.fmt x (z e.fmt) = true ∨ isNaN e.fmt x = true) :
    fsqrt e x = quietNaN e := by
  rcases h with h | h
  · obtain ⟨hn, hs, h0⟩ := (flt_zero_iff e.fmt x).1 h
    simp [fsqrt, hn, hs, h0]
  · simp [fsqrt, h]

theorem fsqrt_infinity (e : Fp) (x : Sample) (h : isInf e.fmt x = true) (hs : signOf e.fmt x = false) :
    fsqrt e x = infOf e.fmt false := by
  have hmag : magOf e.fmt x = e.fmt.infMag := of_decide_eq_true h
  have hn : isNaN e.fmt x = false := by simp [isNaN, hmag]
  have h0 : isZero e.fmt x = false := by
    rw [isZero, hmag]
    cases e.fmt <;> decide
  simp [fsqrt, hn, h0, hs, h]

/-- Settles O60, clause by clause. -/
theorem squareRootIsCorrectlyRounded : Obligations.SquareRootIsCorrectlyRounded :=
  fun e x =>
    ⟨fsqrt_positive_nearestRoot e x, fsqrt_zero e x,
      fun h => fsqrt_negative_or_nan e x h ▸ isQuietNaN_quietNaN e, fsqrt_infinity e x⟩

end Sys2Proof.Proofs
end

