-- ==== Sys2Proof/Proofs/CommandBodies.lean ====
section
/-! PROOF. One rule per check of a command's body (R131 to R133): the rest of the body may use what the check tells;
and no command stops the machine. -/

namespace Sys2Proof.Proofs

open Sys2Proof.Machine

/-! ### Checks before an effect -/

/-- The rest of a command may use that its check passed, and what the check gave. -/
theorem ensures_check {α : Type} {P : State → Prop} {x : Except ErrCode α} {k : α → Except ErrCode State}
    (h : ∀ a, x = .ok a → Ensures P (k a)) : Ensures P (x >>= k) := by
  intro t ht
  obtain ⟨a, hx, hk⟩ := bind_ok x k t ht
  exact h a hx t hk

theorem ensures_prepared {P : State → Prop} {b : Bool} {k : Unit → Except ErrCode State}
    (h : b = true → Ensures P (k ())) : Ensures P (needPrepared b >>= k) :=
  ensures_check fun _ hx => h ((needPrepared_ok ..).1 hx)

theorem ensures_count {P : State → Prop} {n m : Nat} {k : Unit → Except ErrCode State}
    (h : 1 ≤ n ∧ n ≤ m → Ensures P (k ())) : Ensures P (checkCount n m >>= k) :=
  ensures_check fun _ hx => h ((checkCount_ok ..).1 hx)

theorem ensures_channel {P : State → Prop} {n c : Nat} {k : Unit → Except ErrCode State}
    (h : c < n → Ensures P (k ())) : Ensures P (checkChannel n c >>= k) :=
  ensures_check fun _ hx => h ((checkChannel_ok ..).1 hx)

theorem ensures_section {P : State → Prop} {n c : Nat} {k : Unit → Except ErrCode State}
    (h : c < n → Ensures P (k ())) : Ensures P (checkSection n c >>= k) :=
  ensures_check fun _ hx => h ((checkSection_ok ..).1 hx)

theorem ensures_rate {P : State → Prop} {f : Format} {x : Sample} {k : Unit → Except ErrCode State}
    (h : positiveFinite f x = true → Ensures P (k ())) : Ensures P (checkFs f x >>= k) :=
  ensures_check fun _ hx => h ((checkFs_ok ..).1 hx)

/-- A field that names one channel selects that channel (R104). -/
theorem ensures_one {P : State → Prop} {n c : Nat} {k : List Nat → Except ErrCode State} (h : Ensures P (k [c])) :
    Ensures P (channels n (.one c) >>= k) := by
  refine ensures_check fun cs hcs => ?_
  obtain ⟨-, -, ⟨hsel, -⟩ | ⟨d, hsel, rfl⟩⟩ := channels_ok n _ cs hcs
  · cases hsel
  · cases hsel
    exact h

/-! ### Every command answers -/

theorem conclude_answers (s : State) (x : Except ErrCode State) : ∃ t, conclude s x = .next t := by
  obtain ⟨t, -, h⟩ | ⟨e, -, h⟩ := conclude_cases s x
  · exact ⟨t, h⟩
  · exact ⟨_, h⟩

/-- A command has its effect or raises its error: it never stops the machine. -/
theorem exec_answers (i : Instr) (s : State) : ∃ t, exec i s = .next t := by
  cases i with
  | nop | errclr | gcSetthresh | gcSetratio | gcSetknee | gcCompute | gcRead => exact ⟨_, rfl⟩
  | _ => exact conclude_answers s _

end Sys2Proof.Proofs
end

