-- ==== Sys2Proof/Proofs/TimeCoefficient.lean ====
section
/-! PROOF. `TimeCoeff` (R134) gives a factor in [+0, 1]: its quotient and product are not negative, so that `fexp` takes
its law for operands that are not positive (R13). -/

namespace Sys2Proof.Proofs

open Sys2Proof.Machine

/-! ### Values that are not negative -/

/-- Neither a NaN nor negative: +0, a positive value or plus infinity. -/
def NonNeg (f : Format) (x : Sample) : Prop := isNaN f x = false ∧ signOf f x = false

theorem nonNeg_mkSample (f : Format) (m : Nat) (h : m ≤ f.infMag) : NonNeg f (mkSample f false m) := by
  have hlt : m < 2 ^ f.signPos := h.trans_lt (infMag_lt f)
  exact ⟨by rw [isNaN_mkSample f _ _ hlt]; simpa using h, signOf_mkSample f _ _ hlt⟩

theorem nonNeg_infOf (f : Format) : NonNeg f (infOf f false) := by
  unfold infOf
  exact nonNeg_mkSample f _ le_rfl

theorem nonNeg_zeroOf (f : Format) : NonNeg f (zeroOf f false) := by
  unfold zeroOf
  exact nonNeg_mkSample f _ (Nat.zero_le _)

theorem nonNeg_ofInteger (f : Format) (n : Nat) : NonNeg f (ofInteger f n) := by
  unfold ofInteger
  exact nonNeg_mkSample f _ (roundMag_le ..)

theorem nonNeg_of_zero_flt (f : Format) (x : Sample) (h : flt f (zeroOf f false) x = true) :
    NonNeg f x ∧ isZero f x = false := by
  obtain ⟨hn, hs, h0⟩ := (zero_flt_iff f x).1 h
  exact ⟨⟨hn, hs⟩, h0⟩

/-- A quotient that is neither 0 / 0 nor infinity / infinity. -/
theorem fdiv_nonNeg (e : Fp) (a b : Sample) (ha : NonNeg e.fmt a) (hb : NonNeg e.fmt b)
    (hinf : isInf e.fmt a = false ∨ isInf e.fmt b = false) (h0 : isZero e.fmt a = false ∨ isZero e.fmt b = false) :
    NonNeg e.fmt (fdiv e a b) := by
  obtain ⟨han, has⟩ := ha
  obtain ⟨hbn, hbs⟩ := hb
  unfold fdiv
  simp only [han, hbn, has, hbs, Bool.or_self, Bool.false_eq_true, if_false, bne_self_eq_false]
  split
  · rw [if_neg (by simp_all)]
    exact nonNeg_infOf e.fmt
  · split
    · exact nonNeg_zeroOf e.fmt
    · split
      · rw [if_neg (by simp_all)]
        exact nonNeg_infOf e.fmt
      · exact nonNeg_mkSample e.fmt _ (roundMag_le ..)

/-- A product with a factor that is neither 0 nor infinite. -/
theorem fmul_nonNeg (e : Fp) (a b : Sample) (ha : NonNeg e.fmt a) (hb : NonNeg e.fmt b)
    (hinf : isInf e.fmt b = false) (h0 : isZero e.fmt b = false) : NonNeg e.fmt (fmul e a b) := by
  obtain ⟨han, has⟩ := ha
  obtain ⟨hbn, hbs⟩ := hb
  unfold fmul
  simp only [han, hbn, has, hbs, hinf, h0, Bool.or_self, Bool.or_false, Bool.false_eq_true, if_false,
    bne_self_eq_false]
  split
  · next ha =>
    have hz : isZero e.fmt a = false := by
      rw [isInf, decide_eq_true_eq] at ha
      rw [isZero, ha]
      cases e.fmt <;> decide
    rw [if_neg (by simp [hz])]
    exact nonNeg_infOf e.fmt
  · exact nonNeg_mkSample e.fmt _ (roundMag_le ..)

theorem fneg_le_zero (f : Format) (x : Sample) (h : NonNeg f x) : fle f (fneg f x) (zeroOf f false) = true := by
  obtain ⟨hn, hs⟩ := h
  simp [fle, hn, (nonNeg_zeroOf f).1, orderKey, hs]

/-! ### The range of the coefficient (R134) -/

@[simp] theorem isNaN_canon (f : Format) (x : Sample) : isNaN f (canon f x) = isNaN f x := by simp [isNaN]

@[simp] theorem orderKey_canon (f : Format) (x : Sample) : orderKey f (canon f x) = orderKey f x := by simp [orderKey]

theorem not_nan_of_fle (f : Format) (x y : Sample) (h : fle f x y = true) : isNaN f x = false ∧ isNaN f y = false := by
  simp only [fle, Bool.and_eq_true, Bool.not_eq_true'] at h
  exact h.1

theorem unitRange_canon (f : Format) (x : Sample) : UnitRange f (canon f x) ↔ UnitRange f x := by simp [UnitRange, fle]

theorem unitRange_zero (f : Format) : UnitRange f (zeroOf f false) := by
  cases f <;> unfold UnitRange <;> decide +kernel

/-- R13: `fexp` of an operand that is not positive. -/
theorem unitRange_fexp (e : Fp) (x : Sample) (h : fle e.fmt x (zeroOf e.fmt false) = true) :
    UnitRange e.fmt (fexp e x) := by
  obtain ⟨⟨-, -, hrange, -, -⟩, -⟩ := machineFunctions_laws
  have hr : UnitRange e.fmt (machineFunctions.fexp e.fmt x) := hrange e.fmt x h
  unfold fexp settle
  rw [if_neg (by simp [(not_nan_of_fle _ _ _ hr.1).2]), unitRange_canon]
  exact hr

theorem thousand_is_finite_nonzero (f : Format) :
    isInf f (ofInteger f 1000) = false ∧ isZero f (ofInteger f 1000) = false := by
  cases f <;> decide +kernel

theorem one_is_finite_nonzero (f : Format) : isInf f (ofInteger f 1) = false ∧ isZero f (ofInteger f 1) = false := by
  cases f <;> decide +kernel

theorem positiveFinite_kind (f : Format) (x : Sample) (h : positiveFinite f x = true) :
    NonNeg f x ∧ isZero f x = false ∧ isInf f x = false := by
  obtain ⟨hpos, hfin⟩ := Bool.and_eq_true_iff.1 h
  obtain ⟨⟨hn, hs⟩, h0⟩ := nonNeg_of_zero_flt f x hpos
  refine ⟨⟨hn, hs⟩, h0, ?_⟩
  simp only [flt, orderKey, hs, magOf_infOf, signOf_infOf, Bool.and_eq_true, decide_eq_true_eq] at hfin
  simpa [isInf] using (Nat.cast_lt.1 hfin.2).ne

/-- R134: at a legal rate every time gives a factor in [+0, 1]. -/
theorem unitRange_timeCoeff (e : Fp) (ms fs : Sample) (hfs : positiveFinite e.fmt fs = true) :
    UnitRange e.fmt (timeCoeff e ms fs) := by
  unfold timeCoeff
  split
  · next hms =>
    obtain ⟨hms, hms0⟩ := nonNeg_of_zero_flt e.fmt ms hms
    obtain ⟨hfs, hfs0, hfsInf⟩ := positiveFinite_kind e.fmt fs hfs
    have hseconds := fdiv_nonNeg (e.site 0) ms (ofInteger e.fmt 1000) hms (nonNeg_ofInteger ..)
      (.inr (thousand_is_finite_nonzero e.fmt).1) (.inl hms0)
    have hsamples := fmul_nonNeg (e.site 1) _ fs hseconds hfs hfsInf hfs0
    have hrate := fdiv_nonNeg (e.site 2) (ofInteger e.fmt 1) _ (nonNeg_ofInteger ..) hsamples
      (.inl (one_is_finite_nonzero e.fmt).1) (.inl (one_is_finite_nonzero e.fmt).2)
    exact unitRange_fexp (e.site 3) _ (fneg_le_zero e.fmt _ hrate)
  · exact unitRange_zero e.fmt

theorem fits_fexp (e : Fp) (x : Sample) : Fits e.fmt (fexp e x) := by
  unfold fexp
  exact fits_settle ..

theorem fits_timeCoeff (e : Fp) (ms fs : Sample) : Fits e.fmt (timeCoeff e ms fs) := by
  unfold timeCoeff
  split
  · exact fits_fexp (e.site 3) _
  · exact fits_zeroOf ..

end Sys2Proof.Proofs
end

