-- ==== Sys2Proof/Proofs/UnitInvariants.lean ====
section
/-! PROOF. The invariant of each unit (R41 to R47) as a predicate of one array element, and the operations of the unit
that keep it. -/

namespace Sys2Proof.Proofs

open Sys2Proof.Machine

/-! ### Lists whose elements all satisfy a predicate -/

theorem forall_mem_set {α : Type} {p : α → Prop} {l : List α} {x : α} (c : Nat) (hl : ∀ a ∈ l, p a) (hx : p x) :
    ∀ a ∈ l.set c x, p a := by
  intro a ha
  obtain ha | rfl := List.mem_or_eq_of_mem_set ha
  · exact hl a ha
  · exact hx

theorem forall_mem_modify {α : Type} {p : α → Prop} {l : List α} {g : α → α} (c : Nat) (hl : ∀ a ∈ l, p a)
    (hg : ∀ a, p a → p (g a)) : ∀ a ∈ l.modify c g, p a := by
  rw [List.forall_mem_iff_getElem] at hl ⊢
  intro j hj
  rw [List.getElem_modify]
  split
  · exact hg _ (hl j _)
  · exact hl j _

theorem forall_mem_onChannels {α : Type} {p : α → Prop} {cs : List Nat} {eff : Nat → α → α} {l : List α}
    (hl : ∀ a ∈ l, p a) (heff : ∀ c a, p a → p (eff c a)) : ∀ a ∈ onChannels cs eff l, p a := by
  induction cs generalizing l with
  | nil => exact hl
  | cons c cs ih =>
    rw [onChannels, List.foldl_cons, ← onChannels]
    exact ih (forall_mem_modify c hl (heff c))

theorem getD_mem {α : Type} {l : List α} {c : Nat} (d : α) (h : c < l.length) : l.getD c d ∈ l := by
  rw [List.getD_eq_getElem l d h]
  exact List.getElem_mem h

/-! ### The chain of one filter channel (R47) -/

/-- A chain of `n` sections that all satisfy `q`. -/
def ChainOk {α : Type} (n : Nat) (q : α → Prop) (chain : List α) : Prop := chain.length = n ∧ ∀ σ ∈ chain, q σ

theorem chainOk_replicate {α : Type} {q : α → Prop} (n : Nat) {σ : α} (h : q σ) : ChainOk n q (List.replicate n σ) :=
  ⟨List.length_replicate, List.forall_mem_replicate.2 (.inr h)⟩

theorem ChainOk.modify {α : Type} {n : Nat} {q : α → Prop} {chain : List α} {g : α → α} (h : ChainOk n q chain)
    (k : Nat) (hg : ∀ σ, q σ → q (g σ)) : ChainOk n q (chain.modify k g) :=
  ⟨(List.length_modify ..).trans h.1, forall_mem_modify k h.2 hg⟩

theorem ChainOk.map {α : Type} {n : Nat} {q : α → Prop} {chain : List α} {g : α → α} (h : ChainOk n q chain)
    (hg : ∀ σ, q σ → q (g σ)) : ChainOk n q (chain.map g) :=
  ⟨(List.length_map ..).trans h.1, List.forall_mem_map.2 fun σ hσ => hg σ (h.2 σ hσ)⟩

theorem ChainOk.cons {α : Type} {n : Nat} {q : α → Prop} {chain : List α} {σ : α} (h : ChainOk n q chain) (hσ : q σ) :
    ChainOk (n + 1) q (σ :: chain) :=
  ⟨congrArg Nat.succ h.1, List.forall_mem_cons.2 ⟨hσ, h.2⟩⟩

/-- A section below the counts exists, and what holds of every section holds of it. -/
theorem elemAt_getD_of_forall {α : Type} [Inhabited α] {n k c : Nat} {q : α → Prop} {l : List (List α)}
    (hl : ∀ chain ∈ l, ChainOk n q chain) (hc : c < l.length) (hk : k < n) : q ((elemAt l c k).getD default) := by
  obtain ⟨hlen, hall⟩ := hl l[c] (List.getElem_mem hc)
  have hk' : k < l[c].length := hlen.symm ▸ hk
  have helem : elemAt l c k = some l[c][k] := by simp [elemAt, hc, hk']
  rw [helem]
  exact hall _ (List.getElem_mem hk')

/-! ### The first-order filter (R41) -/

def FoSectionOk (f : Format) (σ : FoSection) : Prop :=
  Fits f σ.b0 ∧ Fits f σ.b1 ∧ Fits f σ.a1 ∧ Fits f σ.xp ∧ Fits f σ.yp

theorem foFresh_ok (f : Format) : FoSectionOk f (foFresh f) :=
  ⟨fits_ofInteger .., fits_zeroOf .., fits_zeroOf .., fits_zeroOf .., fits_zeroOf ..⟩

/-- R192. -/
theorem foClear_ok {f : Format} {n : Nat} {chain : List FoSection} (h : ChainOk n (FoSectionOk f) chain) :
    ChainOk n (FoSectionOk f) (foClear f chain) :=
  h.map fun _ ⟨hb0, hb1, ha1, _, _⟩ => ⟨hb0, hb1, ha1, fits_zeroOf .., fits_zeroOf ..⟩

/-- R190: the cascade keeps its sections, and its output is a sample. -/
theorem foChain_ok (e : Fp) (k : Nat) (chain : List FoSection) (x : Sample)
    (h : ∀ σ ∈ chain, FoSectionOk e.fmt σ) (hx : Fits e.fmt x) :
    Fits e.fmt (foChain e k chain x).1 ∧ ChainOk chain.length (FoSectionOk e.fmt) (foChain e k chain x).2 := by
  induction chain generalizing k x with
  | nil => exact ⟨hx, rfl, h⟩
  | cons σ rest ih =>
    obtain ⟨⟨hb0, hb1, ha1, -, -⟩, hrest⟩ := List.forall_mem_cons.1 h
    have hy : Fits e.fmt (foOutput (e.site k) σ x) := fits_fsub ((e.site k).site 4) _ _
    obtain ⟨hout, htail⟩ := ih (k + 1) _ hrest hy
    exact ⟨hout, htail.cons ⟨hb0, hb1, ha1, hx, hy⟩⟩

/-- R195: a design gives samples. -/
theorem foDesignOf_fits (e : Fp) (f g : Sample) (type : FoType) :
    Fits e.fmt (foDesignOf e f g type).b0 ∧ Fits e.fmt (foDesignOf e f g type).b1 ∧
      Fits e.fmt (foDesignOf e f g type).a1 := by
  cases type with
  | lowpass => exact ⟨fits_fdiv (e.site 6) _ _, fits_fdiv (e.site 6) _ _, fits_fneg ..⟩
  | highpass => exact ⟨fits_fdiv (e.site 3) _ _, fits_fneg .., fits_fexp (e.site 1) _⟩
  | allpass => exact ⟨fits_fexp (e.site 1) _, fits_ofInteger .., fits_fexp (e.site 1) _⟩
  | lowshelf => exact ⟨fits_fdiv (e.site 7) _ _, fits_fdiv (e.site 10) _ _, fits_fdiv (e.site 12) _ _⟩
  | highshelf => exact ⟨fits_fdiv (e.site 7) _ _, fits_fneg .., fits_fdiv (e.site 12) _ _⟩

theorem foInv_chains {p : Params} {u : FoUnit} (h : FoInv p u) :
    ∀ chain ∈ u.sections, ChainOk u.nsec (FoSectionOk p.fmt) chain :=
  fun chain hc => ⟨h.sectionCount chain hc, h.fits chain hc⟩

theorem foInv_of_chains {p : Params} {u : FoUnit} (hprep : u.prepared = true)
    (hcounts : (1 ≤ u.nch ∧ u.nch ≤ p.maxChannels) ∧ 1 ≤ u.nsec ∧ u.nsec ≤ p.maxSections)
    (hlen : u.sections.length = u.nch) (hl : ∀ chain ∈ u.sections, ChainOk u.nsec (FoSectionOk p.fmt) chain) :
    FoInv p u where
  idle := by simp [hprep]
  counts := fun _ => hcounts
  channelCount := hlen
  sectionCount := fun chain hc => (hl chain hc).1
  fits := fun chain hc => (hl chain hc).2

/-- The sections of a prepared unit may change as long as their number stays and each is legal. -/
theorem foInv_setSections {p : Params} {u : FoUnit} {l : List (List FoSection)} (h : FoInv p u)
    (hprep : u.prepared = true) (hlen : l.length = u.sections.length)
    (hl : ∀ chain ∈ l, ChainOk u.nsec (FoSectionOk p.fmt) chain) : FoInv p { u with sections := l } :=
  foInv_of_chains hprep (h.counts hprep) (hlen.trans h.channelCount) hl

/-! ### The biquad filter (R42) -/

structure BqSectionOk (f : Format) (σ : BqSection) : Prop where
  parameters : validFreq f σ.freq = true ∧ positiveFinite f σ.q = true ∧ validGainDb f σ.gdb = true
  parametersFit : Fits f σ.freq ∧ Fits f σ.q ∧ Fits f σ.gdb
  coefficientsFit : Fits f σ.b0 ∧ Fits f σ.b1 ∧ Fits f σ.b2 ∧ Fits f σ.a1 ∧ Fits f σ.a2
  delaysFit : Fits f σ.x1 ∧ Fits f σ.x2 ∧ Fits f σ.y1 ∧ Fits f σ.y2

theorem bqFresh_ok (f : Format) : BqSectionOk f (bqFresh f) where
  parameters := by cases f <;> decide +kernel
  parametersFit := ⟨fits_ofRatio .., fits_qDef .., fits_zeroOf ..⟩
  coefficientsFit := ⟨fits_ofInteger .., fits_zeroOf .., fits_zeroOf .., fits_zeroOf .., fits_zeroOf ..⟩
  delaysFit := ⟨fits_zeroOf .., fits_zeroOf .., fits_zeroOf .., fits_zeroOf ..⟩

/-- R222: a recomputation changes the coefficients alone, to samples. -/
theorem BqSectionOk.recompute {e : Fp} {σ : BqSection} (h : BqSectionOk e.fmt σ) :
    BqSectionOk e.fmt (bqRecompute e σ) :=
  { h with
    coefficientsFit := ⟨fits_fdiv (e.site 8) _ _, fits_fdiv (e.site 9) _ _, fits_fdiv (e.site 10) _ _,
      fits_fdiv (e.site 11) _ _, fits_fdiv (e.site 12) _ _⟩ }

/-- R232. -/
theorem bqClear_ok {f : Format} {n : Nat} {chain : List BqSection} (h : ChainOk n (BqSectionOk f) chain) :
    ChainOk n (BqSectionOk f) (bqClear f chain) :=
  h.map fun _ hσ => { hσ with delaysFit := ⟨fits_zeroOf .., fits_zeroOf .., fits_zeroOf .., fits_zeroOf ..⟩ }

/-- R220: the cascade keeps its sections, and its output is a sample. -/
theorem bqChain_ok (e : Fp) (k : Nat) (chain : List BqSection) (x : Sample)
    (h : ∀ σ ∈ chain, BqSectionOk e.fmt σ) (hx : Fits e.fmt x) :
    Fits e.fmt (bqChain e k chain x).1 ∧ ChainOk chain.length (BqSectionOk e.fmt) (bqChain e k chain x).2 := by
  induction chain generalizing k x with
  | nil => exact ⟨hx, rfl, h⟩
  | cons σ rest ih =>
    obtain ⟨hσ, hrest⟩ := List.forall_mem_cons.1 h
    obtain ⟨hx1, -, hy1, -⟩ := hσ.delaysFit
    have hy : Fits e.fmt (bqOutput (e.site k) σ x) := fits_fsub ((e.site k).site 8) _ _
    obtain ⟨hout, htail⟩ := ih (k + 1) _ hrest hy
    exact ⟨hout, htail.cons { hσ with delaysFit := ⟨hx, hx1, hy, hy1⟩ }⟩

theorem bqInv_chains {p : Params} {u : BqUnit} (h : BqInv p u) :
    ∀ chain ∈ u.sections, ChainOk u.nsec (BqSectionOk p.fmt) chain := by
  refine fun chain hc => ⟨h.sectionCount chain hc, fun σ hσ => ?_⟩
  obtain ⟨hparams, hcoefs, hdelays⟩ := h.fits chain hc σ hσ
  exact ⟨h.parameters chain hc σ hσ, hparams, hcoefs, hdelays⟩

theorem bqInv_of_chains {p : Params} {u : BqUnit} (hprep : u.prepared = true)
    (hcounts : (1 ≤ u.nch ∧ u.nch ≤ p.maxChannels) ∧ 1 ≤ u.nsec ∧ u.nsec ≤ p.maxSections)
    (hlen : u.sections.length = u.nch) (hl : ∀ chain ∈ u.sections, ChainOk u.nsec (BqSectionOk p.fmt) chain) :
    BqInv p u where
  idle := by simp [hprep]
  counts := fun _ => hcounts
  channelCount := hlen
  sectionCount := fun chain hc => (hl chain hc).1
  parameters := fun chain hc σ hσ => ((hl chain hc).2 σ hσ).parameters
  fits := fun chain hc σ hσ =>
    have hok := (hl chain hc).2 σ hσ
    ⟨hok.parametersFit, hok.coefficientsFit, hok.delaysFit⟩

/-- The sections of a prepared unit may change as long as their number stays and each is legal. -/
theorem bqInv_setSections {p : Params} {u : BqUnit} {l : List (List BqSection)} (h : BqInv p u)
    (hprep : u.prepared = true) (hlen : l.length = u.sections.length)
    (hl : ∀ chain ∈ l, ChainOk u.nsec (BqSectionOk p.fmt) chain) : BqInv p { u with sections := l } :=
  bqInv_of_chains hprep (h.counts hprep) (hlen.trans h.channelCount) hl

/-! ### The parameter smoother (R43) -/

/-- What a smoother channel stores, but for the progress of its ramp. -/
structure PsStoredOk (f : Format) (order : Nat) (ch : PsChannel) : Prop where
  stages : ch.stage.length = order
  duration : ch.dur ≤ Config.linearMaxSamples
  coefficient : UnitRange f ch.coef
  fits : Fits f ch.current ∧ Fits f ch.target ∧ Fits f ch.coef ∧ Fits f ch.inc ∧ ∀ v ∈ ch.stage, Fits f v

structure PsChannelOk (f : Format) (alg : PsAlg) (order : Nat) (ch : PsChannel) : Prop
    extends PsStoredOk f order ch where
  ramp : ch.remaining ≤ ch.dur ∧ (alg ≠ .linear → ch.remaining = 0)

theorem psFresh_ok (f : Format) (alg : PsAlg) (order : Nat) : PsChannelOk f alg order (psFresh f order) where
  stages := List.length_replicate
  duration := Nat.zero_le _
  coefficient := unitRange_zero f
  fits := ⟨fits_zeroOf .., fits_zeroOf .., fits_zeroOf .., fits_zeroOf ..,
    List.forall_mem_replicate.2 (.inr (fits_zeroOf ..))⟩
  ramp := ⟨le_rfl, fun _ => rfl⟩

/-- R162. -/
theorem PsChannelOk.seed {f : Format} {alg : PsAlg} {order : Nat} {ch : PsChannel} {v : Sample}
    (h : PsChannelOk f alg order ch) (hv : Fits f v) : PsChannelOk f alg order (psSeed f v ch) where
  stages := (List.length_map ..).trans h.stages
  duration := h.duration
  coefficient := h.coefficient
  fits := by
    obtain ⟨-, -, hcoef, -, -⟩ := h.fits
    exact ⟨hv, hv, hcoef, fits_zeroOf .., List.forall_mem_map.2 fun _ _ => hv⟩
  ramp := ⟨Nat.zero_le _, fun _ => rfl⟩

/-- R160: a ramp starts with its whole duration before it, or does not start; only a LINEAR smoother has one. -/
theorem PsStoredOk.startRamp {e : Fp} {order : Nat} {ch : PsChannel} (h : PsStoredOk e.fmt order ch) :
    PsChannelOk e.fmt .linear order (startRamp e ch) := by
  obtain ⟨hcur, htarget, hcoef, -, hstages⟩ := h.fits
  unfold Machine.startRamp
  split
  · exact { h with
      fits := ⟨hcur, htarget, hcoef, fits_fdiv (e.site 1) _ _, hstages⟩
      ramp := ⟨le_rfl, fun hne => absurd rfl hne⟩ }
  · exact { h with
      fits := ⟨hcur, htarget, hcoef, fits_zeroOf .., hstages⟩
      ramp := ⟨Nat.zero_le _, fun _ => rfl⟩ }

theorem duration_le (e : Fp) (ms fs : Sample) : duration e ms fs ≤ Config.linearMaxSamples := by
  unfold duration
  split
  · split
    · exact Nat.min_le_right ..
    · exact le_rfl
  · exact Nat.zero_le _

/-- R163, at a legal rate. -/
theorem PsChannelOk.applyTime {e : Fp} {alg : PsAlg} {order : Nat} {ch : PsChannel} {fs : Sample}
    (h : PsChannelOk e.fmt alg order ch) (t : Sample) (hfs : positiveFinite e.fmt fs = true) :
    PsChannelOk e.fmt alg order (psApplyTime e alg fs t ch) := by
  obtain ⟨hcur, htarget, -, hinc, hstages⟩ := h.fits
  have hstored : PsStoredOk e.fmt order
      { ch with coef := timeCoeff (e.site 0) t fs, dur := duration (e.site 1) t fs } :=
    { stages := h.stages
      duration := duration_le ..
      coefficient := unitRange_timeCoeff (e.site 0) t fs hfs
      fits := ⟨hcur, htarget, fits_timeCoeff (e.site 0) t fs, hinc, hstages⟩ }
  unfold psApplyTime
  split
  · next halg => exact halg ▸ PsStoredOk.startRamp (e := e.site 2) hstored
  · next halg =>
    have hidle := h.ramp.2 halg
    exact { hstored with ramp := ⟨hidle.trans_le (Nat.zero_le _), fun _ => hidle⟩ }

/-- R164. -/
theorem PsChannelOk.applyTarget {e : Fp} {alg : PsAlg} {order : Nat} {ch : PsChannel} {v : Sample}
    (h : PsChannelOk e.fmt alg order ch) (hv : Fits e.fmt v) :
    PsChannelOk e.fmt alg order (psApplyTarget e alg v ch) := by
  obtain ⟨hcur, -, hrest⟩ := h.fits
  have hok : PsChannelOk e.fmt alg order { ch with target := v } := { h with fits := ⟨hcur, hv, hrest⟩ }
  unfold psApplyTarget
  split
  · next halg =>
    split
    · exact h
    · exact halg ▸ hok.toPsStoredOk.startRamp
  · exact hok

/-- R166. -/
theorem PsChannelOk.stepLinear {e : Fp} {alg : PsAlg} {order : Nat} {ch : PsChannel}
    (h : PsChannelOk e.fmt alg order ch) : PsChannelOk e.fmt alg order (stepLinear e ch) := by
  obtain ⟨-, htarget, hrest⟩ := h.fits
  obtain ⟨hle, hidle⟩ := h.ramp
  unfold Machine.stepLinear
  split
  · exact { h with
      fits := ⟨fits_fadd (e.site 0) _ _, htarget, hrest⟩
      ramp := ⟨(Nat.sub_le ..).trans hle, fun hne => by simp [hidle hne]⟩ }
  · exact { h with
      fits := ⟨htarget, htarget, hrest⟩
      ramp := ⟨Nat.zero_le _, fun _ => rfl⟩ }

/-- R167: the stages keep their number and hold samples, and so does the value that comes out. -/
theorem expStages_ok (e : Fp) (coef : Sample) (k : Nat) (stage : List Sample) (inp : Sample) (hinp : Fits e.fmt inp) :
    ChainOk stage.length (Fits e.fmt) (expStages e coef k stage inp).1 ∧
      Fits e.fmt (expStages e coef k stage inp).2 := by
  induction stage generalizing k inp with
  | nil => exact ⟨⟨rfl, by simp [expStages]⟩, hinp⟩
  | cons st rest ih =>
    have hv : Fits e.fmt (onePole (e.site k) st inp coef) := fits_fadd ((e.site k).site 2) _ _
    obtain ⟨htail, hout⟩ := ih (k + 1) _ hv
    exact ⟨htail.cons hv, hout⟩

theorem PsChannelOk.stepExp {e : Fp} {alg : PsAlg} {order : Nat} {ch : PsChannel}
    (h : PsChannelOk e.fmt alg order ch) : PsChannelOk e.fmt alg order (stepExp e ch) := by
  obtain ⟨-, htarget, hcoef, hinc, -⟩ := h.fits
  obtain ⟨⟨hlen, hstages⟩, hout⟩ := expStages_ok e ch.coef 0 ch.stage ch.target htarget
  exact { h with
    stages := hlen.trans h.stages
    fits := ⟨hout, htarget, hcoef, hinc, hstages⟩ }

/-- R165. -/
theorem PsChannelOk.step {e : Fp} {alg : PsAlg} {order : Nat} {ch : PsChannel}
    (h : PsChannelOk e.fmt alg order ch) : PsChannelOk e.fmt alg order (psStep e alg ch) := by
  cases alg with
  | none =>
    obtain ⟨-, htarget, hrest⟩ := h.fits
    exact { h with fits := ⟨htarget, htarget, hrest⟩ }
  | exp => exact h.stepExp
  | linear => exact h.stepLinear

theorem psInv_channels {p : Params} {u : PsUnit} (h : PsInv p u) :
    ∀ ch ∈ u.chans, PsChannelOk p.fmt u.alg u.order ch := by
  intro ch hc
  obtain ⟨hdur, hramp⟩ := h.ramp ch hc
  exact ⟨⟨h.stages ch hc, hdur, h.coefficient ch hc, h.fits ch hc⟩, hramp⟩

theorem psInv_of_channels {p : Params} {u : PsUnit} (hprep : u.prepared = true)
    (hcounts : (1 ≤ u.nch ∧ u.nch ≤ p.maxChannels) ∧ positiveFinite p.fmt u.fs = true)
    (horder : (u.alg = .exp → 1 ≤ u.order ∧ u.order ≤ 8) ∧ (u.alg ≠ .exp → u.order = 0)) (hrate : Fits p.fmt u.fs)
    (hlen : u.chans.length = u.nch) (hl : ∀ ch ∈ u.chans, PsChannelOk p.fmt u.alg u.order ch) : PsInv p u where
  idle := by simp [hprep]
  counts := fun _ => hcounts
  order := horder
  rate := hrate
  channelCount := hlen
  stages := fun ch hc => (hl ch hc).stages
  ramp := fun ch hc => ⟨(hl ch hc).duration, (hl ch hc).ramp⟩
  coefficient := fun ch hc => (hl ch hc).coefficient
  fits := fun ch hc => (hl ch hc).fits

theorem psInv_setChannels {p : Params} {u : PsUnit} {l : List PsChannel} (h : PsInv p u) (hprep : u.prepared = true)
    (hlen : l.length = u.chans.length) (hl : ∀ ch ∈ l, PsChannelOk p.fmt u.alg u.order ch) :
    PsInv p { u with chans := l } :=
  psInv_of_channels hprep (h.counts hprep) h.order h.rate (hlen.trans h.channelCount) hl

/-! ### The envelope follower (R44) -/

structure EfChannelOk (f : Format) (ch : EfChannel) : Prop where
  coefficients : UnitRange f ch.att ∧ UnitRange f ch.rel
  fits : Fits f ch.env ∧ Fits f ch.att ∧ Fits f ch.rel

theorem efFresh_ok (f : Format) : EfChannelOk f (efFresh f) :=
  ⟨⟨unitRange_zero f, unitRange_zero f⟩, fits_zeroOf .., fits_zeroOf .., fits_zeroOf ..⟩

theorem EfChannelOk.setEnv {f : Format} {ch : EfChannel} {v : Sample} (h : EfChannelOk f ch) (hv : Fits f v) :
    EfChannelOk f { ch with env := v } :=
  ⟨h.coefficients, hv, h.fits.2⟩

theorem EfChannelOk.setAttack {f : Format} {ch : EfChannel} {v : Sample} (h : EfChannelOk f ch) (hv : Fits f v)
    (hr : UnitRange f v) : EfChannelOk f { ch with att := v } := by
  obtain ⟨henv, -, hrel⟩ := h.fits
  exact ⟨⟨hr, h.coefficients.2⟩, henv, hv, hrel⟩

theorem EfChannelOk.setRelease {f : Format} {ch : EfChannel} {v : Sample} (h : EfChannelOk f ch) (hv : Fits f v)
    (hr : UnitRange f v) : EfChannelOk f { ch with rel := v } := by
  obtain ⟨henv, hatt, -⟩ := h.fits
  exact ⟨⟨h.coefficients.1, hr⟩, henv, hatt, hv⟩

theorem efSeed_fits (e : Fp) (v : Sample) (variant : EfVariant) (hv : Fits e.fmt v) :
    Fits e.fmt (efSeed e v variant) := by
  cases variant with
  | peak => exact hv
  | rms => exact fits_fmul e v v

theorem efLevel_fits (e : Fp) (env : Sample) (variant : EfVariant) (henv : Fits e.fmt env) :
    Fits e.fmt (efLevel e env variant) := by
  cases variant with
  | peak => exact henv
  | rms => exact fits_fsqrt (e.site 2) env

theorem efInv_channels {p : Params} {u : EfUnit} (h : EfInv p u) : ∀ ch ∈ u.chans, EfChannelOk p.fmt ch :=
  fun ch hc => ⟨h.coefficients ch hc, h.fits ch hc⟩

theorem efInv_of_channels {p : Params} {u : EfUnit} (hprep : u.prepared = true)
    (hcounts : (1 ≤ u.nch ∧ u.nch ≤ p.maxChannels) ∧ positiveFinite p.fmt u.fs = true) (hrate : Fits p.fmt u.fs)
    (hlen : u.chans.length = u.nch) (hl : ∀ ch ∈ u.chans, EfChannelOk p.fmt ch) : EfInv p u where
  idle := by simp [hprep]
  counts := fun _ => hcounts
  rate := hrate
  channelCount := hlen
  coefficients := fun ch hc => (hl ch hc).coefficients
  fits := fun ch hc => (hl ch hc).fits

theorem efInv_setChannels {p : Params} {u : EfUnit} {l : List EfChannel} (h : EfInv p u) (hprep : u.prepared = true)
    (hlen : l.length = u.chans.length) (hl : ∀ ch ∈ l, EfChannelOk p.fmt ch) : EfInv p { u with chans := l } :=
  efInv_of_channels hprep (h.counts hprep) h.rate (hlen.trans h.channelCount) hl

/-! ### The gain smoother (R46) -/

structure GsChannelOk (f : Format) (ch : GsChannel) : Prop where
  coefficients : UnitRange f ch.att ∧ UnitRange f ch.rel
  fits : Fits f ch.g ∧ Fits f ch.att ∧ Fits f ch.rel

theorem gsFresh_ok (f : Format) : GsChannelOk f (gsFresh f) :=
  ⟨⟨unitRange_zero f, unitRange_zero f⟩, fits_zeroOf .., fits_zeroOf .., fits_zeroOf ..⟩

theorem GsChannelOk.setGain {f : Format} {ch : GsChannel} {v : Sample} (h : GsChannelOk f ch) (hv : Fits f v) :
    GsChannelOk f { ch with g := v } :=
  ⟨h.coefficients, hv, h.fits.2⟩

theorem GsChannelOk.setAttack {f : Format} {ch : GsChannel} {v : Sample} (h : GsChannelOk f ch) (hv : Fits f v)
    (hr : UnitRange f v) : GsChannelOk f { ch with att := v } := by
  obtain ⟨hg, -, hrel⟩ := h.fits
  exact ⟨⟨hr, h.coefficients.2⟩, hg, hv, hrel⟩

theorem GsChannelOk.setRelease {f : Format} {ch : GsChannel} {v : Sample} (h : GsChannelOk f ch) (hv : Fits f v)
    (hr : UnitRange f v) : GsChannelOk f { ch with rel := v } := by
  obtain ⟨hg, hatt, -⟩ := h.fits
  exact ⟨⟨h.coefficients.1, hr⟩, hg, hatt, hv⟩

theorem gsInv_channels {p : Params} {u : GsUnit} (h : GsInv p u) : ∀ ch ∈ u.chans, GsChannelOk p.fmt ch :=
  fun ch hc => ⟨h.coefficients ch hc, h.fits ch hc⟩

theorem gsInv_of_channels {p : Params} {u : GsUnit} (hprep : u.prepared = true)
    (hcounts : (1 ≤ u.nch ∧ u.nch ≤ p.maxChannels) ∧ positiveFinite p.fmt u.fs = true) (hrate : Fits p.fmt u.fs)
    (hlen : u.chans.length = u.nch) (hl : ∀ ch ∈ u.chans, GsChannelOk p.fmt ch) : GsInv p u where
  idle := by simp [hprep]
  counts := fun _ => hcounts
  rate := hrate
  channelCount := hlen
  coefficients := fun ch hc => (hl ch hc).coefficients
  fits := fun ch hc => (hl ch hc).fits

theorem gsInv_setChannels {p : Params} {u : GsUnit} {l : List GsChannel} (h : GsInv p u) (hprep : u.prepared = true)
    (hlen : l.length = u.chans.length) (hl : ∀ ch ∈ l, GsChannelOk p.fmt ch) : GsInv p { u with chans := l } :=
  gsInv_of_channels hprep (h.counts hprep) h.rate (hlen.trans h.channelCount) hl

/-! ### The gain computer (R45) -/

theorem one_le_one (f : Format) : fle f (ofInteger f 1) (ofInteger f 1) = true := by cases f <;> decide +kernel

theorem zero_le_zero (f : Format) : fle f (zeroOf f false) (zeroOf f false) = true := by cases f <;> decide +kernel

/-- R292. -/
theorem one_le_clampRatio (f : Format) (v : Sample) : fle f (ofInteger f 1) (clampRatio f v) = true := by
  unfold clampRatio
  split
  · assumption
  · exact one_le_one f

theorem fits_clampRatio {f : Format} {v : Sample} (hv : Fits f v) : Fits f (clampRatio f v) := by
  unfold clampRatio
  split
  · exact hv
  · exact fits_ofInteger ..

theorem fle_of_flt (f : Format) (x y : Sample) (h : flt f x y = true) : fle f x y = true := by
  simp only [flt, fle, Bool.and_eq_true, decide_eq_true_eq] at h ⊢
  exact ⟨h.1, h.2.le⟩

/-- R293. -/
theorem zero_le_clampKnee (f : Format) (v : Sample) : fle f (zeroOf f false) (clampKnee f v) = true := by
  unfold clampKnee
  split
  · next h => exact fle_of_flt f _ v h
  · exact zero_le_zero f

theorem fits_clampKnee {f : Format} {v : Sample} (hv : Fits f v) : Fits f (clampKnee f v) := by
  unfold clampKnee
  split
  · exact hv
  · exact fits_zeroOf ..

/-- R294: the gain change is a sample, in each of its three regions. -/
theorem gainChange_fits (e : Fp) (u : GcUnit) (ldb : Sample) : Fits e.fmt (gainChange e u ldb) := by
  unfold gainChange
  dsimp only
  split
  · exact fits_zeroOf ..
  · split
    · exact fits_fmul (e.site 7) _ _
    · exact fits_fdiv (e.site 14) _ _

end Sys2Proof.Proofs
end

