-- ==== Sys2Proof/Proofs/Invariant.lean ====
section
/-! PROOF. Every step keeps the invariant (O7): one rule per update of the state, then the commands unit by unit, then
the events of the port. -/

namespace Sys2Proof.Proofs

open Sys2Proof.Machine

/-! ### The invariant under the updates of the state -/

theorem fits_of_lt (f : Format) {n : Nat} (hn : n < 2 ^ 32) : Fits f (BitVec.ofNat 64 n) := by
  cases f <;> simp only [Fits, Format.signPos, BitVec.toNat_ofNat] <;> omega

theorem errNumber_range (e : ErrCode) : 1 ≤ (errNumber e).toNat ∧ (errNumber e).toNat ≤ 0x0B := by
  cases e <;> decide

section
variable {s : State} (h : Machine.Inv s)
include h

theorem inv_setFo {u : FoUnit} (hu : FoInv s.params u) : Machine.Inv { s with fo := u } := { h with fo := hu }

theorem inv_setBq {u : BqUnit} (hu : BqInv s.params u) : Machine.Inv { s with bq := u } := { h with bq := hu }

theorem inv_setPs {u : PsUnit} (hu : PsInv s.params u) : Machine.Inv { s with ps := u } := { h with ps := hu }

theorem inv_setEf {u : EfUnit} (hu : EfInv s.params u) : Machine.Inv { s with ef := u } := { h with ef := hu }

theorem inv_setGc {u : GcUnit} (hu : GcInv s.params u) : Machine.Inv { s with gc := u } := { h with gc := hu }

theorem inv_setGs {u : GsUnit} (hu : GsInv s.params u) : Machine.Inv { s with gs := u } := { h with gs := hu }

theorem inv_drawn : Machine.Inv s.drawn := { h with }

theorem inv_setRes {k : Fin 5} {v : Sample} (hv : Fits s.params.fmt v) : Machine.Inv (s.setRes k v) := by
  refine { h with results := fun j => ?_ }
  by_cases hj : j = k
  · subst hj
    simpa using hv
  · simpa [hj] using h.results j

/-- R35: an integer result of 32 bits fits either format. -/
theorem inv_setResInt {k : Fin 5} {n : Nat} (hn : n < 2 ^ 32) : Machine.Inv (s.setResInt k n) :=
  inv_setRes h (fits_of_lt _ hn)

/-- R332, R335. -/
theorem inv_errorProc (e : ErrCode) (w : Word) : Machine.Inv (errorProc e w s) := by
  cases herr : s.err with
  | true => rwa [errorProc_of_err e w s herr]
  | false =>
    rw [errorProc_of_no_err e w s herr]
    exact { h with noRecord := nofun, record := fun _ => errNumber_range e }

theorem inv_errClear : Machine.Inv (errClear s) := { h with noRecord := fun _ => ⟨rfl, rfl⟩, record := nofun }

theorem inv_acceptCommand (w : Word) : Machine.Inv (acceptCommand w s) := { h with }

theorem inv_writeReg (v : Word) (o : Nat) : Machine.Inv (writeReg s v o) := by
  obtain ⟨-, hw⟩ | ⟨k, -, hw⟩ | ⟨k, -, hw⟩ | hw := writeReg_cases s v o
  all_goals rw [hw]; exact { h with }

end

theorem gcInv_reset (p : Params) : GcInv p (State.resetWith p).gc :=
  ⟨one_le_one p.fmt, zero_le_zero p.fmt, fits_zeroOf .., fits_ofInteger .., fits_zeroOf ..⟩

/-- R360: hardware reset leaves no element of an array in existence, no error, and the neutral gain computer. -/
theorem inv_resetWith {p : Params} (h : ValidParams p) : Machine.Inv (State.resetWith p) where
  params := h
  noRecord := fun _ => ⟨rfl, rfl⟩
  record := nofun
  results := fun k => by simp [State.resetWith, Fits]
  fo := ⟨fun _ => rfl, nofun, rfl, nofun, nofun⟩
  bq := ⟨fun _ => rfl, nofun, rfl, nofun, nofun, nofun⟩
  ps := ⟨fun _ => rfl, nofun, ⟨nofun, fun _ => rfl⟩, fits_zeroOf .., rfl, nofun, nofun, nofun, nofun⟩
  ef := ⟨fun _ => rfl, nofun, fits_zeroOf .., rfl, nofun, nofun⟩
  gc := gcInv_reset p
  gs := ⟨fun _ => rfl, nofun, fits_zeroOf .., rfl, nofun, nofun⟩

theorem inv_hardReset {s : State} (h : ValidParams s.params) : Machine.Inv (hardReset s) := { inv_resetWith h with }

theorem fits_operand (s : State) (k : Fin 5) : Fits s.params.fmt (s.operand k) := fits_canon ..

theorem fits_seedValue (s : State) (seeded : Bool) : Fits s.params.fmt (seedValue seeded s) := by
  cases seeded with
  | false => exact fits_zeroOf ..
  | true => exact fits_operand s 0

/-! ### Commands that keep the invariant -/

/-- From a state that satisfies the invariant, an answer leaves one that does. -/
def KeepsInv (run : State → Result) : Prop := ∀ s t, Machine.Inv s → run s = .next t → Machine.Inv t

/-- A command whose effect keeps the invariant keeps it. -/
theorem conclude_inv {s t : State} {x : Except ErrCode State} (h : Machine.Inv s) (hx : Ensures Machine.Inv x) :
    conclude s x = .next t → Machine.Inv t :=
  conclude_ensures hx fun e => inv_errorProc h e s.cmd

/-! ### The first-order filter -/

theorem execFoPrepare_keepsInv (n m : Nat) : KeepsInv (execFoPrepare n m) := fun _ _ h =>
  conclude_inv h <| ensures_count fun hn => ensures_count fun hm => ensures_ok <| inv_setFo h <|
    foInv_of_chains rfl ⟨hn, hm⟩ List.length_replicate
      (List.forall_mem_replicate.2 (.inr (chainOk_replicate m (foFresh_ok _))))

theorem execFoReset_keepsInv (sel : ChanSel) : KeepsInv (execFoReset sel) := fun _ _ h =>
  conclude_inv h <| ensures_prepared fun hp => ensures_bind fun _ => ensures_ok <| inv_setFo h <|
    foInv_setSections h.fo hp (length_onChannels ..) (forall_mem_onChannels (foInv_chains h.fo) fun _ _ => foClear_ok)

theorem execFoSetcoef_keepsInv (sel : ChanSel) (sec : Nat) : KeepsInv (execFoSetcoef sel sec) := fun s _ h =>
  conclude_inv h <| ensures_prepared fun hp => ensures_bind fun _ => ensures_bind fun _ => ensures_ok <| inv_setFo h <|
    foInv_setSections h.fo hp (length_onChannels ..) <| forall_mem_onChannels (foInv_chains h.fo) fun _ _ hchain =>
      hchain.modify sec fun _ ⟨_, _, _, hdelays⟩ => ⟨fits_operand s 0, fits_operand s 1, fits_operand s 2, hdelays⟩

theorem execFoProcess_keepsInv (c : Nat) : KeepsInv (execFoProcess c) := fun s _ h =>
  conclude_inv h <| ensures_prepared fun hp => ensures_channel fun hc => by
    obtain ⟨hlen, hall⟩ := foInv_chains h.fo _ (getD_mem [] (h.fo.channelCount.symm ▸ hc))
    obtain ⟨hout, hchain⟩ := foChain_ok s.fp 0 _ _ hall (fits_operand s 0)
    exact ensures_ok <| inv_drawn <| inv_setRes (inv_setFo h <| foInv_setSections h.fo hp List.length_set <|
      forall_mem_set c (foInv_chains h.fo) (hlen ▸ hchain)) hout

theorem execFoDesign_keepsInv (type : FoType) : KeepsInv (execFoDesign type) := fun s _ h => by
  obtain ⟨hb0, hb1, ha1⟩ := foDesignOf_fits s.fp (s.operand 0) (s.operand 1) type
  have heffect := inv_drawn (inv_setRes (k := 2) (inv_setRes (k := 1) (inv_setRes (k := 0) h hb0) hb1) ha1)
  refine conclude_inv h (ensures_bind fun _ => ?_)
  split
  · exact ensures_bind fun _ => ensures_ok heffect
  · exact ensures_ok heffect

/-- The section a readback shows is one of the unit's. -/
theorem foSection_ok {s : State} {c sec : Nat} (h : Machine.Inv s) (hc : c < s.fo.nch) (hsec : sec < s.fo.nsec) :
    FoSectionOk s.params.fmt ((elemAt s.fo.sections c sec).getD default) :=
  elemAt_getD_of_forall (foInv_chains h.fo) (h.fo.channelCount.symm ▸ hc) hsec

theorem execFoReadcoef_keepsInv (c sec : Nat) : KeepsInv (execFoReadcoef c sec) := fun _ _ h =>
  conclude_inv h <| ensures_prepared fun _ => ensures_channel fun hc => ensures_section fun hsec => by
    obtain ⟨hb0, hb1, ha1, -⟩ := foSection_ok h hc hsec
    exact ensures_ok (inv_setRes (inv_setRes (inv_setRes h hb0) hb1) ha1)

theorem execFoReadstate_keepsInv (c sec : Nat) : KeepsInv (execFoReadstate c sec) := fun _ _ h =>
  conclude_inv h <| ensures_prepared fun _ => ensures_channel fun hc => ensures_section fun hsec => by
    obtain ⟨-, -, -, hxp, hyp⟩ := foSection_ok h hc hsec
    exact ensures_ok (inv_setRes (inv_setRes h hxp) hyp)

/-! ### The biquad filter -/

theorem execBqPrepare_keepsInv (n m : Nat) : KeepsInv (execBqPrepare n m) := fun _ _ h =>
  conclude_inv h <| ensures_count fun hn => ensures_count fun hm => ensures_ok <| inv_setBq h <|
    bqInv_of_chains rfl ⟨hn, hm⟩ List.length_replicate
      (List.forall_mem_replicate.2 (.inr (chainOk_replicate m (bqFresh_ok _))))

theorem execBqReset_keepsInv (sel : ChanSel) : KeepsInv (execBqReset sel) := fun _ _ h =>
  conclude_inv h <| ensures_prepared fun hp => ensures_bind fun _ => ensures_ok <| inv_setBq h <|
    bqInv_setSections h.bq hp (length_onChannels ..) (forall_mem_onChannels (bqInv_chains h.bq) fun _ _ => bqClear_ok)

/-- R233 to R236: the setters, whose new value is legal. -/
theorem inv_bqSetParam {s : State} {cs : List Nat} {sec : Nat} {upd : BqSection → BqSection} (h : Machine.Inv s)
    (hp : s.bq.prepared = true) (hupd : ∀ σ, BqSectionOk s.params.fmt σ → BqSectionOk s.params.fmt (upd σ)) :
    Machine.Inv (bqSetParam cs sec upd s) :=
  inv_drawn <| inv_setBq h <| bqInv_setSections h.bq hp (length_onChannels ..) <|
    forall_mem_onChannels (bqInv_chains h.bq) fun c _ hchain => hchain.modify sec fun σ hσ =>
      BqSectionOk.recompute (e := s.fp.site c) (hupd σ hσ)

theorem execBqSettype_keepsInv (sel : ChanSel) (sec : Nat) (type : BqType) : KeepsInv (execBqSettype sel sec type) :=
  fun _ _ h => conclude_inv h <| ensures_prepared fun hp => ensures_bind fun _ => ensures_bind fun _ =>
    ensures_ok <| inv_bqSetParam h hp fun _ hσ => { hσ with }

theorem execBqSetfreq_keepsInv (sel : ChanSel) (sec : Nat) : KeepsInv (execBqSetfreq sel sec) := fun s _ h =>
  conclude_inv h <| ensures_prepared fun hp => ensures_bind fun _ => ensures_bind fun _ => ensures_check fun _ hv =>
    ensures_ok <| inv_bqSetParam h hp fun _ hσ =>
      { hσ with
        parameters := ⟨(checkFreq_ok ..).1 hv, hσ.parameters.2⟩
        parametersFit := ⟨fits_operand s 0, hσ.parametersFit.2⟩ }

theorem execBqSetq_keepsInv (sel : ChanSel) (sec : Nat) : KeepsInv (execBqSetq sel sec) := fun s _ h =>
  conclude_inv h <| ensures_prepared fun hp => ensures_bind fun _ => ensures_bind fun _ => ensures_check fun _ hv =>
    ensures_ok <| inv_bqSetParam h hp fun _ hσ => by
      obtain ⟨hfreq, -, hgain⟩ := hσ.parameters
      obtain ⟨hfreqFits, -, hgainFits⟩ := hσ.parametersFit
      exact { hσ with
        parameters := ⟨hfreq, (checkQ_ok ..).1 hv, hgain⟩
        parametersFit := ⟨hfreqFits, fits_operand s 0, hgainFits⟩ }

theorem execBqSetgain_keepsInv (sel : ChanSel) (sec : Nat) : KeepsInv (execBqSetgain sel sec) := fun s _ h =>
  conclude_inv h <| ensures_prepared fun hp => ensures_bind fun _ => ensures_bind fun _ => ensures_check fun _ hv =>
    ensures_ok <| inv_bqSetParam h hp fun _ hσ => by
      obtain ⟨hfreq, hq, -⟩ := hσ.parameters
      obtain ⟨hfreqFits, hqFits, -⟩ := hσ.parametersFit
      exact { hσ with
        parameters := ⟨hfreq, hq, (checkGainDb_ok ..).1 hv⟩
        parametersFit := ⟨hfreqFits, hqFits, fits_operand s 0⟩ }

theorem execBqSetcoef_keepsInv (sel : ChanSel) (sec : Nat) : KeepsInv (execBqSetcoef sel sec) := fun s _ h =>
  conclude_inv h <| ensures_prepared fun hp => ensures_bind fun _ => ensures_bind fun _ => ensures_ok <| inv_setBq h <|
    bqInv_setSections h.bq hp (length_onChannels ..) <| forall_mem_onChannels (bqInv_chains h.bq) fun _ _ hchain =>
      hchain.modify sec fun _ hσ =>
        { hσ with coefficientsFit := ⟨fits_operand s 0, fits_operand s 1, fits_operand s 2, fits_operand s 3,
            fits_operand s 4⟩ }

theorem execBqProcess_keepsInv (c : Nat) : KeepsInv (execBqProcess c) := fun s _ h =>
  conclude_inv h <| ensures_prepared fun hp => ensures_channel fun hc => by
    obtain ⟨hlen, hall⟩ := bqInv_chains h.bq _ (getD_mem [] (h.bq.channelCount.symm ▸ hc))
    obtain ⟨hout, hchain⟩ := bqChain_ok s.fp 0 _ _ hall (fits_operand s 0)
    exact ensures_ok <| inv_drawn <| inv_setRes (inv_setBq h <| bqInv_setSections h.bq hp List.length_set <|
      forall_mem_set c (bqInv_chains h.bq) (hlen ▸ hchain)) hout

theorem bqSection_ok {s : State} {c sec : Nat} (h : Machine.Inv s) (hc : c < s.bq.nch) (hsec : sec < s.bq.nsec) :
    BqSectionOk s.params.fmt ((elemAt s.bq.sections c sec).getD default) :=
  elemAt_getD_of_forall (bqInv_chains h.bq) (h.bq.channelCount.symm ▸ hc) hsec

theorem execBqReadcoef_keepsInv (c sec : Nat) : KeepsInv (execBqReadcoef c sec) := fun _ _ h =>
  conclude_inv h <| ensures_prepared fun _ => ensures_channel fun hc => ensures_section fun hsec => by
    obtain ⟨hb0, hb1, hb2, ha1, ha2⟩ := (bqSection_ok h hc hsec).coefficientsFit
    exact ensures_ok (inv_setRes (inv_setRes (inv_setRes (inv_setRes (inv_setRes h hb0) hb1) hb2) ha1) ha2)

theorem execBqReadstate_keepsInv (c sec : Nat) : KeepsInv (execBqReadstate c sec) := fun _ _ h =>
  conclude_inv h <| ensures_prepared fun _ => ensures_channel fun hc => ensures_section fun hsec => by
    obtain ⟨hx1, hx2, hy1, hy2⟩ := (bqSection_ok h hc hsec).delaysFit
    exact ensures_ok (inv_setRes (inv_setRes (inv_setRes (inv_setRes h hx1) hx2) hy1) hy2)

theorem bqTypeNumber_lt (type : BqType) : bqTypeNumber type < 2 ^ 32 := by cases type <;> decide

theorem execBqReadparam_keepsInv (c sec : Nat) : KeepsInv (execBqReadparam c sec) := fun _ _ h =>
  conclude_inv h <| ensures_prepared fun _ => ensures_channel fun hc => ensures_section fun hsec => by
    obtain ⟨hfreq, hq, hgain⟩ := (bqSection_ok h hc hsec).parametersFit
    exact ensures_ok (inv_setRes (inv_setRes (inv_setRes (inv_setResInt h (bqTypeNumber_lt _)) hfreq) hq) hgain)

/-! ### The parameter smoother -/

/-- R103, R161. -/
theorem checkOrder_range {alg : PsAlg} {m : Nat} {u : Unit} (h : checkOrder alg m = .ok u) :
    (alg = .exp → 1 ≤ m ∧ m ≤ 8) ∧ (alg ≠ .exp → m = 0) := by
  cases alg <;> simp [checkOrder, Config.psMaxOrder] at h ⊢ <;> omega

theorem execPsPrepare_keepsInv (n m : Nat) (alg : PsAlg) : KeepsInv (execPsPrepare n m alg) := fun s _ h =>
  conclude_inv h <| ensures_count fun hn => ensures_check fun _ hm => ensures_rate fun hfs => ensures_ok <|
    inv_setPs h <| psInv_of_channels rfl ⟨hn, hfs⟩ (checkOrder_range hm) (fits_operand s 0) List.length_replicate
      (List.forall_mem_replicate.2 (.inr (psFresh_ok _ alg m)))

theorem execPsReset_keepsInv (sel : ChanSel) (seeded : Bool) : KeepsInv (execPsReset sel seeded) := fun s _ h =>
  conclude_inv h <| ensures_prepared fun hp => ensures_bind fun _ => ensures_ok <| inv_setPs h <|
    psInv_setChannels h.ps hp (length_onChannels ..) <| forall_mem_onChannels (psInv_channels h.ps) fun _ _ hch =>
      hch.seed (fits_seedValue s seeded)

theorem execPsSettime_keepsInv (sel : ChanSel) : KeepsInv (execPsSettime sel) := fun s _ h =>
  conclude_inv h <| ensures_prepared fun hp => ensures_bind fun _ => ensures_ok <| inv_drawn <| inv_setPs h <|
    psInv_setChannels h.ps hp (length_onChannels ..) <| forall_mem_onChannels (psInv_channels h.ps) fun c _ hch =>
      PsChannelOk.applyTime (e := s.fp.site c) hch (s.operand 0) (h.ps.counts hp).2

theorem execPsSettarget_keepsInv (sel : ChanSel) : KeepsInv (execPsSettarget sel) := fun s _ h =>
  conclude_inv h <| ensures_prepared fun hp => ensures_bind fun _ => ensures_ok <| inv_drawn <| inv_setPs h <|
    psInv_setChannels h.ps hp (length_onChannels ..) <| forall_mem_onChannels (psInv_channels h.ps) fun c _ hch =>
      PsChannelOk.applyTarget (e := s.fp.site c) hch (fits_operand s 0)

/-- A channel below the count exists. -/
theorem psChannel_ok {s : State} {c : Nat} (h : Machine.Inv s) (hc : c < s.ps.nch) :
    PsChannelOk s.params.fmt s.ps.alg s.ps.order (s.ps.chans.getD c default) :=
  psInv_channels h.ps _ (getD_mem default (h.ps.channelCount.symm ▸ hc))

theorem execPsNext_keepsInv (c : Nat) : KeepsInv (execPsNext c) := fun s _ h =>
  conclude_inv h <| ensures_prepared fun hp => ensures_channel fun hc => by
    have hstep := PsChannelOk.step (e := s.fp) (psChannel_ok h hc)
    exact ensures_ok <| inv_drawn <| inv_setRes (inv_setPs h <| psInv_setChannels h.ps hp List.length_set <|
      forall_mem_set c (psInv_channels h.ps) hstep) hstep.fits.1

theorem execPsRead_keepsInv (c : Nat) : KeepsInv (execPsRead c) := fun _ _ h =>
  conclude_inv h <| ensures_prepared fun _ => ensures_channel fun hc => by
    have hch := psChannel_ok h hc
    obtain ⟨hcur, htarget, hcoef, hinc, -⟩ := hch.fits
    have hremaining := (hch.ramp.1.trans hch.duration).trans_lt (show Config.linearMaxSamples < 2 ^ 32 by decide)
    exact ensures_ok (inv_setRes (inv_setResInt (inv_setRes (inv_setRes (inv_setRes h hcur) htarget) hcoef)
      hremaining) hinc)

theorem execPsReadstage_keepsInv (c k : Nat) : KeepsInv (execPsReadstage c k) := fun _ _ h =>
  conclude_inv h <| ensures_prepared fun _ => ensures_channel fun hc => ensures_section fun hk => by
    have hch := psChannel_ok h hc
    obtain ⟨-, -, -, -, hstages⟩ := hch.fits
    exact ensures_ok (inv_setRes h (hstages _ (getD_mem _ (hch.stages.symm ▸ hk))))

/-! ### The envelope follower -/

theorem execEfPrepare_keepsInv (n : Nat) (variant : EfVariant) : KeepsInv (execEfPrepare n variant) := fun s _ h =>
  conclude_inv h <| ensures_count fun hn => ensures_rate fun hfs => ensures_ok <| inv_setEf h <|
    efInv_of_channels rfl ⟨hn, hfs⟩ (fits_operand s 0) List.length_replicate
      (List.forall_mem_replicate.2 (.inr (efFresh_ok _)))

theorem execEfReset_keepsInv (sel : ChanSel) (seeded : Bool) : KeepsInv (execEfReset sel seeded) := fun s _ h =>
  conclude_inv h <| ensures_prepared fun hp => ensures_bind fun _ => ensures_ok <| inv_drawn <| inv_setEf h <|
    efInv_setChannels h.ef hp (length_onChannels ..) <| forall_mem_onChannels (efInv_channels h.ef) fun c _ hch =>
      hch.setEnv (efSeed_fits (s.fp.site c) _ _ (fits_seedValue s seeded))

theorem execEfSetattack_keepsInv (sel : ChanSel) (mode : TimeMode) : KeepsInv (execEfSetattack sel mode) := fun s _ h =>
  conclude_inv h <| ensures_prepared fun hp => ensures_bind fun _ => ensures_ok <| inv_drawn <| inv_setEf h <|
    efInv_setChannels h.ef hp (length_onChannels ..) <| forall_mem_onChannels (efInv_channels h.ef) fun c _ hch =>
      hch.setAttack (fits_timeCoeff (s.fp.site c) _ _) (unitRange_timeCoeff (s.fp.site c) _ _ (h.ef.counts hp).2)

theorem execEfSetrelease_keepsInv (sel : ChanSel) (mode : TimeMode) : KeepsInv (execEfSetrelease sel mode) :=
  fun s _ h => conclude_inv h <| ensures_prepared fun hp => ensures_bind fun _ => ensures_ok <| inv_drawn <|
    inv_setEf h <| efInv_setChannels h.ef hp (length_onChannels ..) <|
      forall_mem_onChannels (efInv_channels h.ef) fun c _ hch =>
        hch.setRelease (fits_timeCoeff (s.fp.site c) _ _) (unitRange_timeCoeff (s.fp.site c) _ _ (h.ef.counts hp).2)

theorem efChannel_ok {s : State} {c : Nat} (h : Machine.Inv s) (hc : c < s.ef.nch) :
    EfChannelOk s.params.fmt (s.ef.chans.getD c default) :=
  efInv_channels h.ef _ (getD_mem default (h.ef.channelCount.symm ▸ hc))

theorem execEfProcess_keepsInv (c : Nat) : KeepsInv (execEfProcess c) := fun s _ h =>
  conclude_inv h <| ensures_prepared fun hp => ensures_channel fun hc => by
    have henv := fits_fadd ((s.fp.site 1).site 2)
    exact ensures_ok <| inv_drawn <| inv_setRes (inv_setEf h <| efInv_setChannels h.ef hp List.length_set <|
      forall_mem_set c (efInv_channels h.ef) ((efChannel_ok h hc).setEnv (henv _ _))) (efLevel_fits s.fp _ _ (henv _ _))

theorem execEfRead_keepsInv (c : Nat) : KeepsInv (execEfRead c) := fun s _ h =>
  conclude_inv h <| ensures_prepared fun _ => ensures_channel fun hc => by
    obtain ⟨henv, hatt, hrel⟩ := (efChannel_ok h hc).fits
    exact ensures_ok <| inv_drawn <|
      inv_setRes (inv_setRes (inv_setRes (inv_setRes h henv) hatt) hrel) (efLevel_fits s.fp _ _ henv)

/-! ### The gain computer: no command of it fails -/

theorem execGcSetthresh_keepsInv : KeepsInv execGcSetthresh := by
  rintro s _ h ⟨⟩
  exact inv_setGc h { h.gc with fits := ⟨fits_operand s 0, h.gc.fits.2⟩ }

theorem execGcSetratio_keepsInv : KeepsInv execGcSetratio := by
  rintro s _ h ⟨⟩
  obtain ⟨hthr, -, hknee⟩ := h.gc.fits
  exact inv_setGc h
    { h.gc with
      ratio := one_le_clampRatio ..
      fits := ⟨hthr, fits_clampRatio (fits_operand s 0), hknee⟩ }

theorem execGcSetknee_keepsInv : KeepsInv execGcSetknee := by
  rintro s _ h ⟨⟩
  obtain ⟨hthr, hratio, -⟩ := h.gc.fits
  exact inv_setGc h
    { h.gc with
      knee := zero_le_clampKnee ..
      fits := ⟨hthr, hratio, fits_clampKnee (fits_operand s 0)⟩ }

theorem execGcCompute_keepsInv : KeepsInv execGcCompute := by
  rintro s _ h ⟨⟩
  exact inv_drawn (inv_setRes (inv_setRes h (gainChange_fits (s.fp.site 1) _ _)) (fits_fmul ((s.fp.site 0).site 1) _ _))

theorem execGcRead_keepsInv : KeepsInv execGcRead := by
  rintro s _ h ⟨⟩
  obtain ⟨hthr, hratio, hknee⟩ := h.gc.fits
  exact inv_setRes (inv_setRes (inv_setRes h hthr) hratio) hknee

/-! ### The gain smoother -/

theorem execGsPrepare_keepsInv (n : Nat) : KeepsInv (execGsPrepare n) := fun s _ h =>
  conclude_inv h <| ensures_count fun hn => ensures_rate fun hfs => ensures_ok <| inv_setGs h <|
    gsInv_of_channels rfl ⟨hn, hfs⟩ (fits_operand s 0) List.length_replicate
      (List.forall_mem_replicate.2 (.inr (gsFresh_ok _)))

theorem execGsReset_keepsInv (sel : ChanSel) (seeded : Bool) : KeepsInv (execGsReset sel seeded) := fun s _ h =>
  conclude_inv h <| ensures_prepared fun hp => ensures_bind fun _ => ensures_ok <| inv_setGs h <|
    gsInv_setChannels h.gs hp (length_onChannels ..) <| forall_mem_onChannels (gsInv_channels h.gs) fun _ _ hch =>
      hch.setGain (fits_seedValue s seeded)

theorem execGsSetattack_keepsInv (sel : ChanSel) : KeepsInv (execGsSetattack sel) := fun s _ h =>
  conclude_inv h <| ensures_prepared fun hp => ensures_bind fun _ => ensures_ok <| inv_drawn <| inv_setGs h <|
    gsInv_setChannels h.gs hp (length_onChannels ..) <| forall_mem_onChannels (gsInv_channels h.gs) fun c _ hch =>
      hch.setAttack (fits_timeCoeff (s.fp.site c) _ _) (unitRange_timeCoeff (s.fp.site c) _ _ (h.gs.counts hp).2)

theorem execGsSetrelease_keepsInv (sel : ChanSel) : KeepsInv (execGsSetrelease sel) := fun s _ h =>
  conclude_inv h <| ensures_prepared fun hp => ensures_bind fun _ => ensures_ok <| inv_drawn <| inv_setGs h <|
    gsInv_setChannels h.gs hp (length_onChannels ..) <| forall_mem_onChannels (gsInv_channels h.gs) fun c _ hch =>
      hch.setRelease (fits_timeCoeff (s.fp.site c) _ _) (unitRange_timeCoeff (s.fp.site c) _ _ (h.gs.counts hp).2)

theorem gsChannel_ok {s : State} {c : Nat} (h : Machine.Inv s) (hc : c < s.gs.nch) :
    GsChannelOk s.params.fmt (s.gs.chans.getD c default) :=
  gsInv_channels h.gs _ (getD_mem default (h.gs.channelCount.symm ▸ hc))

theorem execGsProcess_keepsInv (c : Nat) : KeepsInv (execGsProcess c) := fun s _ h =>
  conclude_inv h <| ensures_prepared fun hp => ensures_channel fun hc => by
    have hgain := fits_fadd (s.fp.site 2)
    exact ensures_ok <| inv_drawn <| inv_setRes (inv_setGs h <| gsInv_setChannels h.gs hp List.length_set <|
      forall_mem_set c (gsInv_channels h.gs) ((gsChannel_ok h hc).setGain (hgain _ _))) (hgain _ _)

theorem execGsRead_keepsInv (c : Nat) : KeepsInv (execGsRead c) := fun _ _ h =>
  conclude_inv h <| ensures_prepared fun _ => ensures_channel fun hc => by
    obtain ⟨hg, hatt, hrel⟩ := (gsChannel_ok h hc).fits
    exact ensures_ok (inv_setRes (inv_setRes (inv_setRes h hg) hatt) hrel)

/-! ### Every command, every event -/

theorem exec_keepsInv (i : Instr) : KeepsInv (exec i) := by
  cases i with
  | nop => rintro s _ h ⟨⟩; exact h
  | errclr => rintro s _ h ⟨⟩; exact inv_errClear h
  | foPrepare n m => exact execFoPrepare_keepsInv n m
  | foReset sel => exact execFoReset_keepsInv sel
  | foSetcoef sel sec => exact execFoSetcoef_keepsInv sel sec
  | foProcess c => exact execFoProcess_keepsInv c
  | foDesign type => exact execFoDesign_keepsInv type
  | foReadcoef c sec => exact execFoReadcoef_keepsInv c sec
  | foReadstate c sec => exact execFoReadstate_keepsInv c sec
  | bqPrepare n m => exact execBqPrepare_keepsInv n m
  | bqReset sel => exact execBqReset_keepsInv sel
  | bqSettype sel sec type => exact execBqSettype_keepsInv sel sec type
  | bqSetfreq sel sec => exact execBqSetfreq_keepsInv sel sec
  | bqSetq sel sec => exact execBqSetq_keepsInv sel sec
  | bqSetgain sel sec => exact execBqSetgain_keepsInv sel sec
  | bqSetcoef sel sec => exact execBqSetcoef_keepsInv sel sec
  | bqProcess c => exact execBqProcess_keepsInv c
  | bqReadcoef c sec => exact execBqReadcoef_keepsInv c sec
  | bqReadstate c sec => exact execBqReadstate_keepsInv c sec
  | bqReadparam c sec => exact execBqReadparam_keepsInv c sec
  | psPrepare n m alg => exact execPsPrepare_keepsInv n m alg
  | psReset sel seeded => exact execPsReset_keepsInv sel seeded
  | psSettime sel => exact execPsSettime_keepsInv sel
  | psSettarget sel => exact execPsSettarget_keepsInv sel
  | psNext c => exact execPsNext_keepsInv c
  | psRead c => exact execPsRead_keepsInv c
  | psReadstage c k => exact execPsReadstage_keepsInv c k
  | efPrepare n variant => exact execEfPrepare_keepsInv n variant
  | efReset sel seeded => exact execEfReset_keepsInv sel seeded
  | efSetattack sel mode => exact execEfSetattack_keepsInv sel mode
  | efSetrelease sel mode => exact execEfSetrelease_keepsInv sel mode
  | efProcess c => exact execEfProcess_keepsInv c
  | efRead c => exact execEfRead_keepsInv c
  | gcSetthresh => exact execGcSetthresh_keepsInv
  | gcSetratio => exact execGcSetratio_keepsInv
  | gcSetknee => exact execGcSetknee_keepsInv
  | gcCompute => exact execGcCompute_keepsInv
  | gcRead => exact execGcRead_keepsInv
  | gsPrepare n => exact execGsPrepare_keepsInv n
  | gsReset sel seeded => exact execGsReset_keepsInv sel seeded
  | gsSetattack sel => exact execGsSetattack_keepsInv sel
  | gsSetrelease sel => exact execGsSetrelease_keepsInv sel
  | gsProcess c => exact execGsProcess_keepsInv c
  | gsRead c => exact execGsRead_keepsInv c

theorem execute_keepsInv (w : Word) : KeepsInv (execute w) := by
  intro s t h ht
  obtain ⟨e, -, he⟩ | ⟨i, -, hi⟩ := execute_cases w s
  · cases he.symm.trans ht
    exact inv_errorProc h e w
  · exact exec_keepsInv i s t h (hi.symm.trans ht)

theorem handle_keepsInv (ev : HostEvent) : KeepsInv (handle ev) := by
  intro s t h ht
  cases ev with
  | read addr bytes =>
    obtain ⟨o, -, rfl⟩ := hostRead_next addr bytes s t ht
    exact { h with }
  | write addr bytes v =>
    obtain ⟨-, hx⟩ | ⟨o, -, -, rfl⟩ := hostWrite_next addr bytes v s t ht
    · exact execute_keepsInv v _ t (inv_acceptCommand h v) hx
    · exact inv_writeReg h v o
  | reset =>
    cases ht
    exact inv_hardReset h.params

/-- Settles O7: an idle step changes nothing, and every event at the port keeps the invariant. -/
theorem everyStepKeepsTheInvariant : Obligations.EveryStepKeepsTheInvariant := by
  intro s t h ht
  cases hp : s.port with
  | nil =>
    rw [step_idle s hp] at ht
    cases ht
    exact h
  | cons ev rest =>
    rw [step_event s ev rest hp] at ht
    exact handle_keepsInv ev { s with port := rest } t { h with } ht

end Sys2Proof.Proofs
end

