-- ==== Sys2Proof/Proofs/CommandFrame.lean ====
section
/-! PROOF. What every command leaves as it was: the registers of the host's side and the units that are not the
command's own (O56). -/

namespace Sys2Proof.Proofs

open Sys2Proof.Machine Sys2Proof.Claims

/-- A command of `unit` took `s` to `t`: the registers only the host's accesses change, the rest of the host's program,
what it has read, and the other units are as they were. -/
structure CommandFrame (unit : Option Unit6) (s t : State) : Prop where
  errie : t.errie = s.errie
  cmd : t.cmd = s.cmd
  cmdcnt : t.cmdcnt = s.cmdcnt
  op : t.op = s.op
  port : t.port = s.port
  readLog : t.readLog = s.readLog
  fo : unit ≠ some .fo → t.fo = s.fo
  bq : unit ≠ some .bq → t.bq = s.bq
  ps : unit ≠ some .ps → t.ps = s.ps
  ef : unit ≠ some .ef → t.ef = s.ef
  gc : unit ≠ some .gc → t.gc = s.gc
  gs : unit ≠ some .gs → t.gs = s.gs

theorem errorProc_frame (unit : Option Unit6) (e : ErrCode) (w : Word) (s : State) :
    CommandFrame unit s (errorProc e w s) := by constructor <;> simp

theorem conclude_frame {unit : Option Unit6} {s t : State} {x : Except ErrCode State} (h : conclude s x = .next t)
    (hx : Ensures (CommandFrame unit s) x) : CommandFrame unit s t :=
  conclude_ensures hx (fun e => errorProc_frame unit e s.cmd s) h

/-- FO_DESIGN belongs to no unit, and has a check that depends on the type (R195). -/
theorem execFoDesign_frame (type : FoType) (s t : State) (h : execFoDesign type s = .next t) :
    CommandFrame none s t := by
  refine conclude_frame h (ensures_bind fun _ => ?_)
  split
  · exact ensures_bind fun _ => ensures_ok (by constructor <;> simp)
  · exact ensures_ok (by constructor <;> simp)

theorem bqSetParam_frame (cs : List Nat) (sec : Nat) (upd : BqSection → BqSection) (s : State) :
    CommandFrame (some .bq) s (bqSetParam cs sec upd s) := by constructor <;> simp [bqSetParam]

/-- The cases are grouped by the number of checks before the effect. -/
theorem exec_frame (i : Instr) (s t : State) (h : exec i s = .next t) : CommandFrame (unitOf i) s t := by
  cases i with
  | nop | errclr | gcSetthresh | gcSetratio | gcSetknee | gcCompute | gcRead =>
    cases h
    constructor <;> simp [unitOf]
  | foDesign type => exact execFoDesign_frame type s t h
  | foPrepare | foReset | foProcess | bqPrepare | bqReset | bqProcess
  | psReset | psSettime | psSettarget | psNext | psRead
  | efPrepare | efReset | efSetattack | efSetrelease | efProcess | efRead
  | gsPrepare | gsReset | gsSetattack | gsSetrelease | gsProcess | gsRead =>
    exact conclude_frame h (ensures_bind fun _ => ensures_bind fun _ => ensures_ok (by constructor <;> simp [unitOf]))
  | foSetcoef | foReadcoef | foReadstate | bqSetcoef | bqReadcoef | bqReadstate | bqReadparam
  | psPrepare | psReadstage =>
    exact conclude_frame h (ensures_bind fun _ => ensures_bind fun _ => ensures_bind fun _ =>
      ensures_ok (by constructor <;> simp [unitOf]))
  | bqSettype =>
    exact conclude_frame h
      (ensures_bind fun _ => ensures_bind fun _ => ensures_bind fun _ => ensures_ok (bqSetParam_frame ..))
  | bqSetfreq | bqSetq | bqSetgain =>
    exact conclude_frame h (ensures_bind fun _ => ensures_bind fun _ => ensures_bind fun _ =>
      ensures_bind fun _ => ensures_ok (bqSetParam_frame ..))

/-- Settles O56. -/
theorem otherUnitsAreUntouched : Obligations.OtherUnitsAreUntouched := by
  intro i s t h
  have hframe := exec_frame i s t h
  exact ⟨hframe.fo, hframe.bq, hframe.ps, hframe.ef, hframe.gc, hframe.gs⟩

end Sys2Proof.Proofs
end

