-- ==== Sys2Proof/Proofs/Interference.lean ====
section
/-! PROOF. A command that addresses one channel changes no other channel (O54), and reads none (O55): two runs from
states that agree on the channel answer alike. -/

namespace Sys2Proof.Proofs

open Sys2Proof.Machine Sys2Proof.Claims

/-! ### One channel of an array -/

theorem getElem?_onChannels_ne {α : Type} {c d : Nat} (eff : Nat → α → α) (l : List α) (h : d ≠ c) :
    (onChannels [c] eff l)[d]? = l[d]? := by
  rw [getElem?_onChannels [c] eff l d (List.nodup_singleton c), if_neg (by simpa using h)]

theorem getElem?_onSections_ne {α : Type} {c d : Nat} (sec : Nat) (eff : Nat → α → α) (l : List (List α))
    (h : d ≠ c) : (onSections [c] sec eff l)[d]? = l[d]? :=
  getElem?_onChannels_ne _ l h

theorem getElem?_onChannels_congr {α : Type} {c : Nat} {l l' : List α} (eff : Nat → α → α) (h : l'[c]? = l[c]?) :
    (onChannels [c] eff l')[c]? = (onChannels [c] eff l)[c]? := by
  simp only [getElem?_onChannels [c] eff _ c (List.nodup_singleton c), h]

theorem getElem?_onSections_congr {α : Type} {c : Nat} {l l' : List (List α)} (sec : Nat) (eff : Nat → α → α)
    (h : l'[c]? = l[c]?) : (onSections [c] sec eff l')[c]? = (onSections [c] sec eff l)[c]? :=
  getElem?_onChannels_congr _ h

theorem getElem?_set_congr {α : Type} {c : Nat} {l l' : List α} {x x' : α} (h : l'[c]? = l[c]?) (hx : x' = x) :
    (l'.set c x')[c]? = (l.set c x)[c]? := by
  rw [List.getElem?_set_self', List.getElem?_set_self', h, hx]

theorem getD_congr {α : Type} {c : Nat} {l l' : List α} (d : α) (h : l'[c]? = l[c]?) : l'.getD c d = l.getD c d := by
  rw [List.getD_eq_getElem?_getD, List.getD_eq_getElem?_getD, h]

theorem elemAt_congr {α : Type} [Inhabited α] {c : Nat} {l l' : List (List α)} (sec : Nat) (h : l'[c]? = l[c]?) :
    (elemAt l' c sec).getD default = (elemAt l c sec).getD default := by
  rw [elemAt, elemAt, h]

/-! ### Other channels are not changed (O54) -/

/-- Every channel but `c`, of every unit, is as it was. -/
def OtherChannelsKept (c : Nat) (s t : State) : Prop :=
  ∀ d, d ≠ c → t.fo.sections[d]? = s.fo.sections[d]? ∧ t.bq.sections[d]? = s.bq.sections[d]? ∧
    t.ps.chans[d]? = s.ps.chans[d]? ∧ t.ef.chans[d]? = s.ef.chans[d]? ∧ t.gs.chans[d]? = s.gs.chans[d]?

theorem conclude_otherChannels {c : Nat} {s t : State} {x : Except ErrCode State}
    (h : conclude s x = .next t) (hx : Ensures (OtherChannelsKept c s) x) : OtherChannelsKept c s t :=
  conclude_ensures hx (fun e d _ => by simp) h

theorem bqSetParam_otherChannels (c sec : Nat) (upd : BqSection → BqSection) (s : State) :
    OtherChannelsKept c s (bqSetParam [c] sec upd s) :=
  fun d hd => by simp [bqSetParam, getElem?_onSections_ne _ _ _ hd]

/-- The cases are grouped by how they name their channel, and by the number of checks before the effect. -/
theorem exec_otherChannels (i : Instr) (s t : State) (c : Nat) (hc : channelOf i = some c) (h : exec i s = .next t) :
    OtherChannelsKept c s t := by
  cases i with
  | nop | errclr | foPrepare | foDesign | bqPrepare | psPrepare | efPrepare
  | gcSetthresh | gcSetratio | gcSetknee | gcCompute | gcRead | gsPrepare => cases hc
  | foReset sel | bqReset sel | psReset sel _ | psSettime sel | psSettarget sel
  | efReset sel _ | efSetattack sel _ | efSetrelease sel _ | gsReset sel _ | gsSetattack sel | gsSetrelease sel =>
    match sel, hc with
    | .one _, rfl =>
      exact conclude_otherChannels h (ensures_bind fun _ => ensures_one <| ensures_ok fun d hd => by
        simp [getElem?_onChannels_ne _ _ hd])
  | foSetcoef sel | bqSetcoef sel =>
    match sel, hc with
    | .one _, rfl =>
      exact conclude_otherChannels h (ensures_bind fun _ => ensures_one <| ensures_bind fun _ =>
        ensures_ok fun d hd => by simp [getElem?_onSections_ne _ _ _ hd])
  | bqSettype sel =>
    match sel, hc with
    | .one _, rfl =>
      exact conclude_otherChannels h (ensures_bind fun _ => ensures_one <| ensures_bind fun _ =>
        ensures_ok (bqSetParam_otherChannels _ _ _ s))
  | bqSetfreq sel | bqSetq sel | bqSetgain sel =>
    match sel, hc with
    | .one _, rfl =>
      exact conclude_otherChannels h (ensures_bind fun _ => ensures_one <| ensures_bind fun _ => ensures_bind fun _ =>
        ensures_ok (bqSetParam_otherChannels _ _ _ s))
  | foProcess | bqProcess | psNext | psRead | efProcess | efRead | gsProcess | gsRead =>
    cases hc
    exact conclude_otherChannels h (ensures_bind fun _ => ensures_bind fun _ => ensures_ok fun d hd => by
      simp [hd.symm])
  | foReadcoef | foReadstate | bqReadcoef | bqReadstate | bqReadparam | psReadstage =>
    cases hc
    exact conclude_otherChannels h (ensures_bind fun _ => ensures_bind fun _ => ensures_bind fun _ =>
      ensures_ok fun d hd => by simp)

/-- Settles O54. -/
theorem otherChannelsAreUntouched : Obligations.OtherChannelsAreUntouched :=
  fun i s t c d hc hd h => exec_otherChannels i s t c hc h d hd

/-! ### Two runs of a command -/

/-- Two bodies fail with the same error, or succeed with related states. -/
def Alike (R : State → State → Prop) (x y : Except ErrCode State) : Prop :=
  (∃ t u, x = .ok t ∧ y = .ok u ∧ R t u) ∨ ∃ e, x = .error e ∧ y = .error e

theorem alike_ok {R : State → State → Prop} {t u : State} (h : R t u) : Alike R (.ok t) (.ok u) :=
  .inl ⟨t, u, rfl, rfl, h⟩

/-- Both bodies begin with the same check. -/
theorem alike_bind {α : Type} {R : State → State → Prop} {x : Except ErrCode α} {k k' : α → Except ErrCode State}
    (h : ∀ a, x = .ok a → Alike R (k a) (k' a)) : Alike R (x >>= k) (x >>= k') := by
  cases x with
  | ok a => exact h a rfl
  | error e => exact .inr ⟨e, rfl, rfl⟩

theorem alike_one {R : State → State → Prop} {n c : Nat} {k k' : List Nat → Except ErrCode State}
    (h : Alike R (k [c]) (k' [c])) : Alike R (channels n (.one c) >>= k) (channels n (.one c) >>= k') := by
  refine alike_bind fun cs hcs => ?_
  obtain ⟨-, -, ⟨hsel, -⟩ | ⟨d, hsel, rfl⟩⟩ := channels_ok n _ cs hcs
  · cases hsel
  · cases hsel
    exact h

/-! ### States that agree on one channel -/

/-- The arrays of the five units that have channels. -/
structure Arrays where
  fo : List (List FoSection)
  bq : List (List BqSection)
  ps : List PsChannel
  ef : List EfChannel
  gs : List GsChannel

/-- The state with other arrays: everything else in it is that of `s` by definition. -/
def withArrays (s : State) (a : Arrays) : State :=
  { s with
    fo := { s.fo with sections := a.fo }
    bq := { s.bq with sections := a.bq }
    ps := { s.ps with chans := a.ps }
    ef := { s.ef with chans := a.ef }
    gs := { s.gs with chans := a.gs } }

/-- The arrays have the same element for channel `c`. -/
structure SameChannel (c : Nat) (s : State) (a : Arrays) : Prop where
  fo : a.fo[c]? = s.fo.sections[c]?
  bq : a.bq[c]? = s.bq.sections[c]?
  ps : a.ps[c]? = s.ps.chans[c]?
  ef : a.ef[c]? = s.ef.chans[c]?
  gs : a.gs[c]? = s.gs.chans[c]?

theorem agreeOnChannel_iff (c : Nat) (s r : State) :
    AgreeOnChannel c s r ↔ ∃ a, r = withArrays s a ∧ SameChannel c s a := by
  constructor
  · rintro ⟨hr, hfo, hbq, hps, hef, hgs⟩
    exact ⟨⟨r.fo.sections, r.bq.sections, r.ps.chans, r.ef.chans, r.gs.chans⟩, hr, hfo, hbq, hps, hef, hgs⟩
  · rintro ⟨a, rfl, h⟩
    exact ⟨rfl, h.fo, h.bq, h.ps, h.ef, h.gs⟩

section
variable {c : Nat} {s r : State} (h : AgreeOnChannel c s r)
include h

theorem agree_drawn : AgreeOnChannel c s.drawn r.drawn := by
  obtain ⟨a, rfl, ha⟩ := (agreeOnChannel_iff c s r).1 h
  exact (agreeOnChannel_iff ..).2 ⟨a, rfl, { ha with }⟩

theorem agree_setRes {v v' : Sample} (k : Fin 5) (hv : v' = v) : AgreeOnChannel c (s.setRes k v) (r.setRes k v') := by
  obtain ⟨a, rfl, ha⟩ := (agreeOnChannel_iff c s r).1 h
  exact (agreeOnChannel_iff ..).2 ⟨a, hv ▸ rfl, { ha with }⟩

theorem agree_setResInt {n n' : Nat} (k : Fin 5) (hn : n' = n) :
    AgreeOnChannel c (s.setResInt k n) (r.setResInt k n') :=
  agree_setRes h k (congrArg (BitVec.ofNat 64) hn)

theorem agree_errorProc (e : ErrCode) : AgreeOnChannel c (errorProc e s.cmd s) (errorProc e r.cmd r) := by
  obtain ⟨a, rfl, ha⟩ := (agreeOnChannel_iff c s r).1 h
  cases herr : s.err with
  | true =>
    rw [errorProc_of_err e _ s herr, errorProc_of_err e _ (withArrays s a) herr]
    exact h
  | false =>
    rw [errorProc_of_no_err e _ s herr, errorProc_of_no_err e _ (withArrays s a) herr]
    exact (agreeOnChannel_iff ..).2 ⟨a, rfl, { ha with }⟩

theorem agree_setFo {l l' : List (List FoSection)} (hl : l'[c]? = l[c]?) :
    AgreeOnChannel c { s with fo := { s.fo with sections := l } } { r with fo := { r.fo with sections := l' } } := by
  obtain ⟨a, rfl, ha⟩ := (agreeOnChannel_iff c s r).1 h
  exact (agreeOnChannel_iff ..).2 ⟨{ a with fo := l' }, rfl, { ha with fo := hl }⟩

theorem agree_setBq {l l' : List (List BqSection)} (hl : l'[c]? = l[c]?) :
    AgreeOnChannel c { s with bq := { s.bq with sections := l } } { r with bq := { r.bq with sections := l' } } := by
  obtain ⟨a, rfl, ha⟩ := (agreeOnChannel_iff c s r).1 h
  exact (agreeOnChannel_iff ..).2 ⟨{ a with bq := l' }, rfl, { ha with bq := hl }⟩

theorem agree_setPs {l l' : List PsChannel} (hl : l'[c]? = l[c]?) :
    AgreeOnChannel c { s with ps := { s.ps with chans := l } } { r with ps := { r.ps with chans := l' } } := by
  obtain ⟨a, rfl, ha⟩ := (agreeOnChannel_iff c s r).1 h
  exact (agreeOnChannel_iff ..).2 ⟨{ a with ps := l' }, rfl, { ha with ps := hl }⟩

theorem agree_setEf {l l' : List EfChannel} (hl : l'[c]? = l[c]?) :
    AgreeOnChannel c { s with ef := { s.ef with chans := l } } { r with ef := { r.ef with chans := l' } } := by
  obtain ⟨a, rfl, ha⟩ := (agreeOnChannel_iff c s r).1 h
  exact (agreeOnChannel_iff ..).2 ⟨{ a with ef := l' }, rfl, { ha with ef := hl }⟩

theorem agree_setGs {l l' : List GsChannel} (hl : l'[c]? = l[c]?) :
    AgreeOnChannel c { s with gs := { s.gs with chans := l } } { r with gs := { r.gs with chans := l' } } := by
  obtain ⟨a, rfl, ha⟩ := (agreeOnChannel_iff c s r).1 h
  exact (agreeOnChannel_iff ..).2 ⟨{ a with gs := l' }, rfl, { ha with gs := hl }⟩

end

/-! ### Other channels are not read (O55) -/

/-- Both runs go on, to states that agree on channel `c`. -/
def RunsAgree (c : Nat) (run : State → Result) (s r : State) : Prop :=
  ∃ t u, run s = .next t ∧ run r = .next u ∧ AgreeOnChannel c t u

theorem conclude_agree {c : Nat} {s r : State} {x y : Except ErrCode State} (h : AgreeOnChannel c s r)
    (hxy : Alike (AgreeOnChannel c) x y) :
    ∃ t u, conclude s x = .next t ∧ conclude r y = .next u ∧ AgreeOnChannel c t u := by
  obtain ⟨t, u, rfl, rfl, htu⟩ | ⟨e, rfl, rfl⟩ := hxy
  · exact ⟨t, u, rfl, rfl, htu⟩
  · exact ⟨_, _, rfl, rfl, agree_errorProc h e⟩

section
variable {c : Nat} {s : State} {a : Arrays} (h : AgreeOnChannel c s (withArrays s a)) (ha : SameChannel c s a)
include h ha

theorem agree_bqSetParam (sec : Nat) (upd : BqSection → BqSection) :
    AgreeOnChannel c (bqSetParam [c] sec upd s) (bqSetParam [c] sec upd (withArrays s a)) :=
  agree_drawn (agree_setBq h (getElem?_onSections_congr sec _ ha.bq))

theorem execFoProcess_agree : RunsAgree c (execFoProcess c) s (withArrays s a) := by
  have hrun := congrArg (fun chain => foChain s.fp 0 chain (s.operand 0)) (getD_congr [] ha.fo)
  exact conclude_agree h <| alike_bind fun _ _ => alike_bind fun _ _ => alike_ok <| agree_drawn <|
    agree_setRes (agree_setFo h (getElem?_set_congr ha.fo (congrArg Prod.snd hrun))) 0 (congrArg Prod.fst hrun)

theorem execBqProcess_agree : RunsAgree c (execBqProcess c) s (withArrays s a) := by
  have hrun := congrArg (fun chain => bqChain s.fp 0 chain (s.operand 0)) (getD_congr [] ha.bq)
  exact conclude_agree h <| alike_bind fun _ _ => alike_bind fun _ _ => alike_ok <| agree_drawn <|
    agree_setRes (agree_setBq h (getElem?_set_congr ha.bq (congrArg Prod.snd hrun))) 0 (congrArg Prod.fst hrun)

theorem execPsNext_agree : RunsAgree c (execPsNext c) s (withArrays s a) := by
  have hrun := congrArg (psStep s.fp s.ps.alg) (getD_congr default ha.ps)
  exact conclude_agree h <| alike_bind fun _ _ => alike_bind fun _ _ => alike_ok <| agree_drawn <|
    agree_setRes (agree_setPs h (getElem?_set_congr ha.ps hrun)) 0 (congrArg PsChannel.current hrun)

theorem execEfProcess_agree : RunsAgree c (execEfProcess c) s (withArrays s a) := by
  have hrun := congrArg (efTrack s.fp s.ef.variant (s.operand 0)) (getD_congr default ha.ef)
  exact conclude_agree h <| alike_bind fun _ _ => alike_bind fun _ _ => alike_ok <| agree_drawn <|
    agree_setRes (agree_setEf h (getElem?_set_congr ha.ef hrun)) 0
      (congrArg (fun ch : EfChannel => efLevel s.fp ch.env s.ef.variant) hrun)

theorem execGsProcess_agree : RunsAgree c (execGsProcess c) s (withArrays s a) := by
  have hrun := congrArg (gsTrack s.fp (s.operand 0)) (getD_congr default ha.gs)
  exact conclude_agree h <| alike_bind fun _ _ => alike_bind fun _ _ => alike_ok <| agree_drawn <|
    agree_setRes (agree_setGs h (getElem?_set_congr ha.gs hrun)) 0 (congrArg GsChannel.g hrun)

theorem execFoReadcoef_agree (sec : Nat) : RunsAgree c (execFoReadcoef c sec) s (withArrays s a) := by
  have hσ := elemAt_congr sec ha.fo
  exact conclude_agree h <| alike_bind fun _ _ => alike_bind fun _ _ => alike_bind fun _ _ => alike_ok <|
    agree_setRes (agree_setRes (agree_setRes h 0 (congrArg FoSection.b0 hσ)) 1 (congrArg FoSection.b1 hσ))
      2 (congrArg FoSection.a1 hσ)

theorem execFoReadstate_agree (sec : Nat) : RunsAgree c (execFoReadstate c sec) s (withArrays s a) := by
  have hσ := elemAt_congr sec ha.fo
  exact conclude_agree h <| alike_bind fun _ _ => alike_bind fun _ _ => alike_bind fun _ _ => alike_ok <|
    agree_setRes (agree_setRes h 0 (congrArg FoSection.xp hσ)) 1 (congrArg FoSection.yp hσ)

theorem execBqReadcoef_agree (sec : Nat) : RunsAgree c (execBqReadcoef c sec) s (withArrays s a) := by
  have hσ := elemAt_congr sec ha.bq
  exact conclude_agree h <| alike_bind fun _ _ => alike_bind fun _ _ => alike_bind fun _ _ => alike_ok <|
    agree_setRes (agree_setRes (agree_setRes (agree_setRes (agree_setRes h 0 (congrArg BqSection.b0 hσ))
      1 (congrArg BqSection.b1 hσ)) 2 (congrArg BqSection.b2 hσ)) 3 (congrArg BqSection.a1 hσ))
      4 (congrArg BqSection.a2 hσ)

theorem execBqReadstate_agree (sec : Nat) : RunsAgree c (execBqReadstate c sec) s (withArrays s a) := by
  have hσ := elemAt_congr sec ha.bq
  exact conclude_agree h <| alike_bind fun _ _ => alike_bind fun _ _ => alike_bind fun _ _ => alike_ok <|
    agree_setRes (agree_setRes (agree_setRes (agree_setRes h 0 (congrArg BqSection.x1 hσ))
      1 (congrArg BqSection.x2 hσ)) 2 (congrArg BqSection.y1 hσ)) 3 (congrArg BqSection.y2 hσ)

theorem execBqReadparam_agree (sec : Nat) : RunsAgree c (execBqReadparam c sec) s (withArrays s a) := by
  have hσ := elemAt_congr sec ha.bq
  exact conclude_agree h <| alike_bind fun _ _ => alike_bind fun _ _ => alike_bind fun _ _ => alike_ok <|
    agree_setRes (agree_setRes (agree_setRes
      (agree_setResInt h 0 (congrArg (fun σ : BqSection => bqTypeNumber σ.type) hσ))
      1 (congrArg BqSection.freq hσ)) 2 (congrArg BqSection.q hσ)) 3 (congrArg BqSection.gdb hσ)

theorem execPsRead_agree : RunsAgree c (execPsRead c) s (withArrays s a) := by
  have hch := getD_congr default ha.ps
  exact conclude_agree h <| alike_bind fun _ _ => alike_bind fun _ _ => alike_ok <|
    agree_setRes (agree_setResInt (agree_setRes (agree_setRes (agree_setRes h 0 (congrArg PsChannel.current hch))
      1 (congrArg PsChannel.target hch)) 2 (congrArg PsChannel.coef hch)) 3 (congrArg PsChannel.remaining hch))
      4 (congrArg PsChannel.inc hch)

theorem execPsReadstage_agree (k : Nat) : RunsAgree c (execPsReadstage c k) s (withArrays s a) := by
  have hch := getD_congr default ha.ps
  exact conclude_agree h <| alike_bind fun _ _ => alike_bind fun _ _ => alike_bind fun _ _ => alike_ok <|
    agree_setRes h 0 (congrArg (fun ch : PsChannel => ch.stage.getD k (zeroOf s.params.fmt false)) hch)

theorem execEfRead_agree : RunsAgree c (execEfRead c) s (withArrays s a) := by
  have hch := getD_congr default ha.ef
  exact conclude_agree h <| alike_bind fun _ _ => alike_bind fun _ _ => alike_ok <| agree_drawn <|
    agree_setRes (agree_setRes (agree_setRes (agree_setRes h 0 (congrArg EfChannel.env hch))
      1 (congrArg EfChannel.att hch)) 2 (congrArg EfChannel.rel hch))
      3 (congrArg (fun ch : EfChannel => efLevel s.fp ch.env s.ef.variant) hch)

theorem execGsRead_agree : RunsAgree c (execGsRead c) s (withArrays s a) := by
  have hch := getD_congr default ha.gs
  exact conclude_agree h <| alike_bind fun _ _ => alike_bind fun _ _ => alike_ok <|
    agree_setRes (agree_setRes (agree_setRes h 0 (congrArg GsChannel.g hch)) 1 (congrArg GsChannel.att hch))
      2 (congrArg GsChannel.rel hch)

/-- The commands of one channel; those with a `ch/ALL` field act on it alone. -/
theorem exec_agree (i : Instr) (hc : channelOf i = some c) : RunsAgree c (exec i) s (withArrays s a) := by
  cases i with
  | nop | errclr | foPrepare | foDesign | bqPrepare | psPrepare | efPrepare
  | gcSetthresh | gcSetratio | gcSetknee | gcCompute | gcRead | gsPrepare => cases hc
  | foReset sel =>
    match sel, hc with
    | .one _, rfl =>
      exact conclude_agree h <| alike_bind fun _ _ => alike_one <| alike_ok <|
        agree_setFo h (getElem?_onChannels_congr _ ha.fo)
  | foSetcoef sel sec =>
    match sel, hc with
    | .one _, rfl =>
      exact conclude_agree h <| alike_bind fun _ _ => alike_one <| alike_bind fun _ _ => alike_ok <|
        agree_setFo h (getElem?_onSections_congr sec _ ha.fo)
  | bqReset sel =>
    match sel, hc with
    | .one _, rfl =>
      exact conclude_agree h <| alike_bind fun _ _ => alike_one <| alike_ok <|
        agree_setBq h (getElem?_onChannels_congr _ ha.bq)
  | bqSettype sel sec type =>
    match sel, hc with
    | .one _, rfl =>
      exact conclude_agree h <| alike_bind fun _ _ => alike_one <| alike_bind fun _ _ => alike_ok <|
        agree_bqSetParam h ha sec _
  | bqSetfreq sel sec | bqSetq sel sec | bqSetgain sel sec =>
    match sel, hc with
    | .one _, rfl =>
      exact conclude_agree h <| alike_bind fun _ _ => alike_one <| alike_bind fun _ _ => alike_bind fun _ _ =>
        alike_ok <| agree_bqSetParam h ha sec _
  | bqSetcoef sel sec =>
    match sel, hc with
    | .one _, rfl =>
      exact conclude_agree h <| alike_bind fun _ _ => alike_one <| alike_bind fun _ _ => alike_ok <|
        agree_setBq h (getElem?_onSections_congr sec _ ha.bq)
  | psReset sel seeded =>
    match sel, hc with
    | .one _, rfl =>
      exact conclude_agree h <| alike_bind fun _ _ => alike_one <| alike_ok <|
        agree_setPs h (getElem?_onChannels_congr _ ha.ps)
  | psSettime sel | psSettarget sel =>
    match sel, hc with
    | .one _, rfl =>
      exact conclude_agree h <| alike_bind fun _ _ => alike_one <| alike_ok <|
        agree_drawn (agree_setPs h (getElem?_onChannels_congr _ ha.ps))
  | efReset sel | efSetattack sel | efSetrelease sel =>
    match sel, hc with
    | .one _, rfl =>
      exact conclude_agree h <| alike_bind fun _ _ => alike_one <| alike_ok <|
        agree_drawn (agree_setEf h (getElem?_onChannels_congr _ ha.ef))
  | gsReset sel seeded =>
    match sel, hc with
    | .one _, rfl =>
      exact conclude_agree h <| alike_bind fun _ _ => alike_one <| alike_ok <|
        agree_setGs h (getElem?_onChannels_congr _ ha.gs)
  | gsSetattack sel | gsSetrelease sel =>
    match sel, hc with
    | .one _, rfl =>
      exact conclude_agree h <| alike_bind fun _ _ => alike_one <| alike_ok <|
        agree_drawn (agree_setGs h (getElem?_onChannels_congr _ ha.gs))
  | foProcess => cases hc; exact execFoProcess_agree h ha
  | bqProcess => cases hc; exact execBqProcess_agree h ha
  | psNext => cases hc; exact execPsNext_agree h ha
  | efProcess => cases hc; exact execEfProcess_agree h ha
  | gsProcess => cases hc; exact execGsProcess_agree h ha
  | foReadcoef _ sec => cases hc; exact execFoReadcoef_agree h ha sec
  | foReadstate _ sec => cases hc; exact execFoReadstate_agree h ha sec
  | bqReadcoef _ sec => cases hc; exact execBqReadcoef_agree h ha sec
  | bqReadstate _ sec => cases hc; exact execBqReadstate_agree h ha sec
  | bqReadparam _ sec => cases hc; exact execBqReadparam_agree h ha sec
  | psRead => cases hc; exact execPsRead_agree h ha
  | psReadstage _ k => cases hc; exact execPsReadstage_agree h ha k
  | efRead => cases hc; exact execEfRead_agree h ha
  | gsRead => cases hc; exact execGsRead_agree h ha

end

/-- Settles O55: the second state is the first with other arrays that have the same element for the channel. -/
theorem otherChannelsAreNotObserved : Obligations.OtherChannelsAreNotObserved := by
  intro i s r c hc h
  obtain ⟨a, rfl, ha⟩ := (agreeOnChannel_iff c s r).1 h
  exact exec_agree h ha i hc

end Sys2Proof.Proofs
end

