-- ==== Sys2Proof/Proofs/RegisterInterface.lean ====
section
/-! PROOF. The words of the register window (O9), and what a write to `CMD` does (O13, O15): it runs the command of its
word, and no command changes the registers that are the host's. -/

namespace Sys2Proof.Proofs

open Sys2Proof.Machine Sys2Proof.Claims

/-! ### The ID, CONFIG, STATUS and CTRL words (O9) -/

theorem bitAt_eq (b : Bool) (k : Nat) : bitAt b k = b.toNat * 2 ^ k := by cases b <;> simp [bitAt]

/-- Bit `k` of a word, from the number the word is made of. -/
theorem getLsbD_ofNat_of_div_mod {n k : Nat} {b : Bool} (hk : k < 32) (h : n / 2 ^ k % 2 = b.toNat) :
    (BitVec.ofNat 32 n).getLsbD k = b := by
  rw [BitVec.getLsbD_ofNat, Nat.testBit_eq_decide_div_mod_eq, h]
  cases b <;> simp [hk]

/-- R33, field by field, for the capacities R7 allows. -/
theorem configWord_fields (p : Params) (hc : p.maxChannels ≤ 255) (hs : p.maxSections ≤ 255) :
    (configWord p).toNat % 256 = p.maxChannels ∧ (configWord p).toNat / 256 % 256 = p.maxSections ∧
      ((configWord p).getLsbD 16 = true ↔ p.fmt = .binary64) ∧
      (configWord p).toNat / 2 ^ 17 % 16 = 8 ∧ (configWord p).toNat / 2 ^ 21 = 0 := by
  have hfmt : isBinary64 p.fmt = true ↔ p.fmt = .binary64 := by cases p.fmt <;> decide
  have hbit := Bool.toNat_le (isBinary64 p.fmt)
  rw [← hfmt]
  simp only [configWord, bitAt_eq, Config.psMaxOrder, BitVec.toNat_ofNat]
  refine ⟨by omega, by omega, ?_, by omega, by omega⟩
  rw [getLsbD_ofNat_of_div_mod (b := isBinary64 p.fmt) (by decide) (by omega)]

/-- R34, bit by bit. -/
theorem statusWord_bits (s : State) :
    (statusWord s).getLsbD 0 = s.err ∧ (statusWord s).getLsbD 1 = s.fo.prepared ∧
      (statusWord s).getLsbD 2 = s.bq.prepared ∧ (statusWord s).getLsbD 3 = s.ps.prepared ∧
      (statusWord s).getLsbD 4 = s.ef.prepared ∧ (statusWord s).getLsbD 5 = s.gs.prepared ∧
      (statusWord s).getLsbD 6 = (s.err && s.errie) ∧ (statusWord s).toNat / 128 = 0 := by
  have h0 := Bool.toNat_le s.err
  have h1 := Bool.toNat_le s.fo.prepared
  have h2 := Bool.toNat_le s.bq.prepared
  have h3 := Bool.toNat_le s.ps.prepared
  have h4 := Bool.toNat_le s.ef.prepared
  have h5 := Bool.toNat_le s.gs.prepared
  have h6 := Bool.toNat_le (irq s)
  rw [show (s.err && s.errie) = irq s from rfl]
  simp only [statusWord, bitAt_eq]
  refine ⟨?_, ?_, ?_, ?_, ?_, ?_, ?_, by rw [BitVec.toNat_ofNat]; omega⟩
  all_goals exact getLsbD_ofNat_of_div_mod (by decide) (by omega)

/-- R36. -/
theorem ctrlWord_bits (s : State) : (ctrlWord s).getLsbD 0 = s.errie ∧ (ctrlWord s).toNat / 2 = 0 := by
  have h := Bool.toNat_le s.errie
  simp only [ctrlWord, bitAt_eq]
  exact ⟨getLsbD_ofNat_of_div_mod (by decide) (by omega), by rw [BitVec.toNat_ofNat]; omega⟩

/-- Settles O9. -/
theorem idConfigStatusAndControlWords : Obligations.IdConfigStatusAndControlWords :=
  ⟨fun _ => rfl, fun s => configWord_fields s.params, statusWord_bits, ctrlWord_bits⟩

/-! ### Writes to `CMD` (O13, O15) -/

theorem hostWrite_cmd (w : Word) (s : State) :
    hostWrite (s.params.base + 0x18) 4 w s = execute w (acceptCommand w s) := by
  have hoff : busOffset s.params (s.params.base + 0x18) 4 = .ok 0x18 := (busOffset_ok ..).2 (by simp)
  simp [hostWrite, hoff, cmdOffset]

/-- Settles O13. -/
theorem stepRunsTheDecodedCommand : Obligations.StepRunsTheDecodedCommand := by
  intro s w i rest hport hdec
  calc step s
    _ = hostWrite (s.params.base + 0x18) 4 w { s with port := rest } := step_event s _ rest hport
    _ = execute w (acceptCommand w { s with port := rest }) := hostWrite_cmd w { s with port := rest }
    _ = exec i (acceptCommand w { s with port := rest }) := by rw [execute, hdec]

theorem writeReg_command (s : State) (v : Word) (o : Nat) :
    (writeReg s v o).cmd = s.cmd ∧ (writeReg s v o).cmdcnt = s.cmdcnt := by
  obtain ⟨-, h⟩ | ⟨k, -, h⟩ | ⟨k, -, h⟩ | h := writeReg_cases s v o
  all_goals rw [h]; exact ⟨rfl, rfl⟩

/-- A command word is executed to an answer, in the frame of some unit's command. -/
theorem execute_answers (w : Word) (s : State) : ∃ t unit, execute w s = .next t ∧ CommandFrame unit s t := by
  obtain ⟨e, -, h⟩ | ⟨i, -, h⟩ := execute_cases w s
  · exact ⟨_, none, h, errorProc_frame none e w s⟩
  · obtain ⟨t, ht⟩ := exec_answers i s
    exact ⟨t, unitOf i, h.trans ht, exec_frame i s t ht⟩

/-- Settles O15: the word is stored and counted before it runs, and no command changes either register. -/
theorem everyCommandWordIsStoredAndCounted : Obligations.EveryCommandWordIsStoredAndCounted := by
  refine ⟨fun s w => ?_, fun s t a n h => ?_, fun s t a n v ha h => ?_⟩
  · obtain ⟨t, _, ht, hkept⟩ := execute_answers w (acceptCommand w s)
    refine ⟨t, (hostWrite_cmd w s).trans ht, hkept.cmd, ?_⟩
    rw [hkept.cmdcnt, acceptCommand_cmdcnt, BitVec.toNat_add]
    rfl
  · obtain ⟨o, -, rfl⟩ := hostRead_next a n s t h
    exact ⟨rfl, rfl⟩
  · obtain ⟨hoff, -⟩ | ⟨o, -, -, rfl⟩ := hostWrite_next a n v s t h
    · obtain ⟨-, -, hcmd, -⟩ := (busOffset_ok ..).1 hoff
      exact absurd hcmd ha
    · exact writeReg_command s v o

end Sys2Proof.Proofs
end

