-- ==== Sys2Proof/Proofs/HostAccesses.lean ====
section
/-! PROOF. The host's accesses to the register window: what an admitted read (O10) and an admitted write outside `CMD`
(O11) do, that any other access in the window is a bus error (O12), and that an admitted access is answered (O16). -/

namespace Sys2Proof.Proofs

open Sys2Proof.Machine

/-! ### Reads (O10) -/

theorem hostRead_admitted (s : State) {o : Nat} (ho : o < 256) (halign : o % 4 = 0) :
    hostRead (s.params.base + o) 4 s = .next { s with readLog := s.readLog ++ [readReg s o] } := by
  rw [hostRead, (busOffset_ok ..).2 ⟨ho, halign, rfl, rfl⟩]

/-- No register shows what the host has read (R85). -/
theorem readReg_setReadLog (s : State) (l : List Word) (o : Nat) :
    readReg { s with readLog := l } o = readReg s o := rfl

/-- Settles O10. -/
theorem readsHaveNoSideEffect : Obligations.ReadsHaveNoSideEffect :=
  fun s o ho halign => ⟨_, hostRead_admitted s ho halign, rfl, readReg_setReadLog s _ o⟩

/-! ### Writes to a register other than `CMD` (O11) -/

theorem hostWrite_register (s : State) (v : Word) {o : Nat} (ho : o < 256) (halign : o % 4 = 0) (hcmd : o ≠ 0x18) :
    hostWrite (s.params.base + o) 4 v s = .next (writeReg s v o) := by
  rw [hostWrite, (busOffset_ok ..).2 ⟨ho, halign, rfl, rfl⟩]
  exact if_neg hcmd

theorem writeReg_opLo (s : State) (v : Word) (k : Fin 5) : writeReg s v (0x20 + 8 * k.val) = s.setOpLo k v := by
  fin_cases k <;> rfl

theorem writeReg_opHi (s : State) (v : Word) (k : Fin 5) : writeReg s v (0x24 + 8 * k.val) = s.setOpHi k v := by
  fin_cases k <;> rfl

/-- R80, R81: the offsets that are neither `CTRL` nor in the operand bank store nothing. -/
theorem writeReg_readOnly (s : State) (v : Word) {o : Nat}
    (ho : o < 0x0C ∨ (0x0C < o ∧ o < 0x20) ∨ 0x44 < o) : writeReg s v o = s := by
  obtain ⟨hctrl, -⟩ | ⟨k, hlo, -⟩ | ⟨k, hhi, -⟩ | hsame := writeReg_cases s v o
  · omega
  · omega
  · omega
  · exact hsame

/-- R80: a reserved offset, between the banks or behind them, reads 0. -/
theorem readReg_reserved (s : State) {o : Nat} (ho : (0x44 < o ∧ o < 0x60) ∨ 0x84 < o) : readReg s o = 0 := by
  unfold readReg
  split
  on_goal -1 => rfl
  all_goals omega

/-- R82: a low half stored leaves the high half, and the other operand registers. -/
theorem setOpLo_effect (s : State) (k : Fin 5) (v : Word) :
    s.setOpLo k v = { s with op := (s.setOpLo k v).op } ∧ loHalf ((s.setOpLo k v).op.get k) = v ∧
      hiHalf ((s.setOpLo k v).op.get k) = hiHalf (s.op.get k) ∧
      ∀ j, j ≠ k → (s.setOpLo k v).op.get j = s.op.get j :=
  ⟨rfl, by simp, by simp, fun j hj => by simp [hj]⟩

/-- R82: a high half stored leaves the low half, and the other operand registers. -/
theorem setOpHi_effect (s : State) (k : Fin 5) (v : Word) :
    s.setOpHi k v = { s with op := (s.setOpHi k v).op } ∧ hiHalf ((s.setOpHi k v).op.get k) = v ∧
      loHalf ((s.setOpHi k v).op.get k) = loHalf (s.op.get k) ∧
      ∀ j, j ≠ k → (s.setOpHi k v).op.get j = s.op.get j :=
  ⟨rfl, by simp, by simp, fun j hj => by simp [hj]⟩

/-- Settles O11, register by register of the window. -/
theorem writesOutsideCmd : Obligations.WritesOutsideCmd := by
  intro s v o ho halign hcmd
  refine ⟨_, hostWrite_register s v ho halign hcmd, ?ctrl, ?opLo, ?opHi, writeReg_readOnly s v, readReg_reserved s⟩
  case ctrl =>
    rintro rfl
    rfl
  case opLo =>
    rintro k rfl
    rw [writeReg_opLo]
    exact setOpLo_effect s k v
  case opHi =>
    rintro k rfl
    rw [writeReg_opHi]
    exact setOpHi_effect s k v

/-! ### Bus errors (O12) -/

theorem busOffset_busError (p : Params) {o bytes : Nat} (ho : o < 256) (hbad : bytes ≠ 4 ∨ o % 4 ≠ 0) :
    busOffset p (p.base + o) bytes = .error .busError := by
  cases hoff : busOffset p (p.base + o) bytes with
  | ok o' =>
    have hadmitted := (busOffset_ok ..).1 hoff
    omega
  | error f =>
    obtain ⟨-, hout⟩ | ⟨rfl, -⟩ := busOffset_error _ _ _ f hoff
    · omega
    · rfl

/-- Settles O12: the width and the alignment are checked before the access reaches a register, `CMD` too. -/
theorem narrowWideAndMisalignedAccessesAreBusErrors :
    Obligations.NarrowWideAndMisalignedAccessesAreBusErrors := by
  intro s o bytes v rest ho hbad
  have hoff := busOffset_busError s.params ho hbad
  constructor
  · rw [step_event _ _ rest rfl, handle, hostRead, hoff]
  · rw [step_event _ _ rest rfl, handle, hostWrite, hoff]

/-! ### Admitted accesses are answered (O16) -/

/-- R83, R84: the two ways of saying which accesses the core admits agree. -/
theorem busOffset_of_admitted {p : Params} {a n : Nat}
    (h : p.base ≤ a ∧ a < p.base + 256 ∧ n = 4 ∧ (a - p.base) % 4 = 0) : busOffset p a n = .ok (a - p.base) :=
  (busOffset_ok ..).2 (by omega)

theorem handle_answers_of_admitted {s : State} {ev : HostEvent} (h : Admitted s.params ev = true) :
    ∃ t, handle ev s = .next t := by
  cases ev with
  | read a n =>
    rw [handle, hostRead, busOffset_of_admitted (of_decide_eq_true h)]
    exact ⟨_, rfl⟩
  | write a n v =>
    rw [handle, hostWrite, busOffset_of_admitted (of_decide_eq_true h)]
    by_cases hcmd : a - s.params.base = cmdOffset
    · obtain ⟨t, _, ht, -⟩ := execute_answers v (acceptCommand v s)
      exact ⟨t, (if_pos hcmd).trans ht⟩
    · exact ⟨_, if_neg hcmd⟩
  | reset => exact ⟨_, rfl⟩

theorem writeReg_port (s : State) (v : Word) (o : Nat) : (writeReg s v o).port = s.port := by
  obtain ⟨-, h⟩ | ⟨k, -, h⟩ | ⟨k, -, h⟩ | h := writeReg_cases s v o
  all_goals simp [h]

/-- No access and no command adds to what the host still has to do, or takes from it. -/
theorem handle_port {ev : HostEvent} {s t : State} (h : handle ev s = .next t) : t.port = s.port := by
  cases ev with
  | read a n =>
    obtain ⟨o, -, rfl⟩ := hostRead_next a n s t h
    rfl
  | write a n v =>
    obtain ⟨-, hx⟩ | ⟨o, -, -, rfl⟩ := hostWrite_next a n v s t h
    · obtain ⟨u, _, hu, hkept⟩ := execute_answers v (acceptCommand v s)
      cases hu.symm.trans hx
      exact hkept.port
    · exact writeReg_port s v o
  | reset =>
    cases h
    rfl

/-- Settles O16. -/
theorem admittedAccessesNeverStopTheMachine : Obligations.AdmittedAccessesNeverStopTheMachine := by
  intro s ev rest hport hadm
  obtain ⟨t, ht⟩ := handle_answers_of_admitted (s := { s with port := rest }) hadm
  exact ⟨t, (step_event s ev rest hport).trans ht, handle_port ht⟩

end Sys2Proof.Proofs
end

