-- ==== Sys2Proof/Proofs/Encoding.lean ====
section
/-! PROOF. Decoding and encoding are inverse (O1, O2), and the decoder raises the errors of R112 (O3). A row of the
opcode map is used through three facts: what it makes of a command's own fields, which fields the command it makes
carries, and which row of R109's map it is. Each is proved by cases of the command that has the row's opcode. -/

namespace Sys2Proof.Proofs

open Sys2Proof.Machine Sys2Proof.Claims Sys2Proof.Laws

/-! ### The fields of a word (R100) -/

theorem opcField_eq (w : Word) : opcField w = w.toNat % 256 := by simp [opcField, fieldAt]
theorem chField_eq (w : Word) : chField w = w.toNat / 256 % 256 := rfl
theorem secField_eq (w : Word) : secField w = w.toNat / 65536 % 256 := rfl
theorem subField_eq (w : Word) : subField w = w.toNat / 16777216 % 16 := rfl

/-- The top field needs no remainder. -/
theorem rsvField_eq (w : Word) : rsvField w = w.toNat / 268435456 := by
  have hw := w.isLt
  simp only [rsvField, fieldAt]
  omega

theorem chField_lt (w : Word) : chField w < 256 := Nat.mod_lt _ (by decide)
theorem secField_lt (w : Word) : secField w < 256 := Nat.mod_lt _ (by decide)

/-- `CH`, `SEC` and `SUB` of a packed word whose fields fit; `packWord_fields` gives the other two. -/
theorem packWord_arguments {opc ch sec sub : Nat} (hopc : opc < 256) (hch : ch < 256) (hsec : sec < 256)
    (hsub : sub < 16) :
    chField (packWord opc ch sec sub) = ch ∧ secField (packWord opc ch sec sub) = sec ∧
      subField (packWord opc ch sec sub) = sub := by
  simp only [chField_eq, secField_eq, subField_eq, packWord, BitVec.toNat_ofNat]
  refine ⟨?_, ?_, ?_⟩ <;> omega

/-- A word without reserved bits is the word of its fields. -/
theorem packWord_of_fields {w : Word} (h : rsvField w = 0) :
    packWord (opcField w) (chField w) (secField w) (subField w) = w := by
  apply BitVec.eq_of_toNat_eq
  rw [rsvField_eq] at h
  rw [opcField_eq, chField_eq, secField_eq, subField_eq, packWord, BitVec.toNat_ofNat]
  omega

/-! ### `ch/ALL` fields and codes (R104, R105) -/

theorem selCode_selOf (c : Nat) : selCode (selOf c) = c := by
  unfold selOf
  split
  · next hall => exact hall.symm
  · rfl

theorem fits_selOf {c : Nat} (h : c < 256) : (selOf c).fits = true := by
  unfold selOf
  split
  · rfl
  · next hone =>
    exact decide_eq_true (by omega)

theorem selOf_selCode {l : ChanSel} (h : l.fits = true) : selOf (selCode l) = l := by
  cases l with
  | all => rfl
  | one c =>
    exact if_neg (Nat.ne_of_lt (of_decide_eq_true h))

/-- `code` writes the codes below `n`, each for one value, and `codeOf` reads them back and no other. -/
structure CodeTable {α : Type} (codeOf : Nat → Option α) (code : α → Nat) (n : Nat) : Prop where
  codeOf_code : ∀ a, codeOf (code a) = some a
  code_of_codeOf : ∀ {m a}, codeOf m = some a → code a = m
  codeOf_none : ∀ m, codeOf m = none ↔ n ≤ m

theorem foType_table : CodeTable foTypeOf foTypeCode 5 where
  codeOf_code a := by cases a <;> rfl
  code_of_codeOf h := by unfold foTypeOf at h; split at h <;> cases h <;> rfl
  codeOf_none
    | 0 | 1 | 2 | 3 | 4 => by decide
    | _ + 5 => by simp [foTypeOf]

theorem bqType_table : CodeTable bqTypeOf bqTypeCode 8 where
  codeOf_code a := by cases a <;> rfl
  code_of_codeOf h := by unfold bqTypeOf at h; split at h <;> cases h <;> rfl
  codeOf_none
    | 0 | 1 | 2 | 3 | 4 | 5 | 6 | 7 => by decide
    | _ + 8 => by simp [bqTypeOf]

theorem psAlg_table : CodeTable psAlgOf psAlgCode 3 where
  codeOf_code a := by cases a <;> rfl
  code_of_codeOf h := by unfold psAlgOf at h; split at h <;> cases h <;> rfl
  codeOf_none
    | 0 | 1 | 2 => by decide
    | _ + 3 => by simp [psAlgOf]

theorem efVariant_table : CodeTable efVariantOf efVariantCode 2 where
  codeOf_code a := by cases a <;> rfl
  code_of_codeOf h := by unfold efVariantOf at h; split at h <;> cases h <;> rfl
  codeOf_none
    | 0 | 1 => by decide
    | _ + 2 => by simp [efVariantOf]

theorem seed_table : CodeTable seedOf seedCode 2 where
  codeOf_code a := by cases a <;> rfl
  code_of_codeOf h := by unfold seedOf at h; split at h <;> cases h <;> rfl
  codeOf_none
    | 0 | 1 => by decide
    | _ + 2 => by simp [seedOf]

theorem timeMode_table : CodeTable timeModeOf timeModeCode 2 where
  codeOf_code a := by cases a <;> rfl
  code_of_codeOf h := by unfold timeModeOf at h; split at h <;> cases h <;> rfl
  codeOf_none
    | 0 | 1 => by decide
    | _ + 2 => by simp [timeModeOf]

/-! ### The decoder's four outcomes (R112) -/

/-- The fields of role `zero` are 0 (R106). -/
structure ZeroFields (r : Row) (ch sec sub : Nat) : Prop where
  ch : r.chZero = true → ch = 0
  sec : r.secZero = true → sec = 0
  sub : r.subZero = true → sub = 0

theorem reservedSet_eq_true_iff (r : Row) (w : Word) :
    r.reservedSet w = true ↔ rsvField w ≠ 0 ∨ (r.chZero = true ∧ chField w ≠ 0) ∨
      (r.secZero = true ∧ secField w ≠ 0) ∨ (r.subZero = true ∧ subField w ≠ 0) := by
  simp only [Row.reservedSet, Bool.or_eq_true, Bool.and_eq_true, decide_eq_true_eq, or_assoc]

theorem reservedSet_eq_false_iff (r : Row) (w : Word) :
    r.reservedSet w = false ↔ rsvField w = 0 ∧ ZeroFields r (chField w) (secField w) (subField w) := by
  rw [← Bool.not_eq_true, reservedSet_eq_true_iff]
  push Not
  exact ⟨fun ⟨hrsv, hch, hsec, hsub⟩ => ⟨hrsv, hch, hsec, hsub⟩,
    fun ⟨hrsv, hch, hsec, hsub⟩ => ⟨hrsv, hch, hsec, hsub⟩⟩

theorem decode_illegalOpcode {w : Word} (h : rowOf (opcField w) = none) : decode w = .error .illegalOpcode := by
  rw [decode, h]

section
variable {w : Word} {r : Row} (hrow : rowOf (opcField w) = some r)
include hrow

theorem decode_reservedField (hres : r.reservedSet w = true) : decode w = .error .reservedField := by
  rw [decode, hrow]
  exact if_pos hres

theorem decode_badSubcode (hres : r.reservedSet w = false)
    (hbuild : r.build (chField w) (secField w) (subField w) = none) : decode w = .error .badSubcode := by
  simp [decode, hrow, hres, hbuild]

theorem decode_command {i : Instr} (hres : r.reservedSet w = false)
    (hbuild : r.build (chField w) (secField w) (subField w) = some i) : decode w = .ok i := by
  simp [decode, hrow, hres, hbuild]

end

/-- A word that decodes has a row, no reserved bit, and the fields of its command. -/
theorem decode_ok {w : Word} {i : Instr} (h : decode w = .ok i) :
    ∃ r, rowOf (opcField w) = some r ∧ r.reservedSet w = false ∧
      r.build (chField w) (secField w) (subField w) = some i := by
  cases hrow : rowOf (opcField w) with
  | none => cases (decode_illegalOpcode hrow).symm.trans h
  | some r =>
    cases hres : r.reservedSet w with
    | true => cases (decode_reservedField hrow hres).symm.trans h
    | false =>
      cases hbuild : r.build (chField w) (secField w) (subField w) with
      | none => cases (decode_badSubcode hrow hres hbuild).symm.trans h
      | some j =>
        cases (decode_command hrow hres hbuild).symm.trans h
        exact ⟨r, rfl, hres, hbuild⟩

/-! ### What a row makes of a command's own fields (O1) -/

theorem opcodeOf_lt (i : Instr) : opcodeOf i < 256 := by cases i <;> exact of_decide_eq_true rfl

/-- The cases are grouped by the role of `CH` (R102). -/
theorem chOf_lt {i : Instr} (h : i.WellFormed = true) : chOf i < 256 := by
  cases i with
  | nop | errclr | foDesign | gcSetthresh | gcSetratio | gcSetknee | gcCompute | gcRead =>
    exact Nat.zero_lt_succ _
  | foProcess | bqProcess | psNext | psRead | efPrepare | efProcess | efRead | gsPrepare | gsProcess | gsRead =>
    exact fitsByte_lt _ h
  | foPrepare | foReadcoef | foReadstate | bqPrepare | bqReadcoef | bqReadstate | bqReadparam | psPrepare
  | psReadstage => exact fitsByte_lt _ (both h).1
  | foReset | bqReset | psReset | psSettime | psSettarget | efReset | efSetattack | efSetrelease | gsReset
  | gsSetattack | gsSetrelease => exact selCode_lt _ h
  | foSetcoef | bqSettype | bqSetfreq | bqSetq | bqSetgain | bqSetcoef => exact selCode_lt _ (both h).1

/-- The commands with a `SEC` field, and the others (R103). -/
theorem secOf_lt {i : Instr} (h : i.WellFormed = true) : secOf i < 256 := by
  cases i with
  | foPrepare | foSetcoef | foReadcoef | foReadstate | bqPrepare | bqSettype | bqSetfreq | bqSetq | bqSetgain
  | bqSetcoef | bqReadcoef | bqReadstate | bqReadparam | psPrepare | psReadstage => exact fitsByte_lt _ (both h).2
  | _ => exact Nat.zero_lt_succ _

/-- The commands with a code in `SUB`, and the others (R105). -/
theorem subOf_lt (i : Instr) : subOf i < 16 := by
  cases i with
  | foDesign type => exact foTypeCode_lt type
  | bqSettype _ _ type => exact bqTypeCode_lt type
  | psPrepare _ _ alg => exact psAlgCode_lt alg
  | efPrepare _ variant => exact efVariantCode_lt variant
  | psReset _ seeded | efReset _ seeded | gsReset _ seeded => exact seedCode_lt seeded
  | efSetattack _ mode | efSetrelease _ mode => exact timeModeCode_lt mode
  | _ => exact Nat.zero_lt_succ _

/-- The row makes the command from the command's own fields. -/
structure Describes (r : Row) (i : Instr) : Prop where
  zeros : ZeroFields r (chOf i) (secOf i) (subOf i)
  build : r.build (chOf i) (secOf i) (subOf i) = some i

/-- The cases are grouped by what has to be read back: nothing but bytes, a `ch/ALL` field, a code in `SUB`. -/
theorem rowOf_opcodeOf {i : Instr} (h : i.WellFormed = true) :
    ∃ r, rowOf (opcodeOf i) = some r ∧ Describes r i := by
  cases i with
  | nop | errclr | foPrepare | foProcess | foReadcoef | foReadstate | bqPrepare | bqProcess | bqReadcoef | bqReadstate
  | bqReadparam | psNext | psRead | psReadstage | efProcess | efRead | gcSetthresh | gcSetratio | gcSetknee | gcCompute
  | gcRead | gsPrepare | gsProcess | gsRead =>
    exact ⟨_, rfl, ⟨by constructor <;> simp [chOf, secOf, subOf], rfl⟩⟩
  | foReset sel | bqReset sel | psSettime sel | psSettarget sel | gsSetattack sel | gsSetrelease sel =>
    have hsel : selOf (selCode sel) = sel := selOf_selCode h
    exact ⟨_, rfl, ⟨by constructor <;> simp [secOf, subOf], by simp [chOf, hsel]⟩⟩
  | foSetcoef sel | bqSetfreq sel | bqSetq sel | bqSetgain sel | bqSetcoef sel =>
    have hsel : selOf (selCode sel) = sel := selOf_selCode (both h).1
    exact ⟨_, rfl, ⟨by constructor <;> simp [subOf], by simp [chOf, secOf, hsel]⟩⟩
  | foDesign type =>
    exact ⟨_, rfl, ⟨by constructor <;> simp [chOf, secOf], by simp [subOf, foType_table.codeOf_code]⟩⟩
  | bqSettype sel _ type =>
    have hsel : selOf (selCode sel) = sel := selOf_selCode (both h).1
    exact ⟨_, rfl, ⟨by constructor <;> simp, by simp [chOf, secOf, subOf, hsel, bqType_table.codeOf_code]⟩⟩
  | psPrepare _ _ alg =>
    exact ⟨_, rfl, ⟨by constructor <;> simp, by simp [chOf, secOf, subOf, psAlg_table.codeOf_code]⟩⟩
  | efPrepare _ variant =>
    exact ⟨_, rfl, ⟨by constructor <;> simp [secOf], by simp [chOf, subOf, efVariant_table.codeOf_code]⟩⟩
  | psReset sel | efReset sel | gsReset sel =>
    have hsel : selOf (selCode sel) = sel := selOf_selCode h
    exact ⟨_, rfl, ⟨by constructor <;> simp [secOf], by simp [chOf, subOf, hsel, seed_table.codeOf_code]⟩⟩
  | efSetattack sel | efSetrelease sel =>
    have hsel : selOf (selCode sel) = sel := selOf_selCode h
    exact ⟨_, rfl, ⟨by constructor <;> simp [secOf], by simp [chOf, subOf, hsel, timeMode_table.codeOf_code]⟩⟩

/-- Settles O1: the word carries the command's fields, and its row makes the command of them. -/
theorem everyWellFormedCommandDecodesBack : Obligations.EveryWellFormedCommandDecodesBack := by
  intro i hwf
  have hopc := opcodeOf_lt i
  have hch := chOf_lt hwf
  have hsec := secOf_lt hwf
  have hsub := subOf_lt i
  obtain ⟨hopcField, hrsvField⟩ := packWord_fields _ _ _ _ hopc hch hsec hsub
  obtain ⟨hchField, hsecField, hsubField⟩ := packWord_arguments hopc hch hsec hsub
  obtain ⟨r, hrow, hzeros, hbuild⟩ := rowOf_opcodeOf hwf
  refine decode_command (r := r) ?row ((reservedSet_eq_false_iff ..).2 ⟨hrsvField, ?zeros⟩) ?build
  case row => rwa [encode, hopcField]
  case zeros => rwa [encode, hchField, hsecField, hsubField]
  case build => rwa [encode, hchField, hsecField, hsubField]

/-! ### Which fields the command of a row carries (O2) -/

/-- The command has a word, and these are its fields. -/
structure Carries (i : Instr) (opc ch sec sub : Nat) : Prop where
  wellFormed : i.WellFormed = true
  opcode : opcodeOf i = opc
  ch : chOf i = ch
  sec : secOf i = sec
  sub : subOf i = sub

/-- What the row makes of the fields of a word carries those fields. -/
def RowSound (opc : Nat) (r : Row) : Prop :=
  ∀ ch sec sub i, ch < 256 → sec < 256 → ZeroFields r ch sec sub → r.build ch sec sub = some i →
    Carries i opc ch sec sub

/-- A row whose `SUB` has role `zero`. -/
theorem rowSound_plain {opc : Nat} {chZero secZero : Bool} {mk : Nat → Nat → Instr}
    (h : ∀ ch sec, ch < 256 → sec < 256 → (chZero = true → ch = 0) → (secZero = true → sec = 0) →
      Carries (mk ch sec) opc ch sec 0) :
    RowSound opc ⟨chZero, secZero, true, fun ch sec _ => some (mk ch sec)⟩ := by
  rintro ch sec sub _ hch hsec hzeros ⟨⟩
  rw [hzeros.sub rfl]
  exact h ch sec hch hsec hzeros.ch hzeros.sec

/-- A row whose `SUB` is a code. -/
theorem rowSound_coded {α : Type} {codeOf : Nat → Option α} {code : α → Nat} {n : Nat}
    (htab : CodeTable codeOf code n) {opc : Nat} {chZero secZero : Bool} {mk : Nat → Nat → α → Instr}
    (h : ∀ ch sec a, ch < 256 → sec < 256 → (chZero = true → ch = 0) → (secZero = true → sec = 0) →
      Carries (mk ch sec a) opc ch sec (code a)) :
    RowSound opc ⟨chZero, secZero, false, fun ch sec sub => (codeOf sub).map (mk ch sec)⟩ := by
  intro ch sec sub i hch hsec hzeros hbuild
  obtain ⟨a, ha, rfl⟩ := Option.map_eq_some_iff.1 hbuild
  rw [← htab.code_of_codeOf ha]
  exact h ch sec a hch hsec hzeros.ch hzeros.sec

theorem fitsByte_of_lt {n : Nat} (h : n < 256) : fitsByte n = true := decide_eq_true h

theorem bytes_fit {m n : Nat} (hm : m < 256) (hn : n < 256) : (fitsByte m && fitsByte n) = true := by
  rw [fitsByte_of_lt hm, fitsByte_of_lt hn, Bool.and_self]

theorem sel_and_byte_fit {c n : Nat} (hc : c < 256) (hn : n < 256) : ((selOf c).fits && fitsByte n) = true := by
  rw [fits_selOf hc, fitsByte_of_lt hn, Bool.and_self]

/-- The cases are grouped by the roles of the fields (R102, R103, R105). -/
theorem rowSound_opcodeOf (i : Instr) : ∃ r, rowOf (opcodeOf i) = some r ∧ RowSound (opcodeOf i) r := by
  cases i with
  | nop | errclr | gcSetthresh | gcSetratio | gcSetknee | gcCompute | gcRead =>
    refine ⟨_, rfl, ?_⟩
    exact rowSound_plain fun _ _ _ _ hch hsec => ⟨rfl, rfl, (hch rfl).symm, (hsec rfl).symm, rfl⟩
  | foProcess | bqProcess | psNext | psRead | efProcess | efRead | gsPrepare | gsProcess | gsRead =>
    refine ⟨_, rfl, ?_⟩
    exact rowSound_plain fun _ _ hc _ _ hsec => ⟨fitsByte_of_lt hc, rfl, rfl, (hsec rfl).symm, rfl⟩
  | foPrepare | foReadcoef | foReadstate | bqPrepare | bqReadcoef | bqReadstate | bqReadparam | psReadstage =>
    refine ⟨_, rfl, ?_⟩
    exact rowSound_plain fun _ _ hc hs _ _ => ⟨bytes_fit hc hs, rfl, rfl, rfl, rfl⟩
  | foReset | bqReset | psSettime | psSettarget | gsSetattack | gsSetrelease =>
    refine ⟨_, rfl, ?_⟩
    exact rowSound_plain fun _ _ hc _ _ hsec =>
      ⟨fits_selOf hc, rfl, selCode_selOf _, (hsec rfl).symm, rfl⟩
  | foSetcoef | bqSetfreq | bqSetq | bqSetgain | bqSetcoef =>
    refine ⟨_, rfl, ?_⟩
    exact rowSound_plain fun _ _ hc hs _ _ => ⟨sel_and_byte_fit hc hs, rfl, selCode_selOf _, rfl, rfl⟩
  | foDesign =>
    refine ⟨_, rfl, ?_⟩
    exact rowSound_coded foType_table fun _ _ _ _ _ hch hsec =>
      ⟨rfl, rfl, (hch rfl).symm, (hsec rfl).symm, rfl⟩
  | bqSettype =>
    refine ⟨_, rfl, ?_⟩
    exact rowSound_coded bqType_table fun _ _ _ hc hs _ _ =>
      ⟨sel_and_byte_fit hc hs, rfl, selCode_selOf _, rfl, rfl⟩
  | psPrepare =>
    refine ⟨_, rfl, ?_⟩
    exact rowSound_coded psAlg_table fun _ _ _ hc hs _ _ => ⟨bytes_fit hc hs, rfl, rfl, rfl, rfl⟩
  | efPrepare =>
    refine ⟨_, rfl, ?_⟩
    exact rowSound_coded efVariant_table fun _ _ _ hc _ _ hsec =>
      ⟨fitsByte_of_lt hc, rfl, rfl, (hsec rfl).symm, rfl⟩
  | psReset | efReset | gsReset =>
    refine ⟨_, rfl, ?_⟩
    exact rowSound_coded seed_table fun _ _ _ hc _ _ hsec =>
      ⟨fits_selOf hc, rfl, selCode_selOf _, (hsec rfl).symm, rfl⟩
  | efSetattack | efSetrelease =>
    refine ⟨_, rfl, ?_⟩
    exact rowSound_coded timeMode_table fun _ _ _ hc _ _ hsec =>
      ⟨fits_selOf hc, rfl, selCode_selOf _, (hsec rfl).symm, rfl⟩

/-- A row stands at the opcode of a command: the one it makes of zero fields. -/
theorem exists_opcodeOf_of_rowOf {opc : Nat} {r : Row} (h : rowOf opc = some r) : ∃ i, opcodeOf i = opc := by
  suffices ∃ i, r.build 0 0 0 = some i ∧ opcodeOf i = opc from this.imp fun _ => And.right
  unfold rowOf at h
  split at h
  on_goal -1 => cases h
  all_goals
    cases h
    exact ⟨_, rfl, rfl⟩

theorem rowOf_sound {opc : Nat} {r : Row} (h : rowOf opc = some r) : RowSound opc r := by
  obtain ⟨i, rfl⟩ := exists_opcodeOf_of_rowOf h
  obtain ⟨r', hr', hsound⟩ := rowSound_opcodeOf i
  cases hr'.symm.trans h
  exact hsound

/-- The fields of the word are those of the command its row makes. -/
theorem carries_of_row {w : Word} {r : Row} {i : Instr} (hrow : rowOf (opcField w) = some r)
    (hres : r.reservedSet w = false) (hbuild : r.build (chField w) (secField w) (subField w) = some i) :
    Carries i (opcField w) (chField w) (secField w) (subField w) :=
  rowOf_sound hrow _ _ _ _ (chField_lt w) (secField_lt w) ((reservedSet_eq_false_iff r w).1 hres).2 hbuild

/-- Settles O2: the command carries the fields of the word, and the word is the word of its fields. -/
theorem everyDecodedWordIsItsEncoding : Obligations.EveryDecodedWordIsItsEncoding := by
  intro w i h
  obtain ⟨r, hrow, hres, hbuild⟩ := decode_ok h
  obtain ⟨hwf, hopc, hch, hsec, hsub⟩ := carries_of_row hrow hres hbuild
  refine ⟨hwf, ?_⟩
  rw [encode, hopc, hch, hsec, hsub]
  exact packWord_of_fields ((reservedSet_eq_false_iff r w).1 hres).1

/-! ### Which row of R109's map a row is (O3) -/

/-- The row R109's map has at an opcode. -/
def mapRowAt (opc : Nat) : Option MapRow := opcodeMap.find? fun m => m.opc == opc

/-- The row and the map's row name the same fields of role `zero` and the same codes of `SUB`. -/
structure RowMatches (r : Row) (m : MapRow) : Prop where
  chZero : m.chZero = r.chZero
  secZero : m.secZero = r.secZero
  subZero : m.subZero = r.subZero
  build_none : ∀ ch sec sub, r.build ch sec sub = none ↔ m.subZero = false ∧ m.subCodes ≤ sub

/-- The cases are those with `SUB` of role `zero`, and those with a code table each. -/
theorem rowMatches_opcodeOf (i : Instr) :
    ∃ r m, rowOf (opcodeOf i) = some r ∧ mapRowAt (opcodeOf i) = some m ∧ RowMatches r m := by
  cases i with
  | foDesign => exact ⟨_, _, rfl, rfl, rfl, rfl, rfl, by simp [foType_table.codeOf_none]⟩
  | bqSettype => exact ⟨_, _, rfl, rfl, rfl, rfl, rfl, by simp [bqType_table.codeOf_none]⟩
  | psPrepare => exact ⟨_, _, rfl, rfl, rfl, rfl, rfl, by simp [psAlg_table.codeOf_none]⟩
  | efPrepare => exact ⟨_, _, rfl, rfl, rfl, rfl, rfl, by simp [efVariant_table.codeOf_none]⟩
  | psReset | efReset | gsReset => exact ⟨_, _, rfl, rfl, rfl, rfl, rfl, by simp [seed_table.codeOf_none]⟩
  | efSetattack | efSetrelease => exact ⟨_, _, rfl, rfl, rfl, rfl, rfl, by simp [timeMode_table.codeOf_none]⟩
  | _ => exact ⟨_, _, rfl, rfl, rfl, rfl, rfl, by simp⟩

theorem mapRowAt_of_rowOf {opc : Nat} {r : Row} (h : rowOf opc = some r) :
    ∃ m, mapRowAt opc = some m ∧ RowMatches r m := by
  obtain ⟨i, rfl⟩ := exists_opcodeOf_of_rowOf h
  obtain ⟨r', m, hr', hm, hmatch⟩ := rowMatches_opcodeOf i
  cases hr'.symm.trans h
  exact ⟨m, hm, hmatch⟩

/-- Every opcode of the map has a row, so an opcode without one is not in the map (R110). -/
theorem mapRowAt_of_rowOf_none {opc : Nat} (h : rowOf opc = none) : mapRowAt opc = none := by
  have hrows : ∀ m ∈ opcodeMap, (rowOf m.opc).isSome = true := by decide
  refine List.find?_eq_none.2 fun m hm hopc => ?_
  have hsome := hrows m hm
  rw [beq_iff_eq.1 hopc, h] at hsome
  cases hsome

theorem decodeError_of_mapRowAt_none {w : Word} (h : mapRowAt (opcField w) = none) :
    decodeError w = some .illegalOpcode := by
  rw [opcField_eq, mapRowAt] at h
  rw [decodeError, h]

/-- R112's pseudocode, in the decoder's own words. -/
theorem decodeError_of_mapRowAt {w : Word} {r : Row} {m : MapRow} (hm : mapRowAt (opcField w) = some m)
    (hmatch : RowMatches r m) :
    decodeError w = if r.reservedSet w then some .reservedField
      else if r.build (chField w) (secField w) (subField w) = none then some .badSubcode else none := by
  rw [opcField_eq, mapRowAt] at hm
  obtain ⟨hch, hsec, hsub, hbuild⟩ := hmatch
  simp only [decodeError, hm, hbuild, reservedSet_eq_true_iff, ← hch, ← hsec, ← hsub, rsvField_eq, chField_eq,
    secField_eq, subField_eq]
  by_cases hrsv : w.toNat / 268435456 = 0
  · simp [hrsv]
  · simp [hrsv]

/-- Settles O3, outcome by outcome of the decoder. -/
theorem decodeErrorsFollowTheOpcodeMap : Obligations.DecodeErrorsFollowTheOpcodeMap := by
  intro w
  cases hrow : rowOf (opcField w) with
  | none =>
    rw [decodeError_of_mapRowAt_none (mapRowAt_of_rowOf_none hrow)]
    exact decode_illegalOpcode hrow
  | some r =>
    obtain ⟨m, hm, hmatch⟩ := mapRowAt_of_rowOf hrow
    rw [decodeError_of_mapRowAt hm hmatch]
    cases hres : r.reservedSet w with
    | true => exact decode_reservedField hrow hres
    | false =>
      cases hbuild : r.build (chField w) (secField w) (subField w) with
      | none => exact decode_badSubcode hrow hres hbuild
      | some i =>
        obtain ⟨-, hopc, hch, hsec, hsub⟩ := carries_of_row hrow hres hbuild
        exact ⟨i, decode_command hrow hres hbuild, hopc.trans (opcField_eq w), hch, hsec, hsub⟩

/-! ### Written-out words, and words that do not decode (O4, O14) -/

/-- Settles O4: closed words, evaluated. -/
theorem sampleWordsDecodeToTheirCommands : Obligations.SampleWordsDecodeToTheirCommands := by
  unfold Obligations.SampleWordsDecodeToTheirCommands
  decide

/-- Settles O14: the word is stored and counted, and its error recorded unless one is. -/
theorem stepRejectsAWordThatDoesNotDecode : Obligations.StepRejectsAWordThatDoesNotDecode := by
  intro s w e rest hport hdec
  calc step s
    _ = hostWrite (s.params.base + 0x18) 4 w { s with port := rest } := step_event s _ rest hport
    _ = execute w (acceptCommand w { s with port := rest }) := hostWrite_cmd w { s with port := rest }
    _ = .next (errorProc e w (acceptCommand w { s with port := rest })) := by rw [execute, hdec]

end Sys2Proof.Proofs
end

