-- ==== Sys2Proof/Proofs/Broadcast.lean ====
section
/-! PROOF. A broadcast FO_SETCOEF is one FO_SETCOEF per channel, in order (O25): the channels of a field are written one
after the other, and none of these writes changes what the next one checks or stores. -/

namespace Sys2Proof.Proofs

open Sys2Proof.Machine Sys2Proof.Claims

/-- What FO_SETCOEF leaves: the operands, as the coefficients of one section of each channel (R193). -/
def coefficientsStored (cs : List Nat) (sec : Nat) (s : State) : State :=
  { s with fo := { s.fo with
      sections := onSections cs sec
        (fun _ σ => { σ with b0 := s.operand 0, b1 := s.operand 1, a1 := s.operand 2 }) s.fo.sections } }

theorem exec_foSetcoef {sel : ChanSel} {sec : Nat} {cs : List Nat} {s : State} (hprep : s.fo.prepared = true)
    (hcs : channels s.fo.nch sel = .ok cs) (hsec : sec < s.fo.nsec) :
    exec (.foSetcoef sel sec) s = .next (coefficientsStored cs sec s) := by
  have hprepared : needPrepared s.fo.prepared = .ok () := (needPrepared_ok ..).2 hprep
  have hsection : checkSection s.fo.nsec sec = .ok () := (checkSection_ok ..).2 hsec
  simp only [exec, execFoSetcoef, hprepared, hcs, hsection, ok_bind, pure_except, conclude_ok, coefficientsStored]

/-- One channel first, then the others (R104). -/
theorem coefficientsStored_cons (c : Nat) (cs : List Nat) (sec : Nat) (s : State) :
    coefficientsStored (c :: cs) sec s = coefficientsStored cs sec (coefficientsStored [c] sec s) := rfl

theorem setcoefEach_eq {sec : Nat} {cs : List Nat} {s : State} (hprep : s.fo.prepared = true)
    (hsec : sec < s.fo.nsec) (hcs : ∀ c ∈ cs, c < s.fo.nch) :
    setcoefEach sec cs s = .next (coefficientsStored cs sec s) := by
  induction cs generalizing s with
  | nil => rfl
  | cons c cs ih =>
    obtain ⟨hc, hrest⟩ := List.forall_mem_cons.1 hcs
    have hone : channels s.fo.nch (.one c) = .ok [c] := if_pos hc
    rw [setcoefEach, exec_foSetcoef hprep hone hsec, coefficientsStored_cons]
    exact ih (s := coefficientsStored [c] sec s) hprep hsec hrest

/-- Settles O25. -/
theorem broadcastSetcoefActsChannelByChannel : Obligations.BroadcastSetcoefActsChannelByChannel := by
  intro sec s hprep hsec
  rw [exec_foSetcoef hprep rfl hsec, setcoefEach_eq hprep hsec fun c hc => List.mem_range.1 hc]

end Sys2Proof.Proofs
end

