-- ==== Sys2Proof/Proofs/OperandsAndResults.lean ====
section
/-! PROOF. The operand registers a command reads (O57), by two runs from states with other operand registers, and the
result registers it writes (O58), by one rule per update. -/

namespace Sys2Proof.Proofs

open Sys2Proof.Machine Sys2Proof.Claims

/-! ### Operands that are not listed are not read (O57) -/

/-- The state with other operand registers. -/
def withOperands (s : State) (o : Bank) : State := { s with op := o }

/-- Both runs go on, and the second state differs from the first in the operand registers `o` alone. -/
def RunsWithOperands (o : Bank) (run : State → Result) (s : State) : Prop :=
  ∃ t, run s = .next t ∧ run (withOperands s o) = .next (withOperands t o)

/-- The second body succeeds with the first one's state under other operand registers, or fails as it does. -/
abbrev AlikeWithOperands (o : Bank) : Except ErrCode State → Except ErrCode State → Prop :=
  Alike fun t u => u = withOperands t o

theorem errorProc_withOperands (e : ErrCode) (w : Word) (s : State) (o : Bank) :
    errorProc e w (withOperands s o) = withOperands (errorProc e w s) o := by
  cases herr : s.err with
  | true => rw [errorProc_of_err e w s herr, errorProc_of_err e w (withOperands s o) herr]
  | false =>
    rw [errorProc_of_no_err e w s herr, errorProc_of_no_err e w (withOperands s o) herr]
    rfl

theorem conclude_withOperands {s : State} {o : Bank} {x y : Except ErrCode State} (h : AlikeWithOperands o x y) :
    ∃ t, conclude s x = .next t ∧ conclude (withOperands s o) y = .next (withOperands t o) := by
  obtain ⟨t, _, rfl, rfl, rfl⟩ | ⟨e, rfl, rfl⟩ := h
  · exact ⟨t, rfl, rfl⟩
  · exact ⟨_, rfl, congrArg Host.Outcome.next (errorProc_withOperands e s.cmd s o)⟩

/-- Both bodies begin with a check that comes out alike. -/
theorem alike_check {α : Type} {R : State → State → Prop} {x y : Except ErrCode α}
    {k k' : α → Except ErrCode State} (hxy : y = x) (h : ∀ a, Alike R (k a) (k' a)) :
    Alike R (x >>= k) (y >>= k') :=
  hxy ▸ alike_bind fun a _ => h a

/-- A seed is read only when `SUB` says so (R105). -/
theorem seedValue_withOperands {seeded : Bool} {s : State} {o : Bank}
    (h : seeded = true → (withOperands s o).operand 0 = s.operand 0) :
    seedValue seeded (withOperands s o) = seedValue seeded s := by
  cases seeded with
  | true => exact h rfl
  | false => rfl

theorem mem_allRegisters : ∀ k : Fin 5, k ∈ ([0, 1, 2, 3, 4] : List (Fin 5)) := by decide

section
variable {s : State} {o : Bank}

/-- FO_DESIGN has a check that depends on the type (R195). -/
theorem execFoDesign_withOperands (type : FoType)
    (h : ∀ k ∈ operandsOf (.foDesign type), (withOperands s o).operand k = s.operand k) :
    RunsWithOperands o (execFoDesign type) s := by
  cases type with
  | lowpass | highpass | allpass =>
    have h0 := h 0 (.head _)
    exact conclude_withOperands <| alike_check (by rw [h0]; rfl) fun _ => alike_ok (by rw [h0]; rfl)
  | lowshelf | highshelf =>
    have h0 := h 0 (.head _)
    have h1 := h 1 (.tail _ (.head _))
    exact conclude_withOperands <| alike_check (by rw [h0]; rfl) fun _ =>
      alike_check (by rw [h1]; rfl) fun _ => alike_ok (by rw [h0, h1]; rfl)

/-- The cases are grouped by the operands listed and by the checks before the effect. -/
theorem exec_withOperands (i : Instr) (h : ∀ k ∈ operandsOf i, (withOperands s o).operand k = s.operand k) :
    RunsWithOperands o (exec i) s := by
  cases i with
  | nop | errclr | gcRead => exact ⟨_, rfl, rfl⟩
  | gcSetthresh | gcSetratio | gcSetknee | gcCompute =>
    have h0 := h 0 (.head _)
    exact ⟨_, rfl, congrArg Host.Outcome.next (by rw [h0]; rfl)⟩
  | foPrepare | foReset | bqPrepare | bqReset | psNext | psRead | efRead | gsRead =>
    exact conclude_withOperands <| alike_bind fun _ _ => alike_bind fun _ _ => alike_ok rfl
  | foReadcoef | foReadstate | bqSettype | bqReadcoef | bqReadstate | bqReadparam | psReadstage =>
    exact conclude_withOperands <| alike_bind fun _ _ => alike_bind fun _ _ => alike_bind fun _ _ => alike_ok rfl
  | psReset _ seeded | efReset _ seeded | gsReset _ seeded =>
    have hseed : seedValue seeded (withOperands s o) = seedValue seeded s :=
      seedValue_withOperands fun hs => h 0 (by subst hs; exact .head _)
    exact conclude_withOperands <| alike_bind fun _ _ => alike_bind fun _ _ => alike_ok (by rw [hseed]; rfl)
  | foProcess | bqProcess | psSettime | psSettarget | efSetattack | efSetrelease | efProcess
  | gsSetattack | gsSetrelease | gsProcess =>
    have h0 := h 0 (.head _)
    exact conclude_withOperands <| alike_bind fun _ _ => alike_bind fun _ _ => alike_ok (by rw [h0]; rfl)
  | foDesign type => exact execFoDesign_withOperands type h
  | foSetcoef =>
    have h0 := h 0 (.head _)
    have h1 := h 1 (.tail _ (.head _))
    have h2 := h 2 (.tail _ (.tail _ (.head _)))
    exact conclude_withOperands <| alike_bind fun _ _ => alike_bind fun _ _ => alike_bind fun _ _ =>
      alike_ok (by rw [h0, h1, h2]; rfl)
  | bqSetcoef =>
    have hop := fun k => h k (mem_allRegisters k)
    exact conclude_withOperands <| alike_bind fun _ _ => alike_bind fun _ _ => alike_bind fun _ _ =>
      alike_ok (by simp only [hop]; rfl)
  | bqSetfreq | bqSetq | bqSetgain =>
    have h0 := h 0 (.head _)
    exact conclude_withOperands <| alike_bind fun _ _ => alike_bind fun _ _ => alike_bind fun _ _ =>
      alike_check (by rw [h0]; rfl) fun _ => alike_ok (by rw [h0]; rfl)
  | psPrepare =>
    have h0 := h 0 (.head _)
    exact conclude_withOperands <| alike_bind fun _ _ => alike_bind fun _ _ =>
      alike_check (by rw [h0]; rfl) fun _ => alike_ok (by rw [h0]; rfl)
  | efPrepare | gsPrepare =>
    have h0 := h 0 (.head _)
    exact conclude_withOperands <| alike_bind fun _ _ =>
      alike_check (by rw [h0]; rfl) fun _ => alike_ok (by rw [h0]; rfl)

end

/-- Settles O57. -/
theorem onlyListedOperandsAreRead : Obligations.OnlyListedOperandsAreRead :=
  fun i _ _ h => exec_withOperands i h

/-! ### Results that are not listed are not written (O58) -/

/-- The result registers that are not in the list are as they were. -/
structure ResultsKept (ks : List (Fin 5)) (s t : State) : Prop where
  get_eq : ∀ k, k ∉ ks → t.res.get k = s.res.get k

namespace ResultsKept

variable {ks : List (Fin 5)} {s t : State}

theorem of_eq (h : t.res = s.res) : ResultsKept ks s t := ⟨fun k _ => congrArg (Bank.get · k) h⟩

/-- A register of the list may be written (R138). -/
theorem setRes {k : Fin 5} {v : Sample} (h : ResultsKept ks s t) (hk : k ∈ ks := by simp [resultsOf]) :
    ResultsKept ks s (t.setRes k v) := by
  refine ⟨fun j hj => ?_⟩
  have hne : j ≠ k := fun heq => hj (heq ▸ hk)
  rw [setRes_res, bank_get_set_ne _ _ _ _ hne]
  exact h.get_eq j hj

theorem drawn (h : ResultsKept ks s t) : ResultsKept ks s t.drawn := ⟨h.get_eq⟩

theorem of_conclude {x : Except ErrCode State} (h : conclude s x = .next t) (hx : Ensures (ResultsKept ks s) x) :
    ResultsKept ks s t :=
  conclude_ensures hx (fun e => of_eq (errorProc_res e s.cmd s)) h

end ResultsKept

/-- FO_DESIGN has a check that depends on the type (R195). -/
theorem execFoDesign_results (type : FoType) (s t : State) (h : execFoDesign type s = .next t) :
    ResultsKept [0, 1, 2] s t := by
  refine .of_conclude h (ensures_bind fun _ => ?_)
  split
  · exact ensures_bind fun _ => ensures_ok (.drawn <| .setRes <| .setRes <| .setRes <| .of_eq rfl)
  · exact ensures_ok (.drawn <| .setRes <| .setRes <| .setRes <| .of_eq rfl)

/-- The cases are grouped by the number of results and by the number of checks before the effect. -/
theorem exec_results (i : Instr) (s t : State) (h : exec i s = .next t) : ResultsKept (resultsOf i) s t := by
  cases i with
  | nop | errclr | gcSetthresh | gcSetratio | gcSetknee =>
    cases h
    exact .of_eq rfl
  | foPrepare | foReset | bqPrepare | bqReset | psReset | psSettime | psSettarget | efPrepare | efReset | efSetattack
  | efSetrelease | gsPrepare | gsReset | gsSetattack | gsSetrelease =>
    exact .of_conclude h (ensures_bind fun _ => ensures_bind fun _ => ensures_ok (.of_eq rfl))
  | foSetcoef | bqSettype | bqSetcoef | psPrepare =>
    exact .of_conclude h (ensures_bind fun _ => ensures_bind fun _ => ensures_bind fun _ => ensures_ok (.of_eq rfl))
  | bqSetfreq | bqSetq | bqSetgain =>
    exact .of_conclude h (ensures_bind fun _ => ensures_bind fun _ => ensures_bind fun _ => ensures_bind fun _ =>
      ensures_ok (.of_eq rfl))
  | foProcess | bqProcess | psNext | efProcess | gsProcess =>
    exact .of_conclude h (ensures_bind fun _ => ensures_bind fun _ => ensures_ok (.drawn <| .setRes <| .of_eq rfl))
  | psReadstage =>
    exact .of_conclude h (ensures_bind fun _ => ensures_bind fun _ => ensures_bind fun _ =>
      ensures_ok (.setRes <| .of_eq rfl))
  | foReadstate =>
    exact .of_conclude h (ensures_bind fun _ => ensures_bind fun _ => ensures_bind fun _ =>
      ensures_ok (.setRes <| .setRes <| .of_eq rfl))
  | gcCompute =>
    cases h
    exact .drawn <| .setRes <| .setRes <| .of_eq rfl
  | foDesign type => exact execFoDesign_results type s t h
  | gcRead =>
    cases h
    exact .setRes <| .setRes <| .setRes <| .of_eq rfl
  | gsRead =>
    exact .of_conclude h (ensures_bind fun _ => ensures_bind fun _ =>
      ensures_ok (.setRes <| .setRes <| .setRes <| .of_eq rfl))
  | foReadcoef =>
    exact .of_conclude h (ensures_bind fun _ => ensures_bind fun _ => ensures_bind fun _ =>
      ensures_ok (.setRes <| .setRes <| .setRes <| .of_eq rfl))
  | efRead =>
    exact .of_conclude h (ensures_bind fun _ => ensures_bind fun _ =>
      ensures_ok (.drawn <| .setRes <| .setRes <| .setRes <| .setRes <| .of_eq rfl))
  | bqReadstate | bqReadparam =>
    exact .of_conclude h (ensures_bind fun _ => ensures_bind fun _ => ensures_bind fun _ =>
      ensures_ok (.setRes <| .setRes <| .setRes <| .setRes <| .of_eq rfl))
  | psRead =>
    exact .of_conclude h (ensures_bind fun _ => ensures_bind fun _ =>
      ensures_ok (.setRes <| .setRes <| .setRes <| .setRes <| .setRes <| .of_eq rfl))
  | bqReadcoef =>
    exact .of_conclude h (ensures_bind fun _ => ensures_bind fun _ => ensures_bind fun _ =>
      ensures_ok (.setRes <| .setRes <| .setRes <| .setRes <| .setRes <| .of_eq rfl))

/-- Settles O58: the results by cases, the operands by the frame of every command. -/
theorem onlyListedResultsAreWritten : Obligations.OnlyListedResultsAreWritten :=
  fun i s t h => ⟨(exec_results i s t h).get_eq, (exec_frame i s t h).op⟩

end Sys2Proof.Proofs
end

