-- ==== Sys2Proof/Proofs/SystemCommands.lean ====
section
/-! PROOF. NOP and ERRCLR (O20): what the commands do, and what their words do when a bit of 31:8 is set. -/

namespace Sys2Proof.Proofs

open Sys2Proof.Machine

/-- Rows 0x00 and 0x01 of R109: every field but the opcode has role `zero`. -/
theorem rowOf_systemCommand {opc : Nat} (h : opc = 0 ∨ opc = 1) :
    ∃ r, rowOf opc = some r ∧ r.chZero = true ∧ r.secZero = true ∧ r.subZero = true := by
  obtain rfl | rfl := h
  · exact ⟨_, rfl, rfl, rfl, rfl⟩
  · exact ⟨_, rfl, rfl, rfl, rfl⟩

/-- A bit of 31:8 lies in one of the four fields above the opcode (R100). -/
theorem field_ne_zero_of_le {w : Word} (h : 256 ≤ w.toNat) :
    rsvField w ≠ 0 ∨ chField w ≠ 0 ∨ secField w ≠ 0 ∨ subField w ≠ 0 := by
  rw [rsvField_eq, chField_eq, secField_eq, subField_eq]
  omega

/-- R106, R111: NOP's and ERRCLR's opcode under any other nonzero bit. -/
theorem decode_systemCommand_reservedField {w : Word} (hopc : w.toNat % 256 = 0 ∨ w.toNat % 256 = 1)
    (hbits : 256 ≤ w.toNat) : decode w = .error .reservedField := by
  rw [← opcField_eq] at hopc
  obtain ⟨r, hrow, hch, hsec, hsub⟩ := rowOf_systemCommand hopc
  refine decode_reservedField hrow ((reservedSet_eq_true_iff r w).2 ?_)
  simpa only [hch, hsec, hsub, true_and] using field_ne_zero_of_le hbits

theorem errClear_of_clear {s : State} (herr : s.err = false) (hcode : s.errcode = 0) (hcmd : s.errcmd = 0) :
    errClear s = s := by
  cases s
  cases herr
  cases hcode
  cases hcmd
  rfl

/-- R336: the interrupt needs a recorded error. -/
theorem irq_errClear (s : State) : irq (errClear s) = false := Bool.false_and _

theorem decode_nopWord : decode 0 = .ok .nop := by decide

/-- Settles O20. -/
theorem nopAndErrclrEffects : Obligations.NopAndErrclrEffects := by
  refine ⟨fun s => rfl, fun s => ⟨errClear s, rfl, rfl, irq_errClear s⟩, fun s herr hcode hcmd => ?_,
    fun w => decode_systemCommand_reservedField, fun s => ?_, fun w s hopc hbits herr => ?_⟩
  · exact congrArg Host.Outcome.next (errClear_of_clear herr hcode hcmd)
  · calc hostWrite (s.params.base + 0x18) 4 0 s
      _ = execute 0 (acceptCommand 0 s) := hostWrite_cmd 0 s
      _ = exec .nop (acceptCommand 0 s) := by rw [execute, decode_nopWord]
  · rw [execute, decode_systemCommand_reservedField (.inr hopc) hbits]
    exact congrArg Host.Outcome.next (errorProc_of_err _ w s herr)

end Sys2Proof.Proofs
end

