-- ==== Sys2Proof/Proofs/SharedHelpers.lean ====
section
/-! PROOF. The shared helpers of 40_common.md: `TimeCoeff` (R134) at its corner +∞ (O42), where the infinity passes
through the quotient and the product and `fexp` meets a zero; and `OnePole` (R137) at a settled state (O43), where the
difference is a zero and every later operation keeps it one. -/

namespace Sys2Proof.Proofs

open Sys2Proof.Machine Sys2Proof.Claims

/-! ### The kinds of the infinities and the zeros -/

theorem isNaN_infOf (f : Format) (b : Bool) : isNaN f (infOf f b) = false := by simp [isNaN]

theorem isInf_infOf (f : Format) (b : Bool) : isInf f (infOf f b) = true := by simp [isInf]

theorem isZero_infOf (f : Format) (b : Bool) : isZero f (infOf f b) = false := by
  rw [isZero, magOf_infOf]
  cases f <;> decide

theorem isZero_zeroOf (f : Format) (b : Bool) : isZero f (zeroOf f b) = true := by simp [isZero]

/-! ### Operations with an infinity (R12) -/

theorem fdiv_infOf_left (e : Fp) {b : Sample} (hb : NonNeg e.fmt b) (hinf : isInf e.fmt b = false) :
    fdiv e (infOf e.fmt false) b = infOf e.fmt false := by
  obtain ⟨hbn, hbs⟩ := hb
  simp [fdiv, isNaN_infOf, isInf_infOf, hbn, hbs, hinf]

theorem fdiv_infOf_right (e : Fp) {a : Sample} (ha : NonNeg e.fmt a) (hinf : isInf e.fmt a = false) :
    fdiv e a (infOf e.fmt false) = zeroOf e.fmt false := by
  obtain ⟨han, has⟩ := ha
  simp [fdiv, isNaN_infOf, isInf_infOf, han, has, hinf]

theorem fmul_infOf_left (e : Fp) {b : Sample} (hb : NonNeg e.fmt b) (h0 : isZero e.fmt b = false) :
    fmul e (infOf e.fmt false) b = infOf e.fmt false := by
  obtain ⟨hbn, hbs⟩ := hb
  simp [fmul, isNaN_infOf, isInf_infOf, isZero_infOf, hbn, hbs, h0]

/-! ### `TimeCoeff` (O42) -/

/-- R13: `fexp` is 1 at both zeros. -/
theorem fexp_of_isZero (e : Fp) {x : Sample} (h : isZero e.fmt x = true) : fexp e x = ofInteger e.fmt 1 := by
  obtain ⟨⟨hzero, -⟩, -⟩ := machineFunctions_laws
  rw [fexp, settle, hzero e.fmt x h, if_neg (by simp [(nonNeg_ofInteger e.fmt 1).1]),
    canon_of_fits _ _ (fits_ofInteger ..)]

/-- R134: a time that is not positive, and a NaN, is instantaneous. -/
theorem timeCoeff_of_not_positive (e : Fp) {ms : Sample} (fs : Sample) (h : flt e.fmt (zeroOf e.fmt false) ms = false) :
    timeCoeff e ms fs = zeroOf e.fmt false := by
  rw [timeCoeff, if_neg (by simp [h])]

theorem timeCoeff_of_positive (e : Fp) {ms : Sample} (fs : Sample) (h : flt e.fmt (zeroOf e.fmt false) ms = true) :
    timeCoeff e ms fs =
      fexp (e.site 3) (fneg e.fmt (fdiv (e.site 2) (ofInteger e.fmt 1)
        (fmul (e.site 1) (fdiv (e.site 0) ms (ofInteger e.fmt 1000)) fs))) := by
  rw [timeCoeff, if_pos h]

theorem timeCoeff_equation (e : Fp) (ms fs : Sample) : TimeCoeffEquation e.fmt ms fs (timeCoeff e ms fs) := by
  unfold TimeCoeffEquation
  split
  · next h => exact ⟨_, _, _, _, timeCoeff_of_positive e fs h⟩
  · next h => exact timeCoeff_of_not_positive e fs (Bool.eq_false_iff.2 h)

theorem zero_flt_infOf (f : Format) : flt f (zeroOf f false) (infOf f false) = true :=
  (zero_flt_iff f _).2 ⟨isNaN_infOf f false, signOf_infOf f false, isZero_infOf f false⟩

/-- R134: an infinite time never moves the smoother. -/
theorem timeCoeff_infOf (e : Fp) {fs : Sample} (hfs : positiveFinite e.fmt fs = true) :
    timeCoeff e (infOf e.fmt false) fs = ofInteger e.fmt 1 := by
  obtain ⟨hrate, hrate0, -⟩ := positiveFinite_kind e.fmt fs hfs
  have hseconds : fdiv (e.site 0) (infOf e.fmt false) (ofInteger e.fmt 1000) = infOf e.fmt false :=
    fdiv_infOf_left (e.site 0) (nonNeg_ofInteger ..) (thousand_is_finite_nonzero e.fmt).1
  have hsamples : fmul (e.site 1) (infOf e.fmt false) fs = infOf e.fmt false := fmul_infOf_left (e.site 1) hrate hrate0
  have hquotient : fdiv (e.site 2) (ofInteger e.fmt 1) (infOf e.fmt false) = zeroOf e.fmt false :=
    fdiv_infOf_right (e.site 2) (nonNeg_ofInteger ..) (one_is_finite_nonzero e.fmt).1
  rw [timeCoeff_of_positive e fs (zero_flt_infOf e.fmt), hseconds, hsamples, hquotient]
  exact fexp_of_isZero (e.site 3) ((isZero_fneg e.fmt _).trans (isZero_zeroOf e.fmt false))

/-- Settles O42. -/
theorem timeCoeffIsAFactorInUnitRange : Obligations.TimeCoeffIsAFactorInUnitRange := by
  intro e ms fs hfs
  have hpos : positiveFinite e.fmt fs = true := Bool.and_eq_true_iff.2 hfs
  exact ⟨timeCoeff_equation e ms fs, unitRange_timeCoeff e ms fs hpos, timeCoeff_of_not_positive e fs,
    timeCoeff_infOf e hpos⟩

/-! ### Equal values and zeros -/

theorem feq_iff (f : Format) (a b : Sample) :
    feq f a b = true ↔ isNaN f a = false ∧ isNaN f b = false ∧ orderKey f a = orderKey f b := by
  simp [feq, and_assoc]

theorem natAbs_orderKey (f : Format) (x : Sample) : (orderKey f x).natAbs = magOf f x := by
  cases h : signOf f x <;> simp [orderKey, h]

theorem isFinite_of_isZero (f : Format) {x : Sample} (h : isZero f x = true) : isFinite f x = true := by
  rw [isZero, decide_eq_true_eq] at h
  rw [isFinite, h]
  cases f <;> decide

theorem ulps_eq_zero_iff (f : Format) (x : Sample) : ulps f x = 0 ↔ isZero f x = true := by
  constructor
  · intro h
    by_contra h0
    exact (ulps_pos f x (Bool.eq_false_iff.2 h0)).ne' h
  · intro h
    rw [isZero, decide_eq_true_eq] at h
    simp [ulps, h]

theorem signedUlps_eq_zero_iff (f : Format) (x : Sample) : signedUlps f x = 0 ↔ isZero f x = true := by
  rw [← ulps_eq_zero_iff]
  cases h : signOf f x <;> simp [signedUlps, h]

theorem magOf_eq_of_orderKey_eq (f : Format) {a b : Sample} (h : orderKey f a = orderKey f b) :
    magOf f a = magOf f b := by
  rw [← natAbs_orderKey, h, natAbs_orderKey]

/-- Equal keys are equal values: the same sign and magnitude, or two zeros. -/
theorem signedUlps_eq_of_orderKey_eq (f : Format) {a b : Sample} (h : orderKey f a = orderKey f b) :
    signedUlps f a = signedUlps f b := by
  have hmag : magOf f a = magOf f b := magOf_eq_of_orderKey_eq f h
  by_cases hs : signOf f a = signOf f b
  · simp [signedUlps, ulps, hs, hmag]
  · have h0 : magOf f a = 0 := by
      cases ha : signOf f a <;> simp_all [orderKey]
    rw [(signedUlps_eq_zero_iff f a).2 (by simp [isZero, h0]),
      (signedUlps_eq_zero_iff f b).2 (by simp [isZero, ← hmag, h0])]

/-- A difference of equal finite values. -/
theorem isZero_fsub_of_feq (e : Fp) {a b : Sample} (hb : isFinite e.fmt b = true) (h : feq e.fmt a b = true) :
    isZero e.fmt (fsub e a b) = true := by
  obtain ⟨-, -, hkey⟩ := (feq_iff ..).1 h
  have ha : isFinite e.fmt a = true := by rwa [isFinite, magOf_eq_of_orderKey_eq e.fmt hkey]
  have hsum : signedUlps e.fmt a + signedUlps e.fmt (fneg e.fmt b) = 0 := by
    rw [signedUlps_fneg, signedUlps_eq_of_orderKey_eq e.fmt hkey, add_neg_cancel]
  rw [fsub, fadd_of_finite e a _ ha (by rwa [isFinite_fneg]), if_pos hsum]
  exact isZero_zeroOf ..

theorem isZero_fmul_of_isZero_right (e : Fp) {a b : Sample} (ha : isFinite e.fmt a = true)
    (hb : isZero e.fmt b = true) : isZero e.fmt (fmul e a b) = true := by
  have hround : roundMag e.fmt 0 (2 ^ e.fmt.unitExp) = 0 := by simp [roundMag, rneDiv]
  rw [fmul_of_finite e a b ha (isFinite_of_isZero e.fmt hb), (ulps_eq_zero_iff e.fmt b).2 hb, Nat.mul_zero, hround]
  simp [isZero]

/-- A finite nonzero value rounds to itself. -/
theorem mkSample_roundMag_signedUlps (f : Format) {x : Sample} (h : isFinite f x = true) (h0 : signedUlps f x ≠ 0) :
    mkSample f (decide (signedUlps f x < 0)) (roundMag f (signedUlps f x).natAbs 1) = canon f x := by
  have hpos : 0 < ulps f x := ulps_pos f x (Bool.eq_false_iff.2 (mt (signedUlps_eq_zero_iff f x).2 h0))
  have hmag : (signedUlps f x).natAbs = ulps f x * 1 := by cases hs : signOf f x <;> simp [signedUlps, hs]
  have hsign : decide (signedUlps f x < 0) = signOf f x := by cases hs : signOf f x <;> simp [signedUlps, hs, hpos]
  rw [hmag, hsign, roundMag_ulps f x 1 Nat.one_pos h, canon]

/-- A sum with a zero has the other operand's value; only the sign of a zero can change. -/
theorem feq_fadd_of_isZero_right (e : Fp) {a b : Sample} (ha : isFinite e.fmt a = true)
    (hb : isZero e.fmt b = true) : feq e.fmt (fadd e a b) a = true := by
  have hnan : isNaN e.fmt a = false := not_nan_of_finite e.fmt a ha
  rw [fadd_of_finite e a b ha (isFinite_of_isZero e.fmt hb), (signedUlps_eq_zero_iff e.fmt b).2 hb, add_zero, feq_iff]
  split
  · next h0 =>
    obtain ⟨hkey, -⟩ := orderKey_of_isZero e.fmt a ((signedUlps_eq_zero_iff e.fmt a).1 h0)
    obtain ⟨hkey0, hnan0⟩ := orderKey_of_isZero e.fmt _ (isZero_zeroOf e.fmt (signOf e.fmt a && signOf e.fmt b))
    exact ⟨hnan0, hnan, hkey0.trans hkey.symm⟩
  · next h0 =>
    rw [mkSample_roundMag_signedUlps e.fmt ha h0, isNaN_canon, orderKey_canon]
    exact ⟨hnan, hnan, rfl⟩

/-! ### `OnePole` (O43) -/

/-- Settles O43: the difference is a zero, and so is its product with the coefficient. -/
theorem onePoleHoldsASettledState : Obligations.OnePoleHoldsASettledState := by
  intro e s inp c hinp hc hsettled
  have hdiff : isZero e.fmt (fsub (e.site 0) s inp) = true := isZero_fsub_of_feq (e.site 0) hinp hsettled
  have hmove : isZero e.fmt (fmul (e.site 1) c (fsub (e.site 0) s inp)) = true :=
    isZero_fmul_of_isZero_right (e.site 1) hc hdiff
  exact feq_fadd_of_isZero_right (e.site 2) hinp hmove

end Sys2Proof.Proofs
end

