-- ==== Sys2Proof/Proofs/ChannelSelection.lean ====
section
/-! PROOF. A command whose checks pass runs its effect: the channels a legal `ch/ALL` field selects (R104, R132), each
of which takes the effect once, and the one channel of a `ch` field. -/

namespace Sys2Proof.Proofs

open Sys2Proof.Machine Sys2Proof.Claims

/-! ### Which channels a legal field selects -/

theorem channels_of_inRange {nch : Nat} {sel : ChanSel} (h : inRange nch sel = true) :
    ∃ cs, channels nch sel = .ok cs ∧ cs.Nodup ∧ ∀ c, c ∈ cs ↔ hits nch sel c = true := by
  cases sel with
  | all => exact ⟨List.range nch, rfl, List.nodup_range, fun c => by simp [hits]⟩
  | one k => exact ⟨[k], if_pos (of_decide_eq_true h), List.nodup_singleton k, fun c => by simp [hits]⟩

/-- A selected channel takes its effect, every other channel is as before. -/
theorem getElem?_onChannels_hits {α : Type} {nch : Nat} {sel : ChanSel} {cs : List Nat} (hnodup : cs.Nodup)
    (hmem : ∀ c, c ∈ cs ↔ hits nch sel c = true) (eff : Nat → α → α) (l : List α) (c : Nat) :
    (onChannels cs eff l)[c]? = (l[c]?).map fun p => if hits nch sel c then eff c p else p := by
  rw [getElem?_onChannels cs eff l c hnodup]
  by_cases h : hits nch sel c = true
  · simp [hmem, h]
  · simp [hmem, h]

theorem channel_of_onChannels {α : Type} {nch : Nat} {sel : ChanSel} {cs : List Nat} {eff : Nat → α → α} {l : List α}
    {c : Nat} {p q : α} (hnodup : cs.Nodup) (hmem : ∀ c, c ∈ cs ↔ hits nch sel c = true) (hp : l[c]? = some p)
    (hq : (onChannels cs eff l)[c]? = some q) : q = if hits nch sel c then eff c p else p := by
  rw [getElem?_onChannels_hits hnodup hmem, hp] at hq
  exact (Option.some.inj hq).symm

theorem getD_of_getElem? {α : Type} {l : List α} {c : Nat} {p : α} (d : α) (h : l[c]? = some p) : l.getD c d = p := by
  rw [List.getD_eq_getElem?_getD, h, Option.getD_some]

/-! ### Command bodies whose checks pass (R131, R132) -/

theorem selection_passes {α : Type} {b : Bool} {nch : Nat} {sel : ChanSel} {cs : List Nat}
    {k : List Nat → Except ErrCode α} (hb : b = true) (hcs : channels nch sel = .ok cs) :
    (do needPrepared b; let cs ← channels nch sel; k cs) = k cs := by
  rw [(needPrepared_ok b ()).2 hb, hcs, ok_bind, ok_bind]

theorem channel_passes {α : Type} {b : Bool} {nch c : Nat} {k : Except ErrCode α} (hb : b = true) (hc : c < nch) :
    (do needPrepared b; checkChannel nch c; k) = k := by
  rw [(needPrepared_ok b ()).2 hb, (checkChannel_ok nch c ()).2 hc, ok_bind, ok_bind]

end Sys2Proof.Proofs
end

