-- ==== Sys2Proof/Proofs/ParameterSmoother.lean ====
section
/-! PROOF. The parameter smoother (O35 to O41): what each command leaves when its checks pass, what its helper makes of
one channel, and, for a linear ramp, that every PS_NEXT takes one of its remaining steps. -/

namespace Sys2Proof.Proofs

open Sys2Proof.Machine Sys2Proof.Claims

/-! ### What the commands leave -/

/-- What the `ch/ALL` commands leave: the effect on each channel of the set. -/
def psChannelsUpdated (cs : List Nat) (eff : Nat → PsChannel → PsChannel) (s : State) : State :=
  { s with ps := { s.ps with chans := onChannels cs eff s.ps.chans } }

/-- What PS_NEXT leaves: the channel after its step, and its current value as the result (R165). -/
def psChannelStepped (c : Nat) (q : PsChannel) (s : State) : State :=
  ({ s with ps := { s.ps with chans := s.ps.chans.set c q } }.setRes 0 q.current).drawn

/-- R103: the order fits the algorithm. -/
theorem checkOrder_of_fits {alg : PsAlg} {m : Nat} (hexp : alg = .exp → 1 ≤ m ∧ m ≤ 8) (hother : alg ≠ .exp → m = 0) :
    checkOrder alg m = .ok () := by
  cases alg with
  | exp =>
    obtain ⟨hlo, hhi⟩ := hexp rfl
    exact if_neg (not_or.2 ⟨hlo.not_gt, hhi.not_gt⟩)
  | none => exact if_neg (not_not.2 (hother nofun))
  | linear => exact if_neg (not_not.2 (hother nofun))

theorem exec_psPrepare {n m : Nat} {alg : PsAlg} {s : State} (hn : 1 ≤ n ∧ n ≤ s.params.maxChannels)
    (horder : checkOrder alg m = .ok ()) (hfs : positiveFinite s.params.fmt (s.operand 0) = true) :
    exec (.psPrepare n m alg) s = .next { s with ps :=
      { prepared := true, nch := n, alg := alg, order := m, fs := s.operand 0,
        chans := List.replicate n (psFresh s.params.fmt m) } } := by
  have hcount : checkCount n s.params.maxChannels = .ok () := (checkCount_ok ..).2 hn
  have hrate : checkFs s.params.fmt (s.operand 0) = .ok () := (checkFs_ok ..).2 hfs
  simp only [exec, execPsPrepare, hcount, horder, hrate, ok_bind, pure_except, conclude_ok]

section
variable {sel : ChanSel} {cs : List Nat} {s : State}

theorem exec_psReset (seeded : Bool) (hprep : s.ps.prepared = true) (hcs : channels s.ps.nch sel = .ok cs) :
    exec (.psReset sel seeded) s =
      .next (psChannelsUpdated cs (fun _ => psSeed s.params.fmt (seedValue seeded s)) s) :=
  congrArg (conclude s) (selection_passes hprep hcs)

theorem exec_psSettime (hprep : s.ps.prepared = true) (hcs : channels s.ps.nch sel = .ok cs) :
    exec (.psSettime sel) s =
      .next (psChannelsUpdated cs (fun c => psApplyTime (s.fp.site c) s.ps.alg s.ps.fs (s.operand 0)) s).drawn :=
  congrArg (conclude s) (selection_passes hprep hcs)

theorem exec_psSettarget (hprep : s.ps.prepared = true) (hcs : channels s.ps.nch sel = .ok cs) :
    exec (.psSettarget sel) s =
      .next (psChannelsUpdated cs (fun c => psApplyTarget (s.fp.site c) s.ps.alg (s.operand 0)) s).drawn :=
  congrArg (conclude s) (selection_passes hprep hcs)

end

section
variable {c : Nat} {s : State} {p : PsChannel}

theorem exec_psNext (hprep : s.ps.prepared = true) (hc : c < s.ps.nch) (hp : s.ps.chans[c]? = some p) :
    exec (.psNext c) s = .next (psChannelStepped c (psStep s.fp s.ps.alg p) s) := by
  rw [← getD_of_getElem? default hp]
  exact congrArg (conclude s) (channel_passes hprep hc)

theorem exec_psRead (hprep : s.ps.prepared = true) (hc : c < s.ps.nch) (hp : s.ps.chans[c]? = some p) :
    exec (.psRead c) s =
      .next { s with res := ⟨p.current, p.target, p.coef, BitVec.ofNat 64 p.remaining, p.inc⟩ } := by
  rw [← getD_of_getElem? default hp]
  exact congrArg (conclude s) (channel_passes hprep hc)

theorem exec_psReadstage {k : Nat} {v : Sample} (hprep : s.ps.prepared = true) (hc : c < s.ps.nch)
    (hk : k < s.ps.order) (hp : s.ps.chans[c]? = some p) (hv : p.stage[k]? = some v) :
    exec (.psReadstage c k) s = .next { s with res := { s.res with w0 := v } } := by
  have hsection : checkSection s.ps.order k = .ok () := (checkSection_ok ..).2 hk
  calc exec (.psReadstage c k) s
    _ = conclude s (do
          checkSection s.ps.order k
          return s.setRes 0 ((s.ps.chans.getD c default).stage.getD k (zeroOf s.params.fmt false))) :=
        congrArg (conclude s) (channel_passes hprep hc)
    _ = .next { s with res := { s.res with w0 := v } } := by
        rw [hsection, getD_of_getElem? default hp, getD_of_getElem? _ hv]
        rfl

end

/-! ### Readbacks (O40) -/

/-- Settles O40. -/
theorem psReadbacksShowTheChannel : Obligations.PsReadbacksShowTheChannel :=
  fun _ _ _ hprep hc hp => ⟨exec_psRead hprep hc hp, fun _ _ hk hv => exec_psReadstage hprep hc hk hp hv⟩

/-! ### PREPARE and RESET (O35, O36) -/

/-- Settles O35. -/
theorem psPrepareSetsEveryChannel : Obligations.PsPrepareSetsEveryChannel := by
  intro n m alg s hlo hhi hexp hother hfs
  have horder : checkOrder alg m = .ok () := checkOrder_of_fits hexp hother
  have hrate : positiveFinite s.params.fmt (s.operand 0) = true := Bool.and_eq_true_iff.2 hfs
  exact ⟨_, exec_psPrepare ⟨hlo, hhi⟩ horder hrate, rfl, rfl, fun c => List.getElem?_replicate⟩

theorem psSeed_eq (f : Format) (v : Sample) (p : PsChannel) :
    psSeed f v p =
      { p with current := v, target := v, stage := List.replicate p.stage.length v, remaining := 0, inc := z f } := by
  rw [psSeed, List.map_const']
  rfl

/-- Settles O36. -/
theorem psResetSeedsTheSelectedChannels : Obligations.PsResetSeedsTheSelectedChannels := by
  intro sel seeded s hprep hsel
  obtain ⟨cs, hcs, hnodup, hmem⟩ := channels_of_inRange hsel
  refine ⟨_, exec_psReset seeded hprep hcs, rfl, rfl, fun c => ?_⟩
  simp only [psChannelsUpdated, getElem?_onChannels_hits hnodup hmem, psSeed_eq, seedValue]
  rfl

/-! ### Times and targets (O37, O38) -/

theorem duration_equation (e : Fp) (ms fs : Sample) : DurationEquation e.fmt ms fs (duration e ms fs) := by
  unfold DurationEquation
  split
  · next h =>
    refine ⟨(e.site 0).key, (e.site 1).key, ?_⟩
    rw [duration, if_pos (show flt e.fmt (zeroOf e.fmt false) ms = true from h)]
    simp only [Fp.site]
    cases roundInt e.fmt (fmul ⟨e.fmt, 1 :: e.key⟩ (fdiv ⟨e.fmt, 0 :: e.key⟩ ms (ofInteger e.fmt 1000)) fs) with
    | none => rfl
    | some r =>
      dsimp only [Config.linearMaxSamples]
      split <;> omega
  · next h => exact if_neg h

theorem startRamp_of_moving (e : Fp) {p : PsChannel} (h : feq e.fmt p.current p.target = false ∧ 0 < p.dur) :
    startRamp e p = { p with
      remaining := p.dur
      inc := fdiv (e.site 1) (fsub (e.site 0) p.target p.current) (ofInteger e.fmt p.dur) } :=
  if_pos (by simpa using h)

theorem startRamp_of_settled (e : Fp) {p : PsChannel} (h : ¬(feq e.fmt p.current p.target = false ∧ 0 < p.dur)) :
    startRamp e p = { p with remaining := 0, inc := z e.fmt } :=
  if_neg (by simpa using h)

theorem rampStarted_startRamp (e : Fp) (p : PsChannel) : RampStarted e.fmt p (startRamp e p) := by
  unfold RampStarted
  split
  · next h =>
    rw [startRamp_of_moving e h]
    exact ⟨rfl, rfl, _, _, rfl⟩
  · next h =>
    rw [startRamp_of_settled e h]
    exact ⟨rfl, rfl, rfl⟩

section
variable (e : Fp) (p : PsChannel)

theorem psApplyTime_linear (fs t : Sample) :
    psApplyTime e .linear fs t p =
      startRamp (e.site 2) { p with coef := timeCoeff (e.site 0) t fs, dur := duration (e.site 1) t fs } := by
  rw [psApplyTime, if_pos rfl]

theorem psApplyTime_of_not_linear {alg : PsAlg} (h : alg ≠ .linear) (fs t : Sample) :
    psApplyTime e alg fs t p = { p with coef := timeCoeff (e.site 0) t fs, dur := duration (e.site 1) t fs } :=
  if_neg h

theorem startRamp_coef : (startRamp e p).coef = p.coef := by unfold startRamp; split <;> rfl

theorem startRamp_dur : (startRamp e p).dur = p.dur := by unfold startRamp; split <;> rfl

theorem psApplyTime_coef (alg : PsAlg) (fs t : Sample) :
    (psApplyTime e alg fs t p).coef = timeCoeff (e.site 0) t fs := by
  by_cases h : alg = .linear
  · rw [h, psApplyTime_linear, startRamp_coef]
  · rw [psApplyTime_of_not_linear e p h]

theorem psApplyTime_dur (alg : PsAlg) (fs t : Sample) :
    (psApplyTime e alg fs t p).dur = duration (e.site 1) t fs := by
  by_cases h : alg = .linear
  · rw [h, psApplyTime_linear, startRamp_dur]
  · rw [psApplyTime_of_not_linear e p h]

theorem psApplyTarget_same {v : Sample} (h : feq e.fmt v p.target = true) : psApplyTarget e .linear v p = p := by
  rw [psApplyTarget, if_pos rfl, if_pos h]

theorem psApplyTarget_different {v : Sample} (h : feq e.fmt v p.target = false) :
    psApplyTarget e .linear v p = startRamp e { p with target := v } := by
  rw [psApplyTarget, if_pos rfl, if_neg (Bool.eq_false_iff.1 h)]

theorem psApplyTarget_of_not_linear {alg : PsAlg} (h : alg ≠ .linear) (v : Sample) :
    psApplyTarget e alg v p = { p with target := v } :=
  if_neg h

end

/-- Settles O37. -/
theorem psSettimeStoresBothTimes : Obligations.PsSettimeStoresBothTimes := by
  intro sel s hprep hsel
  obtain ⟨cs, hcs, hnodup, hmem⟩ := channels_of_inRange hsel
  refine ⟨_, exec_psSettime hprep hcs, rfl, rfl, length_onChannels .., fun c p q hp hq => ?_⟩
  obtain rfl := channel_of_onChannels hnodup hmem hp hq
  split
  · rw [psApplyTime_coef, psApplyTime_dur]
    refine ⟨timeCoeff_equation ((s.fp.site c).site 0) _ _, duration_equation ((s.fp.site c).site 1) _ _,
      fun halg => ?_, fun halg => ?_⟩
    · rw [halg, psApplyTime_linear]
      exact rampStarted_startRamp ..
    · exact psApplyTime_of_not_linear _ p halg _ _
  · rfl

/-- Settles O38. -/
theorem psSettargetStartsARampOnlyWhenDifferent : Obligations.PsSettargetStartsARampOnlyWhenDifferent := by
  intro sel s hprep hsel
  obtain ⟨cs, hcs, hnodup, hmem⟩ := channels_of_inRange hsel
  refine ⟨_, exec_psSettarget hprep hcs, rfl, rfl, length_onChannels .., fun c p q hp hq => ?_⟩
  obtain rfl := channel_of_onChannels hnodup hmem hp hq
  split
  · refine ⟨fun halg hsame => ?_, fun halg hdiff => ?_, fun halg => psApplyTarget_of_not_linear _ p halg _⟩
    · rw [halg]
      exact psApplyTarget_same _ p hsame
    · rw [halg, psApplyTarget_different _ p hdiff]
      exact rampStarted_startRamp ..
  · rfl

/-! ### One step (O39) -/

section
variable (e : Fp) (coef : Sample)

theorem length_expStages (k : Nat) (stage : List Sample) (inp : Sample) :
    (expStages e coef k stage inp).1.length = stage.length := by
  induction stage generalizing k inp with
  | nil => rfl
  | cons st rest ih => exact congrArg (· + 1) (ih ..)

/-- R167: what comes out is the last of the input and the new stage values. -/
theorem expStages_output (k : Nat) (stage : List Sample) (inp : Sample) :
    (inp :: (expStages e coef k stage inp).1)[stage.length]? = some (expStages e coef k stage inp).2 := by
  induction stage generalizing k inp with
  | nil => rfl
  | cons st rest ih => exact ih ..

/-- R167: each stage is fed the value before its own new value in the list of the input and the new stage values. -/
theorem expStages_stage (k : Nat) (stage : List Sample) (inp : Sample) {j : Nat} {st : Sample}
    (hst : stage[j]? = some st) :
    ∃ u v, (inp :: (expStages e coef k stage inp).1)[j]? = some u ∧ (expStages e coef k stage inp).1[j]? = some v ∧
      OnePoleEquation e.fmt st u coef v := by
  induction stage generalizing k inp j with
  | nil => cases hst
  | cons head rest ih =>
    cases j with
    | zero =>
      obtain rfl := Option.some.inj hst
      exact ⟨_, _, rfl, rfl, _, _, _, rfl⟩
    | succ j => exact ih _ _ hst

end

section
variable (e : Fp) {p : PsChannel}

theorem stepLinear_of_two_le (h : 2 ≤ p.remaining) :
    stepLinear e p = { p with current := fadd (e.site 0) p.current p.inc, remaining := p.remaining - 1 } :=
  if_pos h

theorem stepLinear_of_lt_two (h : p.remaining < 2) :
    stepLinear e p = { p with current := p.target, remaining := 0 } :=
  if_neg h.not_ge

end

/-- R167: what the stages are fed, one after the other, and what comes out: the input, then the new stage values. -/
def stageInput (inp : Sample) (stage : List Sample) (k : Nat) : Sample := (inp :: stage).getD k inp

theorem stageInput_of_getElem? {inp v : Sample} {stage : List Sample} {k : Nat} (h : (inp :: stage)[k]? = some v) :
    stageInput inp stage k = v :=
  getD_of_getElem? inp h

theorem stepExp_current (e : Fp) (p : PsChannel) :
    (stepExp e p).current = stageInput p.target (stepExp e p).stage p.stage.length :=
  (stageInput_of_getElem? (expStages_output e p.coef 0 p.stage p.target)).symm

theorem stepExp_stage (e : Fp) (p : PsChannel) {k : Nat} {st : Sample} (hst : p.stage[k]? = some st) :
    OnePoleEquation e.fmt st (stageInput p.target (stepExp e p).stage k) p.coef
        (stageInput p.target (stepExp e p).stage (k + 1)) ∧
      (stepExp e p).stage[k]? = some (stageInput p.target (stepExp e p).stage (k + 1)) := by
  obtain ⟨u, v, hu, hv, hpole⟩ := expStages_stage e p.coef 0 p.stage p.target hst
  have hin : stageInput p.target (stepExp e p).stage k = u := stageInput_of_getElem? hu
  have hout : stageInput p.target (stepExp e p).stage (k + 1) = v := stageInput_of_getElem? hv
  rw [hin, hout]
  exact ⟨hpole, hv⟩

/-- Settles O39. -/
theorem psNextTakesOneStep : Obligations.PsNextTakesOneStep := by
  intro c s p hprep hc hp
  refine ⟨_, _, exec_psNext hprep hc hp, rfl, rfl, rfl, fun halg => ?_, fun halg => ?_, fun halg => ?_⟩
  · rw [halg]
    rfl
  · rw [halg]
    split
    · next h => exact ⟨_, stepLinear_of_two_le s.fp h⟩
    · next h => exact stepLinear_of_lt_two s.fp (not_le.1 h)
  · rw [halg]
    refine ⟨stageInput p.target (stepExp s.fp p).stage, rfl, ?_, length_expStages .., fun _ _ => stepExp_stage s.fp p⟩
    rw [← stepExp_current]
    rfl

/-! ### A linear ramp (O41) -/

theorem stepLinear_target (e : Fp) (p : PsChannel) : (stepLinear e p).target = p.target := by
  unfold stepLinear
  split <;> rfl

/-- R166: a step is taken from the remaining ones; with none left there are still none. -/
theorem stepLinear_remaining (e : Fp) (p : PsChannel) : (stepLinear e p).remaining = p.remaining - 1 := by
  by_cases h : 2 ≤ p.remaining
  · rw [stepLinear_of_two_le e h]
  · rw [stepLinear_of_lt_two e (not_le.1 h)]
    dsimp only
    omega

/-- Channel `c` of a prepared LINEAR smoother is `p`. -/
structure LinearChannel (c : Nat) (s : State) (p : PsChannel) : Prop where
  prepared : s.ps.prepared = true
  inRange : c < s.ps.nch
  linear : s.ps.alg = .linear
  channel : s.ps.chans[c]? = some p

section
variable {c : Nat} {s : State} {p : PsChannel}

theorem exec_psNext_linear (h : LinearChannel c s p) :
    exec (.psNext c) s = .next (psChannelStepped c (stepLinear s.fp p) s) := by
  rw [exec_psNext h.prepared h.inRange h.channel, h.linear]
  rfl

theorem LinearChannel.stepped (h : LinearChannel c s p) (q : PsChannel) :
    LinearChannel c (psChannelStepped c q s) q where
  prepared := h.prepared
  inRange := h.inRange
  linear := h.linear
  channel := List.getElem?_set_self (List.getElem?_eq_some_iff.1 h.channel).1

/-- R171 item 1: a step takes one of the remaining ones, while any is left, and keeps the target; the last of `n + 1`
steps finds at most one left and gives the target. -/
theorem LinearChannel.nextTimes_lands {n : Nat} (h : LinearChannel c s p) (hn : p.remaining ≤ n + 1) :
    ∃ (t : State) (q : PsChannel), nextTimes c (n + 1) s = .next t ∧ t.ps.chans[c]? = some q ∧
      q.current = p.target ∧ q.target = p.target ∧ q.remaining = 0 ∧ t.res.w0 = p.target := by
  induction n generalizing s p with
  | zero =>
    have hlast : stepLinear s.fp p = { p with current := p.target, remaining := 0 } :=
      stepLinear_of_lt_two s.fp (Nat.lt_succ_of_le hn)
    refine ⟨psChannelStepped c (stepLinear s.fp p) s, stepLinear s.fp p, ?_, (h.stepped _).channel, ?_⟩
    · rw [nextTimes, exec_psNext_linear h]
      rfl
    · rw [hlast]
      exact ⟨rfl, rfl, rfl, rfl⟩
  | succ n ih =>
    have hleft : (stepLinear s.fp p).remaining ≤ n + 1 := by
      rw [stepLinear_remaining]
      omega
    rw [nextTimes, exec_psNext_linear h, ← stepLinear_target s.fp p]
    exact ih (h.stepped _) hleft

end

/-- Settles O41. -/
theorem linearRampLandsOnTheTarget : Obligations.LinearRampLandsOnTheTarget := by
  intro c extra s p hprep hc hlinear hp hrunning
  have hramp : LinearChannel c s p := ⟨hprep, hc, hlinear, hp⟩
  obtain ⟨n, hn⟩ : ∃ n, p.remaining + extra = n + 1 := ⟨p.remaining + extra - 1, by omega⟩
  rw [hn]
  exact hramp.nextTimes_lands (hn ▸ Nat.le_add_right ..)

end Sys2Proof.Proofs
end

