-- ==== Sys2Proof/Proofs/FilterSections.lean ====
section
/-! PROOF. What the two filters' commands on sections leave: PREPARE (O22), RESET (O23) and SETCOEF (O24) of both
filters, and the readbacks of the first-order filter (O29). -/

namespace Sys2Proof.Proofs

open Sys2Proof.Machine Sys2Proof.Claims

/-! ### Filter commands whose checks pass (R131, R132) -/

theorem counts_pass {α : Type} {n m maxN maxM : Nat} {k : Except ErrCode α} (hn : 1 ≤ n ∧ n ≤ maxN)
    (hm : 1 ≤ m ∧ m ≤ maxM) : (do checkCount n maxN; checkCount m maxM; k) = k := by
  rw [(checkCount_ok n maxN ()).2 hn, (checkCount_ok m maxM ()).2 hm, ok_bind, ok_bind]

theorem selectedSection_passes {α : Type} {b : Bool} {nch nsec sec : Nat} {sel : ChanSel} {cs : List Nat}
    {k : List Nat → Except ErrCode α} (hb : b = true) (hcs : channels nch sel = .ok cs) (hsec : sec < nsec) :
    (do needPrepared b; let cs ← channels nch sel; checkSection nsec sec; k cs) = k cs := by
  rw [selection_passes hb hcs, (checkSection_ok nsec sec ()).2 hsec, ok_bind]

theorem channelSection_passes {α : Type} {b : Bool} {nch nsec c sec : Nat} {k : Except ErrCode α} (hb : b = true)
    (hc : c < nch) (hsec : sec < nsec) :
    (do needPrepared b; checkChannel nch c; checkSection nsec sec; k) = k := by
  rw [channel_passes hb hc, (checkSection_ok nsec sec ()).2 hsec, ok_bind]

section
variable {n m : Nat} {s : State} (hn : 1 ≤ n ∧ n ≤ s.params.maxChannels) (hm : 1 ≤ m ∧ m ≤ s.params.maxSections)
include hn hm

theorem exec_foPrepare : exec (.foPrepare n m) s = .next { s with fo :=
    { prepared := true, nch := n, nsec := m,
      sections := List.replicate n (List.replicate m (foFresh s.params.fmt)) } } :=
  congrArg (conclude s) (counts_pass hn hm)

theorem exec_bqPrepare : exec (.bqPrepare n m) s = .next { s with bq :=
    { prepared := true, nch := n, nsec := m,
      sections := List.replicate n (List.replicate m (bqFresh s.params.fmt)) } } :=
  congrArg (conclude s) (counts_pass hn hm)

end

section
variable {sel : ChanSel} {cs : List Nat} {s : State}

theorem exec_foReset (hprep : s.fo.prepared = true) (hcs : channels s.fo.nch sel = .ok cs) :
    exec (.foReset sel) s = .next { s with fo := { s.fo with
      sections := onChannels cs (fun _ => foClear s.params.fmt) s.fo.sections } } :=
  congrArg (conclude s) (selection_passes hprep hcs)

theorem exec_bqReset (hprep : s.bq.prepared = true) (hcs : channels s.bq.nch sel = .ok cs) :
    exec (.bqReset sel) s = .next { s with bq := { s.bq with
      sections := onChannels cs (fun _ => bqClear s.params.fmt) s.bq.sections } } :=
  congrArg (conclude s) (selection_passes hprep hcs)

theorem exec_bqSetcoef {sec : Nat} (hprep : s.bq.prepared = true) (hcs : channels s.bq.nch sel = .ok cs)
    (hsec : sec < s.bq.nsec) :
    exec (.bqSetcoef sel sec) s = .next { s with bq := { s.bq with
      sections := onSections cs sec
        (fun _ σ => { σ with b0 := s.operand 0, b1 := s.operand 1, b2 := s.operand 2,
                             a1 := s.operand 3, a2 := s.operand 4 }) s.bq.sections } } :=
  congrArg (conclude s) (selectedSection_passes hprep hcs hsec)

end

/-! ### One section of the selected channels (R104) -/

section
variable {α : Type} {nch : Nat} {sel : ChanSel} {cs : List Nat}

/-- An effect on every section of the selected channels. -/
theorem elemAt_onChannels_map (hnodup : cs.Nodup) (hmem : ∀ c, c ∈ cs ↔ hits nch sel c = true) (g : α → α)
    (l : List (List α)) (c k : Nat) :
    elemAt (onChannels cs (fun _ chain => chain.map g) l) c k =
      (elemAt l c k).map fun σ => if hits nch sel c then g σ else σ := by
  rw [elemAt, getElem?_onChannels_hits hnodup hmem, elemAt]
  cases l[c]? with
  | none => rfl
  | some chain => by_cases h : hits nch sel c = true <;> simp [h]

/-- An effect on section `sec` of the selected channels. -/
theorem elemAt_onSections_hits (hnodup : cs.Nodup) (hmem : ∀ c, c ∈ cs ↔ hits nch sel c = true) (sec : Nat)
    (eff : Nat → α → α) (l : List (List α)) (c k : Nat) :
    elemAt (onSections cs sec eff l) c k =
      (elemAt l c k).map fun σ => if hits nch sel c = true ∧ k = sec then eff c σ else σ := by
  simp only [elemAt_onSections cs sec eff l c k hnodup, hmem]
  split
  · rfl
  · exact Option.map_id'.symm

end

/-! ### The obligations -/

/-- Settles O22. -/
theorem filterPrepareSetsEverySection : Obligations.FilterPrepareSetsEverySection :=
  fun _ _ _ hn hn' hm hm' =>
    ⟨⟨_, exec_foPrepare ⟨hn, hn'⟩ ⟨hm, hm'⟩, rfl, rfl, fun _ _ => elemAt_replicate ..⟩,
      _, exec_bqPrepare ⟨hn, hn'⟩ ⟨hm, hm'⟩, rfl, rfl, fun _ _ => elemAt_replicate ..⟩

/-- Settles O23. -/
theorem filterResetClearsDelayStateOnly : Obligations.FilterResetClearsDelayStateOnly := by
  intro sel s
  constructor
  · intro hprep hsel
    obtain ⟨cs, hcs, hnodup, hmem⟩ := channels_of_inRange hsel
    exact ⟨_, exec_foReset hprep hcs, rfl, rfl, elemAt_onChannels_map hnodup hmem _ _⟩
  · intro hprep hsel
    obtain ⟨cs, hcs, hnodup, hmem⟩ := channels_of_inRange hsel
    exact ⟨_, exec_bqReset hprep hcs, rfl, rfl, elemAt_onChannels_map hnodup hmem _ _⟩

/-- Settles O24. -/
theorem setcoefStoresTheOperands : Obligations.SetcoefStoresTheOperands := by
  intro sel sec s
  constructor
  · intro hprep hsel hsec
    obtain ⟨cs, hcs, hnodup, hmem⟩ := channels_of_inRange hsel
    exact ⟨_, exec_foSetcoef hprep hcs hsec, rfl, rfl, elemAt_onSections_hits hnodup hmem sec _ _⟩
  · intro hprep hsel hsec
    obtain ⟨cs, hcs, hnodup, hmem⟩ := channels_of_inRange hsel
    exact ⟨_, exec_bqSetcoef hprep hcs hsec, rfl, rfl, elemAt_onSections_hits hnodup hmem sec _ _⟩

/-- Settles O29. -/
theorem foReadbacksShowTheSection : Obligations.FoReadbacksShowTheSection := by
  intro c k s σ hprep hc hk hσ
  obtain rfl : (elemAt s.fo.sections c k).getD default = σ := by rw [hσ, Option.getD_some]
  exact ⟨congrArg (conclude s) (channelSection_passes hprep hc hk),
    congrArg (conclude s) (channelSection_passes hprep hc hk)⟩

end Sys2Proof.Proofs
end

