-- ==== Sys2Proof/Proofs/FirstOrderFilter.lean ====
section
/-! PROOF. The arithmetic of the first-order filter: the cascade of a channel (O26) and what its sections make of
silence (O33) and of delay coefficients (O34), and the closed forms of the designs (O28). -/

namespace Sys2Proof.Proofs

open Sys2Proof.Machine Sys2Proof.Claims

/-! ### Sums and products with a zero or a one (R11) -/

theorem fadd_of_isZero (e : Fp) {a b : Sample} (ha : isZero e.fmt a = true) (hb : isZero e.fmt b = true) :
    fadd e a b = zeroOf e.fmt (signOf e.fmt a && signOf e.fmt b) := by
  rw [fadd_of_finite e a b (isFinite_of_isZero e.fmt ha) (isFinite_of_isZero e.fmt hb),
    (signedUlps_eq_zero_iff e.fmt a).2 ha, (signedUlps_eq_zero_iff e.fmt b).2 hb, add_zero, if_pos rfl]

theorem fadd_zeroOf (e : Fp) : fadd e (zeroOf e.fmt false) (zeroOf e.fmt false) = zeroOf e.fmt false := by
  rw [fadd_of_isZero e (isZero_zeroOf ..) (isZero_zeroOf ..), signOf_zeroOf, Bool.and_self]

theorem fsub_zeroOf (e : Fp) : fsub e (zeroOf e.fmt false) (zeroOf e.fmt false) = zeroOf e.fmt false := by
  rw [fsub, fadd_of_isZero e (isZero_zeroOf ..) ((isZero_fneg ..).trans (isZero_zeroOf ..)), signOf_zeroOf,
    Bool.false_and]

/-- A finite value times a zero is a zero with the sign of the product. -/
theorem fmul_of_isZero_right (e : Fp) {a b : Sample} (ha : isFinite e.fmt a = true) (hb : isZero e.fmt b = true) :
    fmul e a b = zeroOf e.fmt (signOf e.fmt a != signOf e.fmt b) := by
  have hround : roundMag e.fmt 0 (2 ^ e.fmt.unitExp) = 0 := by simp [roundMag, rneDiv]
  rw [fmul_of_finite e a b ha (isFinite_of_isZero e.fmt hb), (ulps_eq_zero_iff e.fmt b).2 hb, Nat.mul_zero, hround,
    zeroOf]

theorem fmul_zeroOf_right (e : Fp) {a : Sample} (ha : isFinite e.fmt a = true) (hs : signOf e.fmt a = false) :
    fmul e a (zeroOf e.fmt false) = zeroOf e.fmt false := by
  rw [fmul_of_isZero_right e ha (isZero_zeroOf ..), hs, signOf_zeroOf, bne_self_eq_false]

section
variable (e : Fp) {a b : Sample} (ha : isFinite e.fmt a = true) (hb : isFinite e.fmt b = true)
include ha hb

theorem fadd_comm_of_finite : fadd e a b = fadd e b a := by
  rw [fadd_of_finite e a b ha hb, fadd_of_finite e b a hb ha, add_comm, Bool.and_comm]

theorem fmul_comm_of_finite : fmul e a b = fmul e b a := by
  rw [fmul_of_finite e a b ha hb, fmul_of_finite e b a hb ha, Nat.mul_comm, bne_comm]

end

theorem isFinite_one (f : Format) : isFinite f (ofInteger f 1) = true := by cases f <;> decide +kernel

theorem ulps_one (f : Format) : ulps f (ofInteger f 1) = 2 ^ f.unitExp := by cases f <;> decide +kernel

theorem fmul_one_left (e : Fp) {x : Sample} (hfits : Fits e.fmt x) (hx : isFinite e.fmt x = true) :
    fmul e (ofInteger e.fmt 1) x = x := by
  rw [fmul_of_finite e _ x (isFinite_one e.fmt) hx, ulps_one, Nat.mul_comm,
    roundMag_ulps e.fmt x _ (by positivity) hx, (nonNeg_ofInteger e.fmt 1).2, Bool.false_bne,
    mkSample_of_fits e.fmt x hfits]

theorem isFinite_of_feq (f : Format) {a b : Sample} (hb : isFinite f b = true) (h : feq f a b = true) :
    isFinite f a = true := by
  obtain ⟨-, -, hkey⟩ := (feq_iff ..).1 h
  rwa [isFinite, magOf_eq_of_orderKey_eq f hkey]

theorem feq_trans (f : Format) {a b c : Sample} (hab : feq f a b = true) (hbc : feq f b c = true) :
    feq f a c = true := by
  obtain ⟨ha, -, hkey⟩ := (feq_iff ..).1 hab
  obtain ⟨-, hc, hkey'⟩ := (feq_iff ..).1 hbc
  exact (feq_iff ..).2 ⟨ha, hc, hkey.trans hkey'⟩

/-- A sum with a zero on the left has the other operand's value. -/
theorem feq_fadd_of_isZero_left (e : Fp) {a b : Sample} (ha : isZero e.fmt a = true) (hb : isFinite e.fmt b = true) :
    feq e.fmt (fadd e a b) b = true := by
  rw [fadd_comm_of_finite e (isFinite_of_isZero e.fmt ha) hb]
  exact feq_fadd_of_isZero_right e hb ha

theorem isZero_fmul_of_isZero_left (e : Fp) {a b : Sample} (ha : isZero e.fmt a = true)
    (hb : isFinite e.fmt b = true) : isZero e.fmt (fmul e a b) = true := by
  rw [fmul_comm_of_finite e (isFinite_of_isZero e.fmt ha) hb]
  exact isZero_fmul_of_isZero_right e hb ha

/-! ### The cascade (O26) -/

/-- R190: what the sections from section `k` on are fed, one after the other: the input, then each output. -/
def foSignal (e : Fp) : Nat → List FoSection → Sample → Nat → Sample
  | _, _, x, 0 => x
  | _, [], x, _ + 1 => x
  | k, σ :: rest, x, j + 1 => foSignal e (k + 1) rest (foOutput (e.site k) σ x) j

section
variable (e : Fp) (k : Nat) (chain : List FoSection) (x : Sample)

theorem foChain_output : (foChain e k chain x).1 = foSignal e k chain x chain.length := by
  induction chain generalizing k x with
  | nil => rfl
  | cons σ rest ih => exact ih ..

theorem length_foChain : (foChain e k chain x).2.length = chain.length := by
  induction chain generalizing k x with
  | nil => rfl
  | cons σ rest ih => exact congrArg (· + 1) (ih ..)

theorem foOutput_equation (σ : FoSection) : FoEquation e.fmt σ x (foOutput e σ x) := ⟨_, _, _, _, _, rfl⟩

theorem foChain_section {j : Nat} {σ : FoSection} (hσ : chain[j]? = some σ) :
    FoEquation e.fmt σ (foSignal e k chain x j) (foSignal e k chain x (j + 1)) ∧
      (foChain e k chain x).2[j]? =
        some { σ with xp := foSignal e k chain x j, yp := foSignal e k chain x (j + 1) } := by
  induction chain generalizing k x j with
  | nil => cases hσ
  | cons head rest ih =>
    cases j with
    | zero =>
      obtain rfl := Option.some.inj hσ
      have hnext : foSignal e k (head :: rest) x 1 = foOutput (e.site k) head x := by cases rest <;> rfl
      rw [hnext]
      exact ⟨foOutput_equation (e.site k) x head, rfl⟩
    | succ j => exact ih (k + 1) (foOutput (e.site k) head x) hσ

end

/-- What FO_PROCESS leaves: the chain with its delay state moved on, and its output as the result (R194). -/
def foChannelProcessed (c : Nat) (r : Sample × List FoSection) (s : State) : State :=
  ({ s with fo := { s.fo with sections := s.fo.sections.set c r.2 } }.setRes 0 r.1).drawn

theorem exec_foProcess {c : Nat} {s : State} {chain : List FoSection} (hprep : s.fo.prepared = true)
    (hc : c < s.fo.nch) (hchain : s.fo.sections[c]? = some chain) :
    exec (.foProcess c) s = .next (foChannelProcessed c (foChain s.fp 0 chain (s.operand 0)) s) := by
  rw [← getD_of_getElem? [] hchain]
  exact congrArg (conclude s) (channel_passes hprep hc)

/-- Settles O26. -/
theorem foProcessRunsTheCascade : Obligations.FoProcessRunsTheCascade := by
  intro c s chain hprep hc hchain
  refine ⟨_, _, foSignal s.fp 0 chain (s.operand 0), exec_foProcess hprep hc hchain, rfl, rfl, length_foChain .., ?_, ?_,
    fun _ _ => foChain_section s.fp 0 chain (s.operand 0)⟩
  · cases chain <;> rfl
  · rw [← foChain_output]
    rfl

/-! ### Silence (O33) -/

/-- R203 item 1: the identity section answers +0 with +0. -/
theorem foOutput_silence (e : Fp) : foOutput e (foFresh e.fmt) (zeroOf e.fmt false) = zeroOf e.fmt false := by
  have hone : fmul (e.site 0) (ofInteger e.fmt 1) (zeroOf e.fmt false) = zeroOf e.fmt false :=
    fmul_zeroOf_right (e.site 0) (isFinite_one e.fmt) (nonNeg_ofInteger e.fmt 1).2
  have hzero (j : Nat) : fmul (e.site j) (zeroOf e.fmt false) (zeroOf e.fmt false) = zeroOf e.fmt false :=
    fmul_zeroOf_right (e.site j) (isFinite_of_isZero e.fmt (isZero_zeroOf ..)) (signOf_zeroOf ..)
  have hsum : fadd (e.site 2) (zeroOf e.fmt false) (zeroOf e.fmt false) = zeroOf e.fmt false := fadd_zeroOf (e.site 2)
  rw [foOutput, foFresh, hone, hzero, hzero, hsum]
  exact fsub_zeroOf (e.site 4)

theorem foChain_silence (e : Fp) (k m : Nat) :
    foChain e k (List.replicate m (foFresh e.fmt)) (zeroOf e.fmt false) =
      (zeroOf e.fmt false, List.replicate m (foFresh e.fmt)) := by
  induction m generalizing k with
  | zero => rfl
  | succ m ih =>
    have hout : foOutput (e.site k) (foFresh e.fmt) (zeroOf e.fmt false) = zeroOf e.fmt false :=
      foOutput_silence (e.site k)
    rw [List.replicate_succ, foChain, foSection, hout, ih]
    rfl

/-- FO_PROCESS of silence through identity sections: +0 as the result, and the sections are as before. -/
theorem exec_foProcess_silence {c m : Nat} {s : State} (hprep : s.fo.prepared = true) (hc : c < s.fo.nch)
    (hchain : s.fo.sections[c]? = some (List.replicate m (foFresh s.params.fmt)))
    (hsilent : s.operand 0 = z s.params.fmt) :
    exec (.foProcess c) s = .next (s.setRes 0 (z s.params.fmt)).drawn := by
  have hrun : foChain s.fp 0 (List.replicate m (foFresh s.params.fmt)) (s.operand 0) =
      (z s.params.fmt, List.replicate m (foFresh s.params.fmt)) := by
    rw [hsilent]
    exact foChain_silence s.fp 0 m
  have hsame : s.fo.sections.set c (List.replicate m (foFresh s.params.fmt)) = s.fo.sections := by
    obtain ⟨hlt, hget⟩ := List.getElem?_eq_some_iff.1 hchain
    rw [← hget, List.set_getElem_self]
  rw [exec_foProcess hprep hc hchain, hrun, foChannelProcessed, hsame]

/-- Settles O33. -/
theorem freshFilterPassesSilence : Obligations.FreshFilterPassesSilence := by
  intro n m c s t hn hn' hm hm' hexec hc hsilent
  rw [exec_foPrepare ⟨hn, hn'⟩ ⟨hm, hm'⟩] at hexec
  obtain rfl := Host.Outcome.next.inj hexec
  exact ⟨_, exec_foProcess_silence rfl hc (List.getElem?_replicate_of_lt hc) hsilent, rfl, rfl⟩

/-! ### A one-sample delay (O34) -/

/-- Settles O34: the products with the coefficients 0 are zeros, and the product with 1 is the prior input. -/
theorem delaySectionReturnsThePriorInput : Obligations.DelaySectionReturnsThePriorInput := by
  intro e x xp yp hfits hx hxp hyp
  have hz : isZero e.fmt (z e.fmt) = true := isZero_zeroOf ..
  have hinput : isZero e.fmt (fmul (e.site 0) (z e.fmt) x) = true := isZero_fmul_of_isZero_left (e.site 0) hz hx
  have hprior : fmul (e.site 1) (one e.fmt) xp = xp := fmul_one_left (e.site 1) hfits hxp
  have houtput : isZero e.fmt (fmul (e.site 3) (z e.fmt) yp) = true := isZero_fmul_of_isZero_left (e.site 3) hz hyp
  have hsum : feq e.fmt (fadd (e.site 2) (fmul (e.site 0) (z e.fmt) x) xp) xp = true :=
    feq_fadd_of_isZero_left (e.site 2) hinput hxp
  have hdiff := feq_fadd_of_isZero_right (e.site 4) (isFinite_of_feq e.fmt hxp hsum) ((isZero_fneg ..).trans houtput)
  rw [foOutput, hprior, fsub]
  exact feq_trans e.fmt hdiff hsum

/-! ### Designs (O28) -/

/-- The keys of the draws at a list of places. -/
def siteKeys (e : Fp) (sites : List Nat) (i : Nat) : List Nat := (e.site (sites.getD i 0)).key

/-- The three results of a design, over the result registers (R195). -/
def designResults (d : FoDesign) (b : Bank) : Bank := { b with w0 := d.b0, w1 := d.b1, w2 := d.a1 }

theorem foDesignOf_equation (e : Fp) (f g : Sample) (b : Bank) (type : FoType) :
    FoDesignEquation e.fmt f g (designResults (foDesignOf e f g type) b) type := by
  cases type with
  | lowpass => exact ⟨siteKeys e [9, 0, 1, 2, 3, 4, 5, 6], _, _, rfl, rfl, rfl, rfl, rfl⟩
  | highpass => exact ⟨siteKeys e [9, 0, 1, 2, 3], _, rfl, rfl, rfl, rfl⟩
  | allpass => exact ⟨siteKeys e [9, 0, 1], _, rfl, rfl, rfl, rfl⟩
  | lowshelf =>
    exact ⟨siteKeys e [19, 0, 1, 2, 3, 4, 5, 6, 7, 8, 9, 10, 11, 12], _, _, _, rfl, rfl, rfl, rfl, rfl, rfl⟩
  | highshelf =>
    exact ⟨siteKeys e [19, 0, 1, 2, 3, 4, 5, 6, 7, 8, 9, 10, 11, 12], _, _, _, rfl, rfl, rfl, rfl, rfl, rfl⟩

theorem exec_foDesign {type : FoType} {s : State} (hfreq : validFreq s.params.fmt (s.operand 0) = true)
    (hgain : isShelf type = true → positiveFinite s.params.fmt (s.operand 1) = true) :
    exec (.foDesign type) s = .next { s with
      res := designResults (foDesignOf s.fp (s.operand 0) (s.operand 1) type) s.res, draws := s.draws + 1 } := by
  have hcheckedFreq : checkFreq s.params.fmt (s.operand 0) = .ok () := (checkFreq_ok ..).2 hfreq
  have hcheckedGain (h : isShelf type = true) : checkLinearGain s.params.fmt (s.operand 1) = .ok () :=
    (checkLinearGain_ok ..).2 (hgain h)
  rw [exec, execFoDesign, hcheckedFreq, ok_bind]
  split
  · next hshelf =>
    rw [hcheckedGain hshelf]
    rfl
  · rfl

/-- Settles O28. -/
theorem foDesignGivesTheClosedForms : Obligations.FoDesignGivesTheClosedForms := by
  intro type s hfreq hgain
  have hvalid : validFreq s.params.fmt (s.operand 0) = true := Bool.and_eq_true_iff.2 hfreq
  have hpositive (h : isShelf type = true) : positiveFinite s.params.fmt (s.operand 1) = true :=
    Bool.and_eq_true_iff.2 (hgain (by cases type <;> simp_all [isShelf]))
  exact ⟨_, exec_foDesign hvalid hpositive, rfl, rfl, rfl, foDesignOf_equation s.fp _ _ s.res type⟩

end Sys2Proof.Proofs
end

