-- ==== Sys2Proof/Proofs/BiquadFilter.lean ====
section
/-! PROOF. The biquad filter: its readbacks (O30), the cascade of a channel (O27), the setters that recompute a section
by the design of its type (O31), and the flat peak design (O32). -/

namespace Sys2Proof.Proofs

open Sys2Proof.Machine Sys2Proof.Claims

/-! ### Readbacks (O30) -/

theorem setRes_withRes (s : State) (r : Bank) (k : Fin 5) (v : Sample) :
    ({ s with res := r } : State).setRes k v = { s with res := r.set v k } := rfl

theorem setRes_firstFour (s : State) (v0 v1 v2 v3 : Sample) :
    (((s.setRes 0 v0).setRes 1 v1).setRes 2 v2).setRes 3 v3 =
      { s with res := { s.res with w0 := v0, w1 := v1, w2 := v2, w3 := v3 } } := by
  rw [State.setRes, setRes_withRes, setRes_withRes, setRes_withRes]
  rfl

theorem setRes_allFive (s : State) (v0 v1 v2 v3 v4 : Sample) :
    ((((s.setRes 0 v0).setRes 1 v1).setRes 2 v2).setRes 3 v3).setRes 4 v4 = { s with res := ⟨v0, v1, v2, v3, v4⟩ } := by
  rw [setRes_firstFour, setRes_withRes]
  rfl

/-- R221: the integer code of a type is its place in the list of types. -/
theorem bqTypes_getElem?_number (type : BqType) :
    [BqType.lowpass, .highpass, .bandpass, .allpass, .notch, .peak, .lowshelf, .highshelf][bqTypeNumber type]? =
      some type := by
  cases type <;> rfl

/-- Settles O30. -/
theorem bqReadbacksShowTheSection : Obligations.BqReadbacksShowTheSection := by
  intro c k s σ hprep hc hk hσ
  obtain rfl : (elemAt s.bq.sections c k).getD default = σ := by rw [hσ, Option.getD_some]
  refine ⟨?_, ?_, _, ?_, bqTypes_getElem?_number _⟩
  · rw [← setRes_allFive]
    exact congrArg (conclude s) (channelSection_passes hprep hc hk)
  · rw [← setRes_firstFour]
    exact congrArg (conclude s) (channelSection_passes hprep hc hk)
  · rw [← setRes_firstFour]
    exact congrArg (conclude s) (channelSection_passes hprep hc hk)

/-! ### The cascade (O27) -/

/-- R220: the output of the first `j` sections, which is what the next section is fed. -/
def bqSignal (e : Fp) (k : Nat) (chain : List BqSection) (x : Sample) (j : Nat) : Sample :=
  (bqChain e k (chain.take j) x).1

theorem bqOutput_equation (e : Fp) (σ : BqSection) (x : Sample) : BqEquation e.fmt σ x (bqOutput e σ x) :=
  ⟨siteKeys e [0, 1, 3, 5, 7, 2, 4, 6, 8], rfl⟩

section
variable (e : Fp) (k : Nat) (chain : List BqSection) (x : Sample)

theorem bqSignal_length : bqSignal e k chain x chain.length = (bqChain e k chain x).1 := by
  rw [bqSignal, List.take_length]

theorem length_bqChain : (bqChain e k chain x).2.length = chain.length := by
  induction chain generalizing k x with
  | nil => rfl
  | cons σ rest ih => exact congrArg (· + 1) (ih ..)

theorem bqChain_section {j : Nat} {σ : BqSection} (hσ : chain[j]? = some σ) :
    BqEquation e.fmt σ (bqSignal e k chain x j) (bqSignal e k chain x (j + 1)) ∧
      (bqChain e k chain x).2[j]? =
        some { σ with x1 := bqSignal e k chain x j, x2 := σ.x1,
                      y1 := bqSignal e k chain x (j + 1), y2 := σ.y1 } := by
  induction chain generalizing k x j with
  | nil => cases hσ
  | cons head rest ih =>
    cases j with
    | zero =>
      obtain rfl := Option.some.inj hσ
      exact ⟨bqOutput_equation (e.site k) head x, rfl⟩
    | succ j => exact ih (k + 1) (bqOutput (e.site k) head x) hσ

end

/-- What BQ_PROCESS leaves: the chain with its delay state moved on, and its output as the result (R238). -/
def bqChannelProcessed (c : Nat) (r : Sample × List BqSection) (s : State) : State :=
  ({ s with bq := { s.bq with sections := s.bq.sections.set c r.2 } }.setRes 0 r.1).drawn

theorem exec_bqProcess {c : Nat} {s : State} {chain : List BqSection} (hprep : s.bq.prepared = true)
    (hc : c < s.bq.nch) (hchain : s.bq.sections[c]? = some chain) :
    exec (.bqProcess c) s = .next (bqChannelProcessed c (bqChain s.fp 0 chain (s.operand 0)) s) := by
  rw [← getD_of_getElem? [] hchain]
  exact congrArg (conclude s) (channel_passes hprep hc)

/-- Settles O27. -/
theorem bqProcessRunsTheCascade : Obligations.BqProcessRunsTheCascade := by
  intro c s chain hprep hc hchain
  refine ⟨_, _, bqSignal s.fp 0 chain (s.operand 0), exec_bqProcess hprep hc hchain, rfl, rfl, length_bqChain .., rfl,
    ?_, fun _ _ => bqChain_section s.fp 0 chain (s.operand 0)⟩
  rw [bqSignal_length]
  rfl

/-! ### Setters (O31) -/

/-- The place of the `i`-th operation of a design whose products `2 ⊗ cw` are the operations `products`: such a product
is inside a helper of its own (`bqNegTwoCos`). -/
def filterSite (e : Fp) (products : List Nat) (i : Nat) : Fp :=
  if products.contains i then (e.site i).site 0 else e.site i

/-- The place of the `i`-th operation of a shelf design: the first five make the shared values (`bqShelfTerms`). -/
def shelfSite (e : Fp) (i : Nat) : Fp := if i < 5 then (e.site 0).site i else e.site (i - 4)

/-- The place of the `i`-th operation of the design of a type. -/
def designSite (e : Fp) : BqType → Nat → Fp
  | .lowpass | .highpass | .bandpass => filterSite e [4]
  | .allpass | .notch => filterSite e [1, 4]
  | .peak => filterSite e [2, 7]
  | .lowshelf | .highshelf => shelfSite e

theorem filterSite_fmt (e : Fp) (products : List Nat) (i : Nat) : (filterSite e products i).fmt = e.fmt := by
  unfold filterSite
  split <;> rfl

theorem shelfSite_fmt (e : Fp) (i : Nat) : (shelfSite e i).fmt = e.fmt := by
  unfold shelfSite
  split <;> rfl

theorem designSite_fmt (e : Fp) (type : BqType) (i : Nat) : (designSite e type i).fmt = e.fmt := by
  cases type with
  | lowpass | highpass | bandpass | allpass | notch | peak => exact filterSite_fmt ..
  | lowshelf | highshelf => exact shelfSite_fmt ..

/-- R223 to R230. -/
theorem bqRawOf_eq_rawDesign (e : Fp) (cw α a : Sample) (type : BqType) :
    bqRawOf e cw α a type = rawDesign e.fmt (designSite e type) cw α a type := by
  cases type <;> rfl

theorem bqRecompute_recomputed (e : Fp) (σ : BqSection) : Recomputed e.fmt σ (bqRecompute e σ) :=
  ⟨siteKeys e [99, 0, 1, 2, 3, 4, 5, 6, 8, 9, 10, 11, 12], designSite (e.site 7) σ.type, _, _, _, _, _,
    designSite_fmt (e.site 7) σ.type, rfl, rfl, rfl, rfl, bqRawOf_eq_rawDesign .., rfl⟩

section
variable {sel : ChanSel} {sec : Nat} {s : State}

theorem bqSetParam_retuned {cs : List Nat} (hnodup : cs.Nodup) (hmem : ∀ c, c ∈ cs ↔ hits s.bq.nch sel c = true)
    (upd : BqSection → BqSection) :
    BqRetuned s.bq.nch sel sec upd s.params.fmt s.bq (bqSetParam cs sec upd s).bq := by
  refine ⟨rfl, fun c k => ?_⟩
  have hset : elemAt (bqSetParam cs sec upd s).bq.sections c k = (elemAt s.bq.sections c k).map fun σ =>
      if hits s.bq.nch sel c = true ∧ k = sec then bqRecompute (s.fp.site c) (upd σ) else σ :=
    elemAt_onSections_hits hnodup hmem sec _ _ c k
  rw [hset]
  split
  · cases elemAt s.bq.sections c k with
    | none => exact .inl ⟨rfl, rfl⟩
    | some σ => exact .inr ⟨σ, _, rfl, rfl, bqRecompute_recomputed (s.fp.site c) (upd σ)⟩
  · exact Option.map_id'

/-- A setter whose checks pass, with `check` its check of the operand. -/
theorem setter_retunes (hprep : s.bq.prepared = true) (hsel : inRange s.bq.nch sel = true) (hsec : sec < s.bq.nsec)
    {check : Except ErrCode Unit} (hcheck : check = .ok ()) (upd : BqSection → BqSection) :
    ∃ t, (conclude s do
        needPrepared s.bq.prepared
        let cs ← channels s.bq.nch sel
        checkSection s.bq.nsec sec
        check
        return bqSetParam cs sec upd s) = .next t ∧
      t = { s with bq := t.bq, draws := t.draws } ∧ BqRetuned s.bq.nch sel sec upd s.params.fmt s.bq t.bq := by
  obtain ⟨cs, hcs, hnodup, hmem⟩ := channels_of_inRange hsel
  refine ⟨bqSetParam cs sec upd s, ?_, rfl, bqSetParam_retuned hnodup hmem upd⟩
  rw [selectedSection_passes hprep hcs hsec, hcheck]
  rfl

end

/-- Settles O31. -/
theorem bqSettersRecomputeTheSection : Obligations.BqSettersRecomputeTheSection := by
  intro sel sec s hprep hsel hsec
  refine ⟨fun T => setter_retunes hprep hsel hsec (check := .ok ()) rfl _, fun hfreq => ?_, fun hq => ?_,
    fun hgain => ?_⟩
  · have hvalid : validFreq s.params.fmt (s.operand 0) = true := Bool.and_eq_true_iff.2 hfreq
    exact setter_retunes hprep hsel hsec ((checkFreq_ok ..).2 hvalid) _
  · have hvalid : positiveFinite s.params.fmt (s.operand 0) = true := Bool.and_eq_true_iff.2 hq
    exact setter_retunes hprep hsel hsec ((checkQ_ok ..).2 hvalid) _
  · have hvalid : validGainDb s.params.fmt (s.operand 0) = true := Bool.and_eq_true_iff.2 hgain
    exact setter_retunes hprep hsel hsec ((checkGainDb_ok ..).2 hvalid) _

/-! ### The flat peak (O32) -/

theorem isFinite_two (f : Format) : isFinite f (ofInteger f 2) = true := by cases f <;> decide +kernel

theorem isZero_one (f : Format) : isZero f (ofInteger f 1) = false := (one_is_finite_nonzero f).2

theorem fmul_one_right (e : Fp) {x : Sample} (hfits : Fits e.fmt x) (hx : isFinite e.fmt x = true) :
    fmul e x (ofInteger e.fmt 1) = x := by
  rw [fmul_comm_of_finite e hx (isFinite_one e.fmt), fmul_one_left e hfits hx]

theorem fdiv_one_right (e : Fp) {x : Sample} (hfits : Fits e.fmt x) (hx : isFinite e.fmt x = true) :
    fdiv e x (ofInteger e.fmt 1) = x := by
  rw [fdiv_of_finite e x _ hx (isFinite_one e.fmt) (isZero_one e.fmt), ulps_one,
    roundMag_ulps e.fmt x _ (by positivity) hx, (nonNeg_ofInteger e.fmt 1).2, Bool.bne_false,
    mkSample_of_fits e.fmt x hfits]

/-! Finite operands draw no NaN, so the place of an operation does not matter. -/

section
variable (e : Fp) {a b : Sample} (i j : Nat) (ha : isFinite e.fmt a = true) (hb : isFinite e.fmt b = true)
include ha hb

theorem fadd_site_irrelevant : fadd (e.site i) a b = fadd (e.site j) a b :=
  (fadd_of_finite (e.site i) a b ha hb).trans (fadd_of_finite (e.site j) a b ha hb).symm

theorem fsub_site_irrelevant : fsub (e.site i) a b = fsub (e.site j) a b := by
  rw [fsub, fsub]
  exact fadd_site_irrelevant e i j ha ((isFinite_fneg ..).trans hb)

end

theorem bqNegTwoCos_site_irrelevant (e : Fp) {cw : Sample} (i j : Nat) (hcw : isFinite e.fmt cw = true) :
    bqNegTwoCos (e.site i) cw = bqNegTwoCos (e.site j) cw :=
  congrArg (fneg e.fmt) ((fmul_of_finite ((e.site i).site 0) _ cw (isFinite_two e.fmt) hcw).trans
    (fmul_of_finite ((e.site j).site 0) _ cw (isFinite_two e.fmt) hcw).symm)

/-- Settles O32: the product and the quotient of `α` and 1 are both `α`. -/
theorem peakDesignAtUnitGainIsFlat : Obligations.PeakDesignAtUnitGainIsFlat := by
  intro e cw α _ hfits hcw hα
  have hproduct (i : Nat) : fmul (e.site i) α (one e.fmt) = α := fmul_one_right (e.site i) hfits hα
  have hquotient (i : Nat) : fdiv (e.site i) α (one e.fmt) = α := fdiv_one_right (e.site i) hfits hα
  have hone : isFinite e.fmt (one e.fmt) = true := isFinite_one e.fmt
  refine ⟨?_, bqNegTwoCos_site_irrelevant e 2 7 hcw, ?_⟩
  · calc (bqPeak e cw α (one e.fmt)).n0
      _ = fadd (e.site 1) (one e.fmt) α := congrArg _ (hproduct 0)
      _ = fadd (e.site 6) (one e.fmt) α := fadd_site_irrelevant e 1 6 hone hα
      _ = (bqPeak e cw α (one e.fmt)).d0 := congrArg _ (hquotient 5).symm
  · calc (bqPeak e cw α (one e.fmt)).n2
      _ = fsub (e.site 4) (one e.fmt) α := congrArg _ (hproduct 3)
      _ = fsub (e.site 9) (one e.fmt) α := fsub_site_irrelevant e 4 9 hone hα
      _ = (bqPeak e cw α (one e.fmt)).d2 := congrArg _ (hquotient 8).symm

end Sys2Proof.Proofs
end

