-- ==== Sys2Proof/Proofs/EnvelopeFollower.lean ====
section
/-! PROOF. The envelope follower (O44 to O46, O48, O50), and of the gain smoother the commands those statements speak of
with it: PREPARE, RESET and the readback. What each command leaves when its checks pass, then what one channel
becomes. -/

namespace Sys2Proof.Proofs

open Sys2Proof.Machine Sys2Proof.Claims

/-! ### What the commands leave (R131 to R133) -/

theorem countRate_passes {α : Type} {n max : Nat} {f : Format} {fs : Sample} {k : Except ErrCode α}
    (hn : 1 ≤ n ∧ n ≤ max) (hfs : positiveFinite f fs = true) : (do checkCount n max; checkFs f fs; k) = k := by
  rw [(checkCount_ok n max ()).2 hn, (checkFs_ok f fs ()).2 hfs, ok_bind, ok_bind]

/-- What the follower's `ch/ALL` commands leave: the effect on each channel of the set. -/
def efChannelsUpdated (cs : List Nat) (eff : Nat → EfChannel → EfChannel) (s : State) : State :=
  { s with ef := { s.ef with chans := onChannels cs eff s.ef.chans } }.drawn

/-- What EF_PROCESS leaves: the channel with its new envelope, and its level as the result (R264). -/
def efChannelTracked (c : Nat) (q : EfChannel) (s : State) : State :=
  ({ s with ef := { s.ef with chans := s.ef.chans.set c q } }.setRes 0 (efLevel s.fp q.env s.ef.variant)).drawn

section
variable {n : Nat} {s : State} (hn : 1 ≤ n ∧ n ≤ s.params.maxChannels)
  (hfs : positiveFinite s.params.fmt (s.operand 0) = true)
include hn hfs

theorem exec_efPrepare (variant : EfVariant) : exec (.efPrepare n variant) s = .next { s with ef :=
    { prepared := true, nch := n, variant := variant, fs := s.operand 0,
      chans := List.replicate n (efFresh s.params.fmt) } } :=
  congrArg (conclude s) (countRate_passes hn hfs)

theorem exec_gsPrepare : exec (.gsPrepare n) s = .next { s with gs :=
    { prepared := true, nch := n, fs := s.operand 0, chans := List.replicate n (gsFresh s.params.fmt) } } :=
  congrArg (conclude s) (countRate_passes hn hfs)

end

section
variable {sel : ChanSel} {cs : List Nat} {s : State}

theorem exec_efReset (seeded : Bool) (hprep : s.ef.prepared = true) (hcs : channels s.ef.nch sel = .ok cs) :
    exec (.efReset sel seeded) s = .next (efChannelsUpdated cs
      (fun c p => { p with env := efSeed (s.fp.site c) (seedValue seeded s) s.ef.variant }) s) :=
  congrArg (conclude s) (selection_passes hprep hcs)

theorem exec_gsReset (seeded : Bool) (hprep : s.gs.prepared = true) (hcs : channels s.gs.nch sel = .ok cs) :
    exec (.gsReset sel seeded) s = .next { s with gs := { s.gs with
      chans := onChannels cs (fun _ p => { p with g := seedValue seeded s }) s.gs.chans } } :=
  congrArg (conclude s) (selection_passes hprep hcs)

/-- R262: the time an operand stands for; its product draws under a place that is no channel's. -/
def efOperandTime (s : State) (mode : TimeMode) : Sample :=
  efTime (s.fp.site 256) s.params.perceptualScale (s.operand 0) mode

theorem exec_efSetattack (mode : TimeMode) (hprep : s.ef.prepared = true) (hcs : channels s.ef.nch sel = .ok cs) :
    exec (.efSetattack sel mode) s = .next (efChannelsUpdated cs
      (fun c p => { p with att := timeCoeff (s.fp.site c) (efOperandTime s mode) s.ef.fs }) s) :=
  congrArg (conclude s) (selection_passes hprep hcs)

theorem exec_efSetrelease (mode : TimeMode) (hprep : s.ef.prepared = true) (hcs : channels s.ef.nch sel = .ok cs) :
    exec (.efSetrelease sel mode) s = .next (efChannelsUpdated cs
      (fun c p => { p with rel := timeCoeff (s.fp.site c) (efOperandTime s mode) s.ef.fs }) s) :=
  congrArg (conclude s) (selection_passes hprep hcs)

end

section
variable {c : Nat} {s : State}

theorem exec_efProcess {p : EfChannel} (hprep : s.ef.prepared = true) (hc : c < s.ef.nch)
    (hp : s.ef.chans[c]? = some p) :
    exec (.efProcess c) s = .next (efChannelTracked c (efTrack s.fp s.ef.variant (s.operand 0) p) s) := by
  rw [← getD_of_getElem? default hp]
  exact congrArg (conclude s) (channel_passes hprep hc)

theorem exec_efRead {p : EfChannel} (hprep : s.ef.prepared = true) (hc : c < s.ef.nch)
    (hp : s.ef.chans[c]? = some p) :
    exec (.efRead c) s = .next { s with
      res := ⟨p.env, p.att, p.rel, efLevel s.fp p.env s.ef.variant, s.res.w4⟩ }.drawn := by
  rw [← getD_of_getElem? default hp]
  exact congrArg (conclude s) (channel_passes hprep hc)

theorem exec_gsRead {p : GsChannel} (hprep : s.gs.prepared = true) (hc : c < s.gs.nch)
    (hp : s.gs.chans[c]? = some p) :
    exec (.gsRead c) s = .next { s with res := { s.res with w0 := p.g, w1 := p.att, w2 := p.rel } } := by
  rw [← getD_of_getElem? default hp]
  exact congrArg (conclude s) (channel_passes hprep hc)

end

/-! ### PREPARE (O44) -/

/-- Settles O44. -/
theorem followerPrepareSetsEveryChannel : Obligations.FollowerPrepareSetsEveryChannel := by
  intro n variant s hlo hhi hfs
  have hrate : positiveFinite s.params.fmt (s.operand 0) = true := Bool.and_eq_true_iff.2 hfs
  exact ⟨⟨_, exec_efPrepare ⟨hlo, hhi⟩ hrate variant, rfl, rfl, fun _ => List.getElem?_replicate⟩,
    _, exec_gsPrepare ⟨hlo, hhi⟩ hrate, rfl, rfl, fun _ => List.getElem?_replicate⟩

/-! ### RESET (O45) -/

theorem efSeed_of_peak (e : Fp) (v : Sample) {variant : EfVariant} (h : variant = .peak) : efSeed e v variant = v := by
  rw [h, efSeed]

theorem efSeed_of_rms (e : Fp) (v : Sample) {variant : EfVariant} (h : variant = .rms) :
    efSeed e v variant = fmul e v v := by
  rw [h, efSeed]

/-- Settles O45. -/
theorem followerResetSeedsTheSelectedChannels : Obligations.FollowerResetSeedsTheSelectedChannels := by
  intro sel seeded s
  constructor
  · intro hprep hsel
    obtain ⟨cs, hcs, hnodup, hmem⟩ := channels_of_inRange hsel
    refine ⟨_, exec_efReset seeded hprep hcs, rfl, rfl, length_onChannels .., fun c p q hp hq => ?_⟩
    obtain rfl := channel_of_onChannels hnodup hmem hp hq
    split
    · exact ⟨seedValue seeded s, rfl, rfl, efSeed_of_peak (s.fp.site c) _,
        fun hrms => ⟨_, efSeed_of_rms (s.fp.site c) _ hrms⟩⟩
    · rfl
  · intro hprep hsel
    obtain ⟨cs, hcs, hnodup, hmem⟩ := channels_of_inRange hsel
    exact ⟨_, exec_gsReset seeded hprep hcs, rfl, rfl, getElem?_onChannels_hits hnodup hmem _ _⟩

/-! ### Times (O46) -/

/-- Settles O46. -/
theorem efTimesAreStored : Obligations.EfTimesAreStored := by
  intro sel mode s hprep hsel
  obtain ⟨cs, hcs, hnodup, hmem⟩ := channels_of_inRange hsel
  refine ⟨_, _, exec_efSetattack mode hprep hcs, exec_efSetrelease mode hprep hcs, rfl, rfl, rfl, rfl,
    length_onChannels .., length_onChannels .., (s.fp.site 256).key, efOperandTime s mode, ?_,
    fun c p q r hp hq hr => ?_⟩
  · cases mode with
    | raw => rfl
    | perceptual => rfl
  · obtain rfl := channel_of_onChannels hnodup hmem hp hq
    obtain rfl := channel_of_onChannels hnodup hmem hp hr
    split
    · exact ⟨timeCoeff_equation (s.fp.site c) _ _, rfl, timeCoeff_equation (s.fp.site c) _ _, rfl⟩
    · exact ⟨rfl, rfl⟩

/-! ### Tracking (O48) -/

theorem onePole_equation (e : Fp) (st inp coef : Sample) : OnePoleEquation e.fmt st inp coef (onePole e st inp coef) :=
  ⟨_, _, _, rfl⟩

section
variable (e : Fp) {variant : EfVariant}

theorem efInput_of_peak (x : Sample) (h : variant = .peak) : efInput e x variant = fabs e.fmt x := by rw [h, efInput]

theorem efInput_of_rms (x : Sample) (h : variant = .rms) : efInput e x variant = fmul (e.site 0) x x := by
  rw [h, efInput]

theorem efLevel_of_peak (env : Sample) (h : variant = .peak) : efLevel e env variant = env := by rw [h, efLevel]

theorem efLevel_of_rms (env : Sample) (h : variant = .rms) : efLevel e env variant = fsqrt (e.site 2) env := by
  rw [h, efLevel]

end

/-- R264: the envelope moves to what it is compared with, by the attack factor when that is above it. -/
theorem efTrack_equation (e : Fp) (variant : EfVariant) (x : Sample) (p : EfChannel) :
    OnePoleEquation e.fmt p.env (efInput e x variant)
      (if flt e.fmt p.env (efInput e x variant) then p.att else p.rel) (efTrack e variant x p).env :=
  onePole_equation (e.site 1) ..

/-- Settles O48. -/
theorem efProcessTracksTheInput : Obligations.EfProcessTracksTheInput := by
  intro c s p hprep hc hp
  refine ⟨_, efTrack s.fp s.ef.variant (s.operand 0) p, efInput s.fp (s.operand 0) s.ef.variant,
    exec_efProcess hprep hc hp, rfl, rfl, rfl, rfl, efTrack_equation .., fun hpeak => ?_, fun hrms => ?_⟩
  · exact ⟨efInput_of_peak s.fp _ hpeak, efLevel_of_peak s.fp _ hpeak⟩
  · exact ⟨⟨_, efInput_of_rms s.fp _ hrms⟩, _, efLevel_of_rms s.fp _ hrms⟩

/-! ### Readbacks (O50) -/

/-- Settles O50. -/
theorem followerReadbacksShowTheChannel : Obligations.FollowerReadbacksShowTheChannel := by
  refine ⟨fun c s p hprep hc hp => ?_, fun c s p hprep hc hp => exec_gsRead hprep hc hp⟩
  exact ⟨_, exec_efRead hprep hc hp, rfl, rfl, efLevel_of_peak s.fp p.env,
    fun hrms => ⟨_, efLevel_of_rms s.fp p.env hrms⟩⟩

end Sys2Proof.Proofs
end

