-- ==== Sys2Proof/Proofs/GainComputer.lean ====
section
/-! PROOF. The gain computer: its transfer law region by region and GC_COMPUTE (O52), the setters (O51), the readback
(O53), and the reserved bits of its words. -/

namespace Sys2Proof.Proofs

open Sys2Proof.Machine Sys2Proof.Claims

/-! ### The transfer law (R294) -/

/-- R294: `lower`, the level in dB below which the gain is not changed. -/
def kneeLower (e : Fp) (p : GcUnit) : Sample :=
  fsub (e.site 1) p.thr (fdiv (e.site 0) p.knee (two e.fmt))

/-- R294: `upper`, the level in dB above which the hard-knee law holds. -/
def kneeUpper (e : Fp) (p : GcUnit) : Sample :=
  fadd (e.site 3) p.thr (fdiv (e.site 2) p.knee (two e.fmt))

section
variable (e : Fp) (p : GcUnit) (ldb : Sample)

/-- Region 1. -/
theorem gainChange_of_below_knee (hbelow : flt e.fmt ldb (kneeLower e p) = true) : gainChange e p ldb = z e.fmt :=
  if_pos hbelow

variable (hbelow : ¬ flt e.fmt ldb (kneeLower e p) = true)
include hbelow

/-- Region 2: above the knee, or no knee at all. -/
theorem gainChange_of_hard_knee (habove : flt e.fmt (kneeUpper e p) ldb = true ∨ feq e.fmt p.knee (z e.fmt) = true) :
    gainChange e p ldb = fmul (e.site 7) (fsub (e.site 4) p.thr ldb)
      (fsub (e.site 6) (one e.fmt) (fdiv (e.site 5) (one e.fmt) p.ratio)) :=
  (if_neg hbelow).trans (if_pos (Bool.or_eq_true_iff.2 habove))

/-- Region 3: the quadratic in the distance from the knee's lower edge. -/
theorem gainChange_of_inside_knee
    (habove : ¬ (flt e.fmt (kneeUpper e p) ldb = true ∨ feq e.fmt p.knee (z e.fmt) = true)) :
    gainChange e p ldb = fdiv (e.site 14)
      (fmul (e.site 12) (fsub (e.site 10) (fdiv (e.site 9) (one e.fmt) p.ratio) (one e.fmt))
        (fmul (e.site 11) (fsub (e.site 8) ldb (kneeLower e p)) (fsub (e.site 8) ldb (kneeLower e p))))
      (fmul (e.site 13) (two e.fmt) p.knee) :=
  (if_neg hbelow).trans (if_neg (mt Bool.or_eq_true_iff.1 habove))

end

/-! ### GC_COMPUTE (O52) -/

/-- The keys of GC_COMPUTE's draws: two for the level in dB, then those of the gain change. -/
def curveKeys (e : Fp) : Nat → List Nat
  | 0 => ((e.site 0).site 0).key
  | 1 => ((e.site 0).site 1).key
  | n + 2 => ((e.site 1).site n).key

theorem gcCurve_equation (e : Fp) (p : GcUnit) (level : Sample) :
    CurveEquation e.fmt p level (gainChange (e.site 1) p (levelDb (e.site 0) level)) (levelDb (e.site 0) level) := by
  refine ⟨curveKeys e, kneeLower (e.site 1) p, kneeUpper (e.site 1) p, rfl, rfl, rfl, ?_⟩
  split
  · next hbelow => exact gainChange_of_below_knee (e.site 1) p _ hbelow
  · next hbelow =>
    split
    · next habove => exact gainChange_of_hard_knee (e.site 1) p _ hbelow habove
    · next habove => exact ⟨_, rfl, gainChange_of_inside_knee (e.site 1) p _ hbelow habove⟩

theorem setRes_firstTwo (s : State) (v0 v1 : Sample) :
    (s.setRes 0 v0).setRes 1 v1 = { s with res := { s.res with w0 := v0, w1 := v1 } } := by
  rw [State.setRes, setRes_withRes]
  rfl

theorem exec_gcCompute (s : State) : exec .gcCompute s = .next { s with
    res := { s.res with
      w0 := gainChange (s.fp.site 1) s.gc (levelDb (s.fp.site 0) (s.operand 0))
      w1 := levelDb (s.fp.site 0) (s.operand 0) }
    draws := s.draws + 1 } :=
  congrArg (fun t : State => Host.Outcome.next t.drawn) (setRes_firstTwo s _ _)

/-- Settles O52. -/
theorem gcComputeFollowsTheTransferLaw : Obligations.GcComputeFollowsTheTransferLaw :=
  fun s => ⟨_, exec_gcCompute s, rfl, rfl, gcCurve_equation s.fp s.gc (s.operand 0)⟩

/-! ### Reserved bits (R106) -/

/-- Rows 0x50 to 0x54 of R109: every field but the opcode has role `zero`. -/
theorem rowOf_gainComputer {opc : Nat} (hlo : 0x50 ≤ opc) (hhi : opc ≤ 0x54) :
    ∃ r, rowOf opc = some r ∧ r.chZero = true ∧ r.secZero = true ∧ r.subZero = true := by
  obtain rfl | rfl | rfl | rfl | rfl : opc = 0x50 ∨ opc = 0x51 ∨ opc = 0x52 ∨ opc = 0x53 ∨ opc = 0x54 := by omega
  all_goals exact ⟨_, rfl, rfl, rfl, rfl⟩

theorem decode_gainComputer_reservedField {w : Word} (hlo : 0x50 ≤ w.toNat % 256) (hhi : w.toNat % 256 ≤ 0x54)
    (hbits : 256 ≤ w.toNat) : decode w = .error .reservedField := by
  rw [← opcField_eq] at hlo hhi
  obtain ⟨r, hrow, hch, hsec, hsub⟩ := rowOf_gainComputer hlo hhi
  refine decode_reservedField hrow ((reservedSet_eq_true_iff r w).2 ?_)
  simpa only [hch, hsec, hsub, true_and] using field_ne_zero_of_le hbits

/-! ### The setters (O51) -/

section
variable (s : State)

theorem exec_gcSetthresh : exec .gcSetthresh s = .next { s with gc := { s.gc with thr := s.operand 0 } } := rfl

theorem exec_gcSetratio : exec .gcSetratio s = .next { s with gc := { s.gc with
    ratio := if fle s.params.fmt (one s.params.fmt) (s.operand 0) then s.operand 0 else one s.params.fmt } } := rfl

theorem exec_gcSetknee : exec .gcSetknee s = .next { s with gc := { s.gc with
    knee := if flt s.params.fmt (z s.params.fmt) (s.operand 0) then s.operand 0 else z s.params.fmt } } := rfl

end

/-- Settles O51. -/
theorem gcSettersClamp : Obligations.GcSettersClamp := by
  refine ⟨fun w ⟨hlo, hhi⟩ hbits => ?_, fun s => ⟨exec_gcSetthresh s, exec_gcSetratio s, exec_gcSetknee s⟩⟩
  exact decode_gainComputer_reservedField hlo (hhi.trans (by decide)) hbits

/-! ### The readback (O53) -/

theorem setRes_firstThree (s : State) (v0 v1 v2 : Sample) :
    ((s.setRes 0 v0).setRes 1 v1).setRes 2 v2 = { s with res := { s.res with w0 := v0, w1 := v1, w2 := v2 } } := by
  rw [setRes_firstTwo, setRes_withRes]
  rfl

theorem exec_gcRead (s : State) : exec .gcRead s =
    .next { s with res := { s.res with w0 := s.gc.thr, w1 := s.gc.ratio, w2 := s.gc.knee } } :=
  congrArg Host.Outcome.next (setRes_firstThree s _ _ _)

/-- Settles O53. -/
theorem gcReadShowsTheParameters : Obligations.GcReadShowsTheParameters :=
  ⟨fun _ hopc => decode_gainComputer_reservedField (hopc.symm ▸ by decide) hopc.le, exec_gcRead,
    fun p => ⟨_, exec_gcRead (State.resetWith p), rfl, rfl, rfl⟩⟩

end Sys2Proof.Proofs
end

/-! PROOF. The gain smoother's times (O47) and its step (O49): what each command leaves when its checks pass, then what
one channel becomes. -/

namespace Sys2Proof.Proofs

open Sys2Proof.Machine Sys2Proof.Claims

/-! ### What the commands leave (R131, R132) -/

/-- What the smoother's commands that set a time leave: the effect on each channel of the set. -/
def gsChannelsUpdated (cs : List Nat) (eff : Nat → GsChannel → GsChannel) (s : State) : State :=
  { s with gs := { s.gs with chans := onChannels cs eff s.gs.chans } }.drawn

/-- What GS_PROCESS leaves: the channel with its new gain, which is the result (R314). -/
def gsChannelSmoothed (c : Nat) (q : GsChannel) (s : State) : State :=
  ({ s with gs := { s.gs with chans := s.gs.chans.set c q } }.setRes 0 q.g).drawn

section
variable {sel : ChanSel} {cs : List Nat} {s : State}

theorem exec_gsSetattack (hprep : s.gs.prepared = true) (hcs : channels s.gs.nch sel = .ok cs) :
    exec (.gsSetattack sel) s = .next (gsChannelsUpdated cs
      (fun c p => { p with att := timeCoeff (s.fp.site c) (s.operand 0) s.gs.fs }) s) :=
  congrArg (conclude s) (selection_passes hprep hcs)

theorem exec_gsSetrelease (hprep : s.gs.prepared = true) (hcs : channels s.gs.nch sel = .ok cs) :
    exec (.gsSetrelease sel) s = .next (gsChannelsUpdated cs
      (fun c p => { p with rel := timeCoeff (s.fp.site c) (s.operand 0) s.gs.fs }) s) :=
  congrArg (conclude s) (selection_passes hprep hcs)

end

theorem exec_gsProcess {c : Nat} {s : State} {p : GsChannel} (hprep : s.gs.prepared = true) (hc : c < s.gs.nch)
    (hp : s.gs.chans[c]? = some p) :
    exec (.gsProcess c) s = .next (gsChannelSmoothed c (gsTrack s.fp (s.operand 0) p) s) := by
  rw [← getD_of_getElem? default hp]
  exact congrArg (conclude s) (channel_passes hprep hc)

/-! ### Times (O47) -/

/-- Settles O47: each command runs its effect once on every selected channel, and the effect replaces one factor. -/
theorem gsTimesAreStored : Obligations.GsTimesAreStored := by
  intro sel s hprep hsel
  obtain ⟨cs, hcs, hnodup, hmem⟩ := channels_of_inRange hsel
  refine ⟨_, _, exec_gsSetattack hprep hcs, exec_gsSetrelease hprep hcs, rfl, rfl, rfl, rfl,
    length_onChannels .., length_onChannels .., fun c p q r hp hq hr => ?_⟩
  obtain rfl := channel_of_onChannels hnodup hmem hp hq
  obtain rfl := channel_of_onChannels hnodup hmem hp hr
  split
  · exact ⟨timeCoeff_equation (s.fp.site c) _ _, rfl, timeCoeff_equation (s.fp.site c) _ _, rfl⟩
  · exact ⟨rfl, rfl⟩

/-! ### Smoothing (O49) -/

/-- R314: the gain moves to the incoming gain change, by the attack factor when that is below it. -/
theorem gsTrack_equation (e : Fp) (x : Sample) (p : GsChannel) :
    OnePoleEquation e.fmt p.g x (if flt e.fmt x p.g then p.att else p.rel) (gsTrack e x p).g :=
  onePole_equation e ..

/-- Settles O49, by the one-pole equation of the channel's step. -/
theorem gsProcessSmoothsTheGain : Obligations.GsProcessSmoothsTheGain := by
  intro c s p hprep hc hp
  exact ⟨_, gsTrack s.fp (s.operand 0) p, exec_gsProcess hprep hc hp, rfl, rfl, rfl, rfl, gsTrack_equation ..⟩

end Sys2Proof.Proofs

/-! PROOF. Errors, the interrupt and hardware reset: the error procedure (O17), the first failing check of every command
(O18), by one rule per check against its entry in R333's list, the record kept until it is cleared (O19), the interrupt
(O21), and the state hardware reset leaves (O5, O6). -/

namespace Sys2Proof.Proofs

open Sys2Proof.Machine Sys2Proof.Claims

/-! ### The error record (O17) -/

/-- Settles O17: the two cases of the error procedure, and the table of its codes. -/
theorem errorProcedureRecordsTheFirstError : Obligations.ErrorProcedureRecordsTheFirstError :=
  ⟨errorProc_of_no_err, errorProc_of_err, rfl⟩

/-- `STATUS.ERR`, `ERRCODE` and `ERRCMD` are as they were. -/
structure RecordKept (s t : State) : Prop where
  err : t.err = s.err
  errcode : t.errcode = s.errcode
  errcmd : t.errcmd = s.errcmd

theorem RecordKept.refl (s : State) : RecordKept s s := ⟨rfl, rfl, rfl⟩

/-- R335: a later error leaves the record. -/
theorem errorProc_recordKept (e : ErrCode) (w : Word) {s : State} (h : s.err = true) :
    RecordKept s (errorProc e w s) := by
  rw [errorProc_of_err e w s h]
  exact .refl s

/-! ### One check and its entry in the list (R131 to R133) -/

/-- The check raises its entry's code exactly when the entry says that it fails. -/
def Decides {α : Type} (x : Except ErrCode α) (c : Check) : Prop :=
  if c.2 then x = .error c.1 else ∃ a, x = .ok a

/-- A check that passes under a condition. -/
theorem decides_pass (b : Bool) (e : ErrCode) : Decides (if b then .ok () else .error e) (e, !b) := by
  cases b with
  | true => exact ⟨(), rfl⟩
  | false => rfl

/-- A check that fails under a condition. -/
theorem decides_fail {p : Prop} [Decidable p] {b : Bool} (e : ErrCode) (h : p ↔ b = true) :
    Decides (if p then .error e else .ok ()) (e, b) := by
  cases b with
  | true => exact if_pos (h.2 rfl)
  | false => exact ⟨(), if_neg fun hp => Bool.false_ne_true (h.1 hp)⟩

theorem needPrepared_decides (b : Bool) : Decides (needPrepared b) (prepCheck b) := decides_pass b _

theorem checkCount_decides (n m : Nat) : Decides (checkCount n m) (countCheck n m) := decides_fail _ (by simp)

theorem checkSection_decides (n k : Nat) : Decides (checkSection n k) (secCheck n k) := decides_fail _ (by simp)

theorem checkChannel_decides (n c : Nat) : Decides (checkChannel n c) (chCheck n c) := by
  by_cases h : c < n
  · simp [Decides, checkChannel, chCheck, h]
  · simp [Decides, checkChannel, chCheck, h, not_lt.1 h]

/-- A broadcast is always in range (R104). -/
theorem channels_decides (n : Nat) (sel : ChanSel) : Decides (channels n sel) (selCheck n sel) := by
  cases sel with
  | all => exact ⟨_, rfl⟩
  | one c =>
    by_cases h : c < n
    · simp [Decides, channels, selCheck, inRange, h]
    · simp [Decides, channels, selCheck, inRange, h]

/-- The order of EXP is in 1..8, of the others 0 (R161). -/
theorem checkOrder_decides (alg : PsAlg) (m : Nat) : Decides (checkOrder alg m) (orderCheck alg m) := by
  cases alg with
  | exp => exact decides_fail _ (by simp [Config.psMaxOrder])
  | none | linear => exact decides_fail _ (by simp)

section
variable (s : State)

theorem checkFs_decides : Decides (checkFs s.params.fmt (s.operand 0)) (rateCheck s) := decides_pass _ _

theorem checkFreq_decides : Decides (checkFreq s.params.fmt (s.operand 0)) (freqCheck s) := decides_pass _ _

theorem checkQ_decides : Decides (checkQ s.params.fmt (s.operand 0)) (qCheck s) := decides_pass _ _

theorem checkGainDb_decides : Decides (checkGainDb s.params.fmt (s.operand 0)) (dbGainCheck s) := decides_pass _ _

theorem checkLinearGain_decides : Decides (checkLinearGain s.params.fmt (s.operand 1)) (shelfGainCheck s) :=
  decides_pass _ _

end

/-! ### A command's checks in order (O18) -/

/-- The code of the first check of a list that fails. -/
def failureOf (cs : List Check) : Option ErrCode := (cs.find? fun c => c.2).map fun c => c.1

theorem firstFailure_eq_failureOf (s : State) (i : Instr) : firstFailure s i = failureOf (checksOf s i) := rfl

/-- The body raises the first failure of the list, or succeeds and leaves the error record. -/
structure Reports (cs : List Check) (s : State) (x : Except ErrCode State) : Prop where
  error : ∀ e, failureOf cs = some e → x = .error e
  ok : failureOf cs = none → ∃ t, x = .ok t ∧ RecordKept s t

theorem reports_ok {s t : State} (h : RecordKept s t) : Reports [] s (.ok t) := ⟨nofun, fun _ => ⟨t, rfl, h⟩⟩

/-- A body that begins with the first check of the list. -/
theorem reports_check {α : Type} {c : Check} {cs : List Check} {s : State} {x : Except ErrCode α}
    {k : α → Except ErrCode State} (hx : Decides x c) (hk : ∀ a, Reports cs s (k a)) :
    Reports (c :: cs) s (x >>= k) := by
  obtain ⟨e, fails⟩ := c
  cases fails with
  | true =>
    obtain rfl : x = .error e := hx
    refine ⟨?_, nofun⟩
    rintro _ ⟨⟩
    rfl
  | false =>
    obtain ⟨a, rfl⟩ : ∃ a, x = .ok a := hx
    obtain ⟨herror, hok⟩ := hk a
    exact ⟨herror, hok⟩

/-- A `ch/ALL` command's first two checks (R131, R132). -/
theorem reports_selection {b : Bool} {n : Nat} {sel : ChanSel} {cs : List Check} {s : State}
    {k : List Nat → Except ErrCode State} (hk : ∀ l, Reports cs s (k l)) :
    Reports (prepCheck b :: selCheck n sel :: cs) s (do needPrepared b; let l ← channels n sel; k l) :=
  reports_check (needPrepared_decides b) fun _ => reports_check (channels_decides n sel) hk

/-- A `ch` command's first two checks (R131, R132). -/
theorem reports_channel {b : Bool} {n c : Nat} {cs : List Check} {s : State} {x : Except ErrCode State}
    (hx : Reports cs s x) : Reports (prepCheck b :: chCheck n c :: cs) s (do needPrepared b; checkChannel n c; x) :=
  reports_check (needPrepared_decides b) fun _ => reports_check (checkChannel_decides n c) fun _ => hx

theorem bqSetParam_recordKept (cs : List Nat) (sec : Nat) (upd : BqSection → BqSection) (s : State) :
    RecordKept s (bqSetParam cs sec upd s) := ⟨rfl, rfl, rfl⟩

/-- FO_DESIGN checks a gain for the shelves only (R195). -/
theorem execFoDesign_reports (type : FoType) (s : State) :
    ∃ x, execFoDesign type s = conclude s x ∧ Reports (checksOf s (.foDesign type)) s x := by
  cases type with
  | lowpass | highpass | allpass =>
    exact ⟨_, rfl, reports_check (checkFreq_decides s) fun _ => reports_ok (by constructor <;> simp)⟩
  | lowshelf | highshelf =>
    exact ⟨_, rfl, reports_check (checkFreq_decides s) fun _ => reports_check (checkLinearGain_decides s) fun _ =>
      reports_ok (by constructor <;> simp)⟩

/-- Every command but ERRCLR, which keeps no record, makes the checks of its list in their order; the cases are grouped
by the checks. -/
theorem exec_reports {i : Instr} (hi : i ≠ .errclr) (s : State) :
    ∃ x, exec i s = conclude s x ∧ Reports (checksOf s i) s x := by
  cases i with
  | errclr => exact absurd rfl hi
  | nop | gcSetthresh | gcSetratio | gcSetknee | gcCompute | gcRead =>
    exact ⟨.ok _, rfl, reports_ok (by constructor <;> simp)⟩
  | foDesign type => exact execFoDesign_reports type s
  | foPrepare | bqPrepare =>
    exact ⟨_, rfl, reports_check (checkCount_decides ..) fun _ => reports_check (checkCount_decides ..) fun _ =>
      reports_ok (by constructor <;> simp)⟩
  | psPrepare =>
    exact ⟨_, rfl, reports_check (checkCount_decides ..) fun _ => reports_check (checkOrder_decides ..) fun _ =>
      reports_check (checkFs_decides s) fun _ => reports_ok (by constructor <;> simp)⟩
  | efPrepare | gsPrepare =>
    exact ⟨_, rfl, reports_check (checkCount_decides ..) fun _ => reports_check (checkFs_decides s) fun _ =>
      reports_ok (by constructor <;> simp)⟩
  | foReset | bqReset | psReset | psSettime | psSettarget | efReset | efSetattack | efSetrelease | gsReset
  | gsSetattack | gsSetrelease =>
    exact ⟨_, rfl, reports_selection fun _ => reports_ok (by constructor <;> simp)⟩
  | foSetcoef | bqSetcoef =>
    exact ⟨_, rfl, reports_selection fun _ => reports_check (checkSection_decides ..) fun _ =>
      reports_ok (by constructor <;> simp)⟩
  | bqSettype =>
    exact ⟨_, rfl, reports_selection fun _ => reports_check (checkSection_decides ..) fun _ =>
      reports_ok (bqSetParam_recordKept ..)⟩
  | bqSetfreq =>
    exact ⟨_, rfl, reports_selection fun _ => reports_check (checkSection_decides ..) fun _ =>
      reports_check (checkFreq_decides s) fun _ => reports_ok (bqSetParam_recordKept ..)⟩
  | bqSetq =>
    exact ⟨_, rfl, reports_selection fun _ => reports_check (checkSection_decides ..) fun _ =>
      reports_check (checkQ_decides s) fun _ => reports_ok (bqSetParam_recordKept ..)⟩
  | bqSetgain =>
    exact ⟨_, rfl, reports_selection fun _ => reports_check (checkSection_decides ..) fun _ =>
      reports_check (checkGainDb_decides s) fun _ => reports_ok (bqSetParam_recordKept ..)⟩
  | foProcess | bqProcess | psNext | psRead | efProcess | efRead | gsProcess | gsRead =>
    exact ⟨_, rfl, reports_channel <| reports_ok (by constructor <;> simp)⟩
  | foReadcoef | foReadstate | bqReadcoef | bqReadstate | bqReadparam | psReadstage =>
    exact ⟨_, rfl, reports_channel <| reports_check (checkSection_decides ..) fun _ =>
      reports_ok (by constructor <;> simp)⟩

theorem exec_of_failure {i : Instr} {s : State} {e : ErrCode} (h : firstFailure s i = some e) :
    exec i s = .next (errorProc e s.cmd s) := by
  have hi : i ≠ .errclr := by
    rintro rfl
    cases h
  obtain ⟨x, hx, hreports⟩ := exec_reports hi s
  rw [firstFailure_eq_failureOf] at h
  rw [hx, hreports.error e h, conclude_error]

theorem exec_of_no_failure {i : Instr} {s : State} (hi : i ≠ .errclr) (h : firstFailure s i = none) :
    ∃ t, exec i s = .next t ∧ RecordKept s t := by
  obtain ⟨x, hx, hreports⟩ := exec_reports hi s
  rw [firstFailure_eq_failureOf] at h
  obtain ⟨t, rfl, ht⟩ := hreports.ok h
  exact ⟨t, hx, ht⟩

/-- R112: the decoder raises the error of the map's pseudocode. -/
theorem decode_of_decodeError {w : Word} {e : ErrCode} (h : decodeError w = some e) : decode w = .error e := by
  have hmap := decodeErrorsFollowTheOpcodeMap w
  rwa [h] at hmap

/-- Settles O18. -/
theorem theFirstFailingCheckIsReported : Obligations.TheFirstFailingCheckIsReported := by
  refine ⟨fun w s e h => by rw [execute, decode_of_decodeError h], fun i s => ?_⟩
  cases h : firstFailure s i with
  | some e => exact exec_of_failure h
  | none =>
    by_cases hi : i = .errclr
    · subst hi
      exact ⟨errClear s, rfl, fun hne => absurd rfl hne⟩
    · obtain ⟨t, ht, herr, hcode, hcmd⟩ := exec_of_no_failure hi h
      exact ⟨t, ht, fun _ => ⟨herr, hcode, hcmd⟩⟩

/-! ### A recorded error stays (O19) -/

theorem exec_recordKept {i : Instr} {s t : State} (hi : i ≠ .errclr) (herr : s.err = true) (h : exec i s = .next t) :
    RecordKept s t := by
  cases hfail : firstFailure s i with
  | some e =>
    cases (exec_of_failure hfail).symm.trans h
    exact errorProc_recordKept e s.cmd herr
  | none =>
    obtain ⟨u, hu, hkept⟩ := exec_of_no_failure hi hfail
    cases hu.symm.trans h
    exact hkept

theorem execute_recordKept {w : Word} {s t : State} (hw : decode w ≠ .ok .errclr) (herr : s.err = true)
    (h : execute w s = .next t) : RecordKept s t := by
  obtain ⟨e, -, he⟩ | ⟨i, hdec, hi⟩ := execute_cases w s
  · cases he.symm.trans h
    exact errorProc_recordKept e w herr
  · refine exec_recordKept ?_ herr (hi.symm.trans h)
    rintro rfl
    exact hw hdec

theorem writeReg_recordKept (s : State) (v : Word) (o : Nat) : RecordKept s (writeReg s v o) := by
  obtain ⟨-, h⟩ | ⟨k, -, h⟩ | ⟨k, -, h⟩ | h := writeReg_cases s v o
  all_goals rw [h]; exact ⟨rfl, rfl, rfl⟩

theorem handle_recordKept {ev : HostEvent} {s t : State} (herr : s.err = true) (hreset : ev ≠ .reset)
    (hclear : ∀ w, ev = .write (s.params.base + 0x18) 4 w → decode w ≠ .ok .errclr) (h : handle ev s = .next t) :
    RecordKept s t := by
  cases ev with
  | read a n =>
    obtain ⟨o, -, rfl⟩ := hostRead_next a n s t h
    exact ⟨rfl, rfl, rfl⟩
  | write a n v =>
    obtain ⟨hoff, hx⟩ | ⟨o, -, -, rfl⟩ := hostWrite_next a n v s t h
    · obtain ⟨-, -, rfl, rfl⟩ := (busOffset_ok ..).1 hoff
      obtain ⟨he, hcode, hcmd⟩ := execute_recordKept (s := acceptCommand v s) (hclear v rfl) herr hx
      exact ⟨he, hcode, hcmd⟩
    · exact writeReg_recordKept s v o
  | reset => exact absurd rfl hreset

/-- Settles O19: an idle step changes nothing, and every other event at the port keeps the record. -/
theorem anErrorRecordStaysUntilCleared : Obligations.AnErrorRecordStaysUntilCleared := by
  intro s t herr h hreset hclear
  cases hp : s.port with
  | nil =>
    rw [step_idle s hp] at h
    cases h
    exact ⟨herr, rfl, rfl⟩
  | cons ev rest =>
    rw [step_event s ev rest hp] at h
    rw [hp] at hreset hclear
    obtain ⟨he, hcode, hcmd⟩ := handle_recordKept (s := { s with port := rest }) herr
      (fun hev => hreset (congrArg some hev)) (fun w hev => hclear w (congrArg some hev)) h
    exact ⟨he.trans herr, hcode, hcmd⟩

/-! ### The interrupt (O21) -/

/-- R36: a write to `CTRL` stores the interrupt enable. -/
theorem hostWrite_ctrl (s : State) (v : Word) :
    hostWrite (s.params.base + 0x0C) 4 v s = .next { s with errie := v.getLsbD 0 } :=
  hostWrite_register s v (by decide) (by decide) (by decide)

/-- R34: `STATUS` shows the interrupt. -/
theorem statusWord_irq (s : State) : (statusWord s).getLsbD 6 = irq s := by
  obtain ⟨-, -, -, -, -, -, hirq, -⟩ := statusWord_bits s
  exact hirq

/-- Settles O21. -/
theorem interruptIsErrorAndEnable : Obligations.InterruptIsErrorAndEnable := by
  refine ⟨fun s => ⟨Bool.and_eq_true_iff, statusWord_irq s⟩, fun s t v h => ?_, fun s t h => ?_⟩
  · cases (hostWrite_ctrl s v).symm.trans h
    rfl
  · cases h
    exact irq_errClear s

/-! ### Hardware reset (O5, O6) -/

/-- R360: every register but `ID` and `CONFIG` reads 0 after hardware reset. -/
theorem readReg_hardReset (s : State) {o : Nat} (hid : o ≠ 0x00) (hconfig : o ≠ 0x04) :
    readReg (hardReset s) o = 0 := by
  unfold readReg
  split
  · exact absurd rfl hid
  · exact absurd rfl hconfig
  all_goals simp [State.resetWith, Bank.zero, statusWord, ctrlWord, irq, bitAt, loHalf, hiHalf]

/-- Settles O5. -/
theorem hardwareResetState : Obligations.HardwareResetState := by
  refine fun s => ⟨hardReset s, rfl, fun o => ?_, rfl, rfl, rfl, rfl, rfl, rfl, rfl⟩
  split
  · next hid => rw [hid]; rfl
  · next hid =>
    split
    · next hconfig => rw [hconfig]; rfl
    · next hconfig => exact readReg_hardReset s hid hconfig

/-- R7: the parameters of `State.reset` are legal ones (log 1). -/
theorem validParams_defaultParams : ValidParams Config.defaultParams where
  channels := by decide
  sections := by decide
  scale := ⟨by decide +kernel, BitVec.isLt _⟩
  base := rfl

/-- Settles O6. -/
theorem resetSatisfiesTheInvariant : Obligations.ResetSatisfiesTheInvariant :=
  ⟨fun _ => inv_resetWith, inv_resetWith validParams_defaultParams⟩

end Sys2Proof.Proofs
